-- ==== Sys2Proof/Word.lean ====
section
/-! DEFINITION. The word types of the codec core: bytes, header words, counters, pixels, cache slots. Their
widths are literals, so that every BitVec lemma applies; Config.lean names them. -/

namespace Sys2Proof

/-- One byte of a file, one channel of a pixel: `CHANNEL_BITS` bits (R8, R9). -/
abbrev Byte := BitVec 8

/-- A header field, width or height: `DIM_BITS` bits (R8, R19). -/
abbrev Word := BitVec 32

/-- A counter, `PXI`, `POS`, `N`, `L`: `COUNT_BITS` bits (R8, R17, R18). -/
abbrev Count := BitVec 64

/-- A slot number of the predictive cache, 0 .. `CACHE_SLOTS` - 1 (R8, R16). -/
abbrev Slot := Fin 64

/-- A pixel register: four 8-bit channels for both channel counts (R14, R16). -/
structure Pixel where
  r : Byte
  g : Byte
  b : Byte
  a : Byte
deriving DecidableEq, Repr

end Sys2Proof
end

