-- ==== Sys2Proof/Config.lean ====
section
/-! DEFINITION. The implementation parameters of R8, under their names in the spec. -/

namespace Sys2Proof.Config

/-- `CACHE_SLOTS`: the size of the cache, and of `Slot` (R8, R16). -/
abbrev cacheSlots : Nat := 64

/-- `CHANNEL_BITS`: the width of a channel, and of `Byte` (R8, R9). -/
abbrev channelBits : Nat := 8

/-- `DIM_BITS`: the width of `CFG.W` and `CFG.H`, and of `Word` (R8, R19). -/
abbrev dimBits : Nat := 32

/-- `COUNT_BITS`: the width of `PXI`, `POS`, `N` and `L`, and of `Count` (R8, R17, R18). -/
abbrev countBits : Nat := 64

/-- `HASH_MUL` (R8, R46). -/
def hashMulR : Nat := 3
def hashMulG : Nat := 5
def hashMulB : Nat := 7
def hashMulA : Nat := 11

/-- The modulus of `HASH_MUL` (R8, R46). -/
abbrev hashMod : Nat := 64

/-- `CHANNELS`: the channel counts a call can have (R8, R20). -/
def channels : List Byte := [3, 4]

/-- `HASH_A3`: the alpha of every pixel of a 3-channel call (R8, R47). -/
def hashA3 : Byte := 255

/-- `RUN_MAX`: the most pixels one RUN record stands for (R8, R58). -/
def runMax : Nat := 62

/-- `HEADER_BYTES` (R8, R43). -/
def headerBytes : Nat := 14

/-- `TRAILER_BYTES` (R8, R43). -/
def trailerBytes : Nat := 8

/-- `DIFF_RANGE` (R8, R61). -/
def diffLo : Int := -2
def diffHi : Int := 1

/-- `LUMA_DG_RANGE` (R8, R62). -/
def lumaDgLo : Int := -32
def lumaDgHi : Int := 31

/-- `LUMA_REL_RANGE` (R8, R62). -/
def lumaRelLo : Int := -8
def lumaRelHi : Int := 7

/-- `PREV_INIT` (R8, R14), in the four-field representation of both channel counts. -/
def prevInit : Pixel := ⟨0, 0, 0, 255⟩

/-- `CACHE_INIT_A` (R8, R16; conflict C1). -/
def cacheInitA : Byte := 255

/-- What every cache slot holds at the start of a call (R16, R26). -/
def cacheInit : Pixel := ⟨0, 0, 0, cacheInitA⟩

/-- `ENC_DELTA_WRAP`: whether encoder deltas wrap modulo 256 (R8, R60). -/
def encDeltaWrap : Bool := false

/-- `DEC_DIFF_WRAP`: whether a decoded DIFF adds modulo 256 (R8, R79). -/
def decDiffWrap : Bool := true

end Sys2Proof.Config
end

