-- ==== Sys2Proof/Syntax.lean ====
section
/-! DEFINITION. The eight items of the encoded stream (R2): six record kinds and two container items,
one constructor per row of spec/opcode_table.json, with the unbiased operands of R40 and R44. -/

namespace Sys2Proof

/-- The instruction set. Operands are the values of R40, not the biased fields. -/
inductive Instr where
  /-- `INDEX i`: cache index (R59, R78). -/
  | index (i : Slot)
  /-- `DIFF dr,dg,db`: small diff (R61, R79). -/
  | diff (dr dg db : Int)
  /-- `LUMA dg,dr_dg,db_dg`: luma diff (R62, R80). -/
  | luma (dg drDg dbDg : Int)
  /-- `RUN n`: a run of `n` pixels (R58, R81). -/
  | run (n : Nat)
  /-- `RGB r,g,b`: literal of a 3-channel call (R63, R76). -/
  | rgb (r g b : Byte)
  /-- `RGBA r,g,b,a`: literal of a 4-channel call (R64, R77). -/
  | rgba (r g b a : Byte)
  /-- `HEADER w,h,c,cs`: the container header (R43, R88, R92, R93). -/
  | header (w h : Word) (c cs : Byte)
  /-- `TRAILER`: the container trailer (R43, R89, R94). -/
  | trailer
deriving DecidableEq, Repr

/-- Length in bytes (R38, R43). -/
def Instr.size : Instr → Nat
  | .index _ => 1
  | .diff _ _ _ => 1
  | .luma _ _ _ => 2
  | .run _ => 1
  | .rgb _ _ _ => 4
  | .rgba _ _ _ _ => 5
  | .header _ _ _ _ => 14
  | .trailer => 8

/-- The six records of the body; the container items are found by position only (R43). -/
def Instr.isRecord : Instr → Bool
  | .index _ => true
  | .diff _ _ _ => true
  | .luma _ _ _ => true
  | .run _ => true
  | .rgb _ _ _ => true
  | .rgba _ _ _ _ => true
  | .header _ _ _ _ => false
  | .trailer => false

end Sys2Proof
end

