-- ==== Sys2Proof/WellFormed.lean ====
section
/-! DEFINITION. Which terms of `Instr` an encoding exists for: the operand ranges of R40.
A header field may hold any value of its width: an illegal one is the exception `BadHeader` of the
machine (R93), not an ill-formed item. -/

namespace Sys2Proof

/-- The operand ranges of R40. -/
def Instr.wellFormed : Instr → Bool
  | .index _ => true
  | .diff dr dg db =>
      decide (Config.diffLo ≤ dr ∧ dr ≤ Config.diffHi) && decide (Config.diffLo ≤ dg ∧ dg ≤ Config.diffHi)
        && decide (Config.diffLo ≤ db ∧ db ≤ Config.diffHi)
  | .luma dg drDg dbDg =>
      decide (Config.lumaDgLo ≤ dg ∧ dg ≤ Config.lumaDgHi)
        && decide (Config.lumaRelLo ≤ drDg ∧ drDg ≤ Config.lumaRelHi)
        && decide (Config.lumaRelLo ≤ dbDg ∧ dbDg ≤ Config.lumaRelHi)
  | .run n => decide (1 ≤ n ∧ n ≤ Config.runMax)
  | .rgb _ _ _ => true
  | .rgba _ _ _ _ => true
  | .header _ _ _ _ => true
  | .trailer => true

end Sys2Proof
end

