-- ==== Sys2Proof/Decode.lean ====
section
/-! DEFINITION. The decoders of the three positions an item can stand at (file start, body, file end),
each total on any bytes and rejecting by name; after them the encoder; at the end the host's view of
both through the numbering of spec/opcode_table.json. -/

namespace Sys2Proof

/-- Why a decoder finds no item. -/
inductive DecodeError where
  /-- No byte is left for a tag (R74). -/
  | noTag
  /-- The tag is there and the rest of its record is not (R74). -/
  | shortRecord (tag : Byte)
  /-- Fewer than 14 bytes stand at the start of the file (R91 check 1). -/
  | shortHeader
  /-- Bytes 0..3 are not the magic (R92). -/
  | notMagic
  /-- Fewer than 8 bytes stand at the end of the file (R91 check 4). -/
  | shortTrailer
  /-- The last 8 bytes are not the trailer (R94). -/
  | notTrailer
deriving DecidableEq, Repr

/-- `b[hi:lo]`, read as an unsigned integer (R9). -/
def bits (b : Byte) (hi lo : Nat) : Nat := b.toNat / 2 ^ lo % 2 ^ (hi + 1 - lo)

/-- `be32(v)` (R10, R28). -/
def be32 (v : Word) : List Byte :=
  [BitVec.ofNat 8 (v.toNat / 2 ^ 24), BitVec.ofNat 8 (v.toNat / 2 ^ 16),
    BitVec.ofNat 8 (v.toNat / 2 ^ 8), BitVec.ofNat 8 v.toNat]

/-- `unbe32` of the first four bytes (R10); 0 where there are fewer, which no caller asks. -/
def unbe32 : List Byte → Word
  | b0 :: b1 :: b2 :: b3 :: _ =>
      BitVec.ofNat 32 (b0.toNat * 2 ^ 24 + b1.toNat * 2 ^ 16 + b2.toNat * 2 ^ 8 + b3.toNat)
  | _ => 0

/-- The magic `"qoif"` (R32, R43). -/
def magic : List Byte := [0x71, 0x6F, 0x69, 0x66]

/-- The trailer's 8 bytes (R32, R43). -/
def trailerImage : List Byte := [0, 0, 0, 0, 0, 0, 0, 1]

/-- Record length by tag alone (R41). -/
def tagLength (t : Byte) : Nat :=
  if t = 0xFF then 5 else if t = 0xFE then 4 else if bits t 7 6 = 2 then 2 else 1

/-- The record at the head of the bytes and what follows it, tested in the order of R39 and R73. -/
def decodeRecord : List Byte → Except DecodeError (Instr × List Byte)
  | [] => .error .noTag
  | t :: rest =>
    if t = 0xFF then
      match rest with
      | r :: g :: b :: a :: rest' => .ok (.rgba r g b a, rest')
      | _ => .error (.shortRecord t)
    else if t = 0xFE then
      match rest with
      | r :: g :: b :: rest' => .ok (.rgb r g b, rest')
      | _ => .error (.shortRecord t)
    else if bits t 7 6 = 0 then .ok (.index (Fin.ofNat 64 (bits t 5 0)), rest)
    else if bits t 7 6 = 1 then
      .ok (.diff ((bits t 5 4 : Int) - 2) ((bits t 3 2 : Int) - 2) ((bits t 1 0 : Int) - 2), rest)
    else if bits t 7 6 = 2 then
      match rest with
      | b1 :: rest' =>
          .ok (.luma ((bits t 5 0 : Int) - 32) ((bits b1 7 4 : Int) - 8) ((bits b1 3 0 : Int) - 8), rest')
      | _ => .error (.shortRecord t)
    else .ok (.run (bits t 5 0 + 1), rest)

/-- The HEADER item at the start of a file (R43, R91 checks 1 and 2, R92, R93). -/
def decodeHeader (bs : List Byte) : Except DecodeError Instr :=
  if bs.length < Config.headerBytes then .error .shortHeader
  else if bs.take 4 ≠ magic then .error .notMagic
  else .ok (.header (unbe32 (bs.drop 4)) (unbe32 (bs.drop 8)) (bs.getD 12 0) (bs.getD 13 0))

/-- The TRAILER item at the end of a file (R43, R94). -/
def decodeTrailer (bs : List Byte) : Except DecodeError Instr :=
  if bs.length < Config.trailerBytes then .error .shortTrailer
  else if bs.take 8 ≠ trailerImage then .error .notTrailer
  else .ok .trailer

/-- The bytes of an item (R38, R40, R43). -/
def encode : Instr → List Byte
  | .index i => [BitVec.ofNat 8 i.val]
  | .diff dr dg db => [BitVec.ofInt 8 (0x40 + (dr + 2) * 16 + (dg + 2) * 4 + (db + 2))]
  | .luma dg drDg dbDg =>
      [BitVec.ofInt 8 (0x80 + dg + 32), BitVec.ofInt 8 ((drDg + 8) * 16 + (dbDg + 8))]
  | .run n => [BitVec.ofNat 8 (0xC0 + n - 1)]
  | .rgb r g b => [0xFE, r, g, b]
  | .rgba r g b a => [0xFF, r, g, b, a]
  | .header w h c cs => magic ++ be32 w ++ be32 h ++ [c, cs]
  | .trailer => trailerImage

/-- Where an item stands: found by position, never by dispatch between the three (R43). -/
inductive Place where
  | fileStart
  | body
  | fileEnd
deriving DecidableEq, Repr

/-- Byte `j` of a number whose bit 0 is the least significant bit of its first byte. -/
def byteOf (w j : Nat) : Byte := BitVec.ofNat 8 (w / 2 ^ (8 * j))

/-- The number whose every bit above `nbits` is 0. -/
def tableWord (nbits w : Nat) : Nat := w % 2 ^ nbits

/-- Which row of the table a word of `nbits` bits belongs to, by position: the HEADER row is numbered
as a big-endian 32-bit word and the TRAILER row as one big-endian number (log 16). -/
def tablePlace (nbits w : Nat) : Place :=
  if 32 ≤ nbits ∧ tableWord nbits w % 2 ^ 32 = 0x716F6966 then .fileStart
  else if 8 < nbits ∧ tableWord nbits w = 1 then .fileEnd
  else .body

/-- The bytes of a word of the table, in the order the file stores them (log 16). -/
def tableBytes (nbits w : Nat) : List Byte :=
  let v := tableWord nbits w
  match tablePlace nbits w with
  | .fileStart =>
      [byteOf v 3, byteOf v 2, byteOf v 1, byteOf v 0, byteOf v 4, byteOf v 5, byteOf v 6, byteOf v 7,
        byteOf v 8, byteOf v 9, byteOf v 10, byteOf v 11, byteOf v 12, byteOf v 13]
  | .body => [byteOf v 0, byteOf v 1, byteOf v 2, byteOf v 3, byteOf v 4]
  | .fileEnd =>
      [byteOf v 7, byteOf v 6, byteOf v 5, byteOf v 4, byteOf v 3, byteOf v 2, byteOf v 1, byteOf v 0]

/-- The item the decoder of the word's position reads from it. -/
def decodeTableWord (nbits w : Nat) : Option Instr :=
  match tablePlace nbits w with
  | .fileStart =>
      match decodeHeader (tableBytes nbits w) with
      | .ok i => some i
      | .error _ => none
  | .body =>
      match decodeRecord (tableBytes nbits w) with
      | .ok (i, _) => some i
      | .error _ => none
  | .fileEnd =>
      match decodeTrailer (tableBytes nbits w) with
      | .ok i => some i
      | .error _ => none

end Sys2Proof
end

