-- ==== Sys2Proof/Machine/State.lean ====
section
/-! DEFINITION. The state of the machine: the two engines of R13 with their registers and the spaces of
R27, and what says which of them moves next. -/

namespace Sys2Proof.Machine

/-- The two engines (R13). -/
inductive Engine where
  | enc
  | dec
deriving DecidableEq, Repr

/-- `ST` (R22). -/
inductive Status where
  | idle
  | header
  | body
  | trailer
  | done
  | error
deriving DecidableEq, Repr

/-- The seven error kinds (R97). -/
inductive ErrKind where
  | unsupportedChannelLayout
  | consistencyError
  | badMagic
  | badTrailer
  | truncatedStream
  | badHeader
  | malformedStream
deriving DecidableEq, Repr

/-- One space of R27: (address, byte) pairs, addresses strictly rising, no entry equal to what an
unlisted address reads as (log 4). -/
abbrev Memory := List Host.Cell

/-- The Image Descriptor registers `CFG` (R19, R20, R21). -/
structure Cfg where
  w : Word
  h : Word
  c : Byte
  cs : Byte
deriving DecidableEq, Repr

/-- The registers each engine has a private copy of (R13 to R17, R19 to R23). -/
structure Regs where
  prev : Pixel
  run : BitVec 6
  cache : Vector Pixel Config.cacheSlots
  pxi : Count
  cfg : Cfg
  st : Status
  err : BitVec 4
deriving DecidableEq, Repr

/-- A grid handed over on `pix_in`: the channel count of each of its pixels, in raster order, and
their bytes, byte `j` of pixel `k` at address `4*k + j` (R27, R29; log 5). -/
structure Grid where
  chans : List Nat
  mem : Memory
deriving DecidableEq, Repr

/-- The encoder with the container writer: `pix_in`, whether its pixels are handed over one by one during
the call (R117; log 10), `byte_out` and the number of bytes emitted so far (R18, R114). -/
structure Enc where
  regs : Regs
  pixIn : Grid
  streamed : Bool
  byteOut : Memory
  outLen : Nat
deriving DecidableEq, Repr

/-- The container reader with the decoder: `POS`, `file_in` with `len`, which entry the call used (R86),
whether its HEADER item is read (log 6), `desc_out` and `pix_out` (R114). -/
structure Dec where
  regs : Regs
  pos : Count
  fileIn : Memory
  len : Count
  bodyOnly : Bool
  headerRead : Bool
  descOut : Cfg
  pixOut : Memory
deriving DecidableEq, Repr

/-- What the host can do (R112 to R116, R86). A grid is a sequence of pixels, each the list of its
channels in canonical order; a file is a sequence of bytes. -/
inductive HostMove where
  /-- Hardware reset (R112). -/
  | reset
  /-- Write the descriptor of an engine (R19, R114 `cfg`). -/
  | writeCfg (e : Engine) (d : Cfg)
  /-- Start an encode call on a grid, all of it handed over at the start (R90, R113, R116). -/
  | startEnc (pixels : List (List Byte))
  /-- Start an encode call whose pixels are handed over one by one during it (R113, R117). -/
  | startStream
  /-- Hand over the next pixel of such a call (R117): of the four fields as many as the call has channels. -/
  | pixel (p : Pixel)
  /-- Start a decode call on a whole file (R91, R113). -/
  | startDec (file : List Byte)
  /-- Start a body-only decode under the descriptor written before (R86, R113). -/
  | startBody (body : List Byte)
deriving DecidableEq, Repr

/-- What one coming step is: a step of an engine, or a move of the host (log 1, log 9). -/
inductive Event where
  | run (e : Engine)
  | host (m : HostMove)
deriving DecidableEq, Repr

/-- The whole machine. -/
structure State where
  enc : Enc
  dec : Dec
  active : Engine
  agenda : List Event
deriving DecidableEq, Repr

/-- Reasons for which a step stops with a fault: none. Every error of the spec is one the machine takes
(R97, R106) and every step is defined (R84), so nothing raises a fault; safe. -/
inductive Fault where
deriving DecidableEq, Repr

/-- Reasons for which an instruction has no meaning. -/
inductive Refusal where
  /-- Raised by `exec` for an instruction with no meaning yet; no arm raises it; safe. -/
  | notModelled (mnemonic : String)
deriving DecidableEq, Repr

/-- The outcome of a step. -/
abbrev Result := Host.Outcome State Fault Refusal

/-- After hardware reset: `ST = IDLE` and `ERR = 0` (R26, R112); every other register is unspecified by
the spec and holds the value of log 2 (DESIGN CHOICE: 0). -/
def Regs.reset : Regs where
  prev := ⟨0, 0, 0, 0⟩
  run := 0
  cache := Vector.replicate Config.cacheSlots ⟨0, 0, 0, 0⟩
  pxi := 0
  cfg := ⟨0, 0, 0, 0⟩
  st := .idle
  err := 0

/-- The encoder after hardware reset; its ports hold no call's data (log 3). -/
def Enc.reset : Enc where
  regs := Regs.reset
  pixIn := ⟨[], []⟩
  streamed := false
  byteOut := []
  outLen := 0

/-- The decoder after hardware reset (log 2, log 3). -/
def Dec.reset : Dec where
  regs := Regs.reset
  pos := 0
  fileIn := []
  len := 0
  bodyOnly := false
  headerRead := false
  descOut := ⟨0, 0, 0, 0⟩
  pixOut := []

/-- The machine right after reset (R26, R112; log 2, log 3). -/
def State.reset : State where
  enc := Enc.reset
  dec := Dec.reset
  active := .dec
  agenda := []

end Sys2Proof.Machine
end

