-- ==== Sys2Proof/Machine/Flags.lean ====
section
/-! DEFINITION. The status and error values: the only flags of the hardware are `ST` and `ERR`, and no
record sets or reads one (R23). -/

namespace Sys2Proof.Machine

/-- The code `ERR` holds for an error kind (R97). -/
def ErrKind.code : ErrKind → BitVec 4
  | .unsupportedChannelLayout => 1
  | .consistencyError => 2
  | .badMagic => 3
  | .badTrailer => 4
  | .truncatedStream => 5
  | .badHeader => 6
  | .malformedStream => 7

/-- FormatError, as a class of kinds (R97, R98). -/
def ErrKind.isFormatError : ErrKind → Bool
  | .badMagic => true
  | .badTrailer => true
  | .truncatedStream => true
  | .badHeader => true
  | .malformedStream => true
  | .unsupportedChannelLayout => false
  | .consistencyError => false

/-- A call is in progress (R113). -/
def Status.inCall : Status → Bool
  | .header => true
  | .body => true
  | .trailer => true
  | .idle => false
  | .done => false
  | .error => false

/-- The channel counts the format has (R20). -/
def channelsLegal (c : Byte) : Bool := Config.channels.contains c

/-- The legal values of the four header fields (R32 "Values", R93). -/
def headerLegal (w h : Word) (c cs : Byte) : Bool :=
  w ≠ 0 && h ≠ 0 && channelsLegal c && (cs = 0 || cs = 1)

/-- A literal tag that does not match the channel count of the call (R82): `FE` needs 3 channels, `FF`
needs 4 (R76, R77; log 14). -/
def literalMismatch (tag c : Byte) : Bool :=
  (tag = 0xFE && c ≠ 3) || (tag = 0xFF && c ≠ 4)

end Sys2Proof.Machine
end

