-- ==== Sys2Proof/Machine/Operands.lean ====
section
/-! DEFINITION. Operand arithmetic: the hash, the encoder's deltas and range tests, the decoder's channel
reconstruction, and how a pixel crosses a port (R46, R54, R60 to R62, R79, R80, R126). -/

namespace Sys2Proof.Machine

/-- `Hash(p)`: exact products and sum, then modulo 64 (R46, R47). -/
def pixelHash (p : Pixel) : Slot :=
  Fin.ofNat Config.hashMod (p.r.toNat * Config.hashMulR + p.g.toNat * Config.hashMulG
    + p.b.toNat * Config.hashMulB + p.a.toNat * Config.hashMulA)

/-- Channel delta `new - old` of the encoder (R60): an integer difference, unless `ENC_DELTA_WRAP`. -/
def delta (new old : Byte) : Int :=
  if Config.encDeltaWrap then (new - old).toInt else (new.toNat : Int) - (old.toNat : Int)

/-- A delta DIFF can hold (R61). -/
def inDiff (d : Int) : Bool := Config.diffLo ≤ d && d ≤ Config.diffHi

/-- A green delta LUMA can hold (R62). -/
def inLumaDg (d : Int) : Bool := Config.lumaDgLo ≤ d && d ≤ Config.lumaDgHi

/-- A relative delta LUMA can hold (R62). -/
def inLumaRel (d : Int) : Bool := Config.lumaRelLo ≤ d && d ≤ Config.lumaRelHi

/-- Channel reconstruction `(old + d) mod 256` of the decoder (R79, R80, R126). -/
def addDelta (old : Byte) (d : Int) : Byte := BitVec.ofInt 8 ((old.toNat : Int) + d)

/-- The sum stays in 0..255, so nothing wraps. -/
def sumFits (old : Byte) (d : Int) : Bool := 0 ≤ (old.toNat : Int) + d && (old.toNat : Int) + d ≤ 255

/-- The pixel DIFF reconstructs from the previous one; alpha is inherited (R79). -/
def diffPixel (prev : Pixel) (dr dg db : Int) : Pixel :=
  ⟨addDelta prev.r dr, addDelta prev.g dg, addDelta prev.b db, prev.a⟩

/-- The pixel LUMA reconstructs from the previous one: `dr = dr_dg + dg`, `db = db_dg + dg` (R80). -/
def lumaPixel (prev : Pixel) (dg drDg dbDg : Int) : Pixel :=
  ⟨addDelta prev.r (drDg + dg), addDelta prev.g dg, addDelta prev.b (dbDg + dg), prev.a⟩

/-- What a decoded DIFF may do: always add modulo 256, unless `DEC_DIFF_WRAP` is off and a sum leaves
0..255 (R8, R79, decision D9). -/
def diffAllowed (prev : Pixel) (dr dg db : Int) : Bool :=
  Config.decDiffWrap || (sumFits prev.r dr && sumFits prev.g dg && sumFits prev.b db)

/-- A pixel on a port: `C` bytes in canonical order (R29, R73). -/
def channelBytes (c : Byte) (p : Pixel) : List Byte :=
  if c = 3 then [p.r, p.g, p.b] else [p.r, p.g, p.b, p.a]

/-- The four-field value of a pixel read from `pix_in`: alpha is `HASH_A3` for 3 channels (R54). -/
def canonical (c : Byte) (r g b a : Byte) : Pixel :=
  ⟨r, g, b, if c = 3 then Config.hashA3 else a⟩

end Sys2Proof.Machine
end

