-- ==== Sys2Proof/Machine/Ops.lean ====
section
/-! DEFINITION. The named operations over memory and registers that the meanings share: bytes of a space,
the cache update, emitting bytes, producing a cell, taking an error, starting a call. -/

namespace Sys2Proof.Machine

/-! ### Memory (R27; log 4) -/

/-- What an address that is not listed reads as (log 4). -/
def Memory.background : Byte := 0

/-- One byte of a space. -/
def Memory.read : Memory → Nat → Byte
  | [], _ => Memory.background
  | (k, v) :: m, a => if k = a then v else Memory.read m a

/-- The space without address `a`. -/
def Memory.erase : Memory → Nat → Memory
  | [], _ => []
  | (k, w) :: m, a => if k = a then Memory.erase m a else (k, w) :: Memory.erase m a

/-- List a byte before the first higher address. -/
def Memory.insert : Memory → Nat → Byte → Memory
  | [], a, v => [(a, v)]
  | (k, w) :: m, a, v => if a < k then (a, v) :: (k, w) :: m else (k, w) :: Memory.insert m a v

/-- Store one byte, keeping the canonical form: the background is not listed. -/
def Memory.write (m : Memory) (a : Nat) (v : Byte) : Memory :=
  if v = Memory.background then m.erase a else (m.erase a).insert a v

/-- Store bytes at `a`, `a + 1`, .... -/
def Memory.writeBytes : Memory → Nat → List Byte → Memory
  | m, _, [] => m
  | m, a, v :: vs => Memory.writeBytes (Memory.write m a v) (a + 1) vs

/-- The `n` bytes at `a .. a + n - 1`. -/
def Memory.readBytes (m : Memory) : Nat → Nat → List Byte
  | _, 0 => []
  | a, n + 1 => m.read a :: Memory.readBytes m (a + 1) n

/-- The space that holds the bytes from address 0 on. -/
def Memory.ofBytes (bs : List Byte) : Memory := Memory.writeBytes [] 0 bs

/-- Every listed address is above `lo` and the listing rises strictly, with no entry equal to the
background. -/
def Memory.wfAbove : Nat → Memory → Bool
  | _, [] => true
  | lo, (k, v) :: m => decide (lo ≤ k) && decide (v ≠ Memory.background) && Memory.wfAbove (k + 1) m

/-- The canonical form. -/
def Memory.wf (m : Memory) : Bool := Memory.wfAbove 0 m

/-- The address of pixel `k` in a Grid space (log 5). -/
def pixelAddr (k : Nat) : Nat := 4 * k

/-- Store pixels one after the other from pixel `k` on. -/
def Memory.writePixels : Memory → Nat → List (List Byte) → Memory
  | m, _, [] => m
  | m, k, p :: ps => Memory.writePixels (Memory.writeBytes m (pixelAddr k) (p.take 4)) (k + 1) ps

/-- The grid a host hands over (R114 `pix_in`; log 5). -/
def Grid.ofPixels (ps : List (List Byte)) : Grid :=
  ⟨ps.map List.length, Memory.writePixels [] 0 ps⟩

/-- The grid with one more pixel, the list of its channels, handed over (R117; log 5). -/
def Grid.append (g : Grid) (p : List Byte) : Grid :=
  ⟨g.chans ++ [p.length], g.mem.writePixels g.chans.length [p]⟩

/-! ### Registers -/

/-- `N = W * H`, without overflow in 64 bits (R17). -/
def Cfg.n (d : Cfg) : Count := d.w.setWidth 64 * d.h.setWidth 64

/-- `Update(p)`: `CACHE[Hash(p)] <- p` (R48). -/
def Regs.update (r : Regs) (p : Pixel) : Regs := { r with cache := r.cache.set (pixelHash p) p }

/-- `PREV <- p`. -/
def Regs.setPrev (r : Regs) (p : Pixel) : Regs := { r with prev := p }

/-- `PXI <- PXI + 1` (R17). -/
def Regs.nextPixel (r : Regs) : Regs := { r with pxi := r.pxi + 1 }

/-- `RUN <- v`. -/
def Regs.setRun (r : Regs) (v : BitVec 6) : Regs := { r with run := v }

/-- `ST <- v`. -/
def Regs.setSt (r : Regs) (v : Status) : Regs := { r with st := v }

/-- `CFG <- d`. -/
def Regs.setCfg (r : Regs) (d : Cfg) : Regs := { r with cfg := d }

/-! ### Errors and calls -/

/-- Error entry on an engine's registers: `ERR <- code(K)`, `ST <- ERROR`, nothing else (R106). -/
def Regs.raise (k : ErrKind) (r : Regs) : Regs := { r with st := .error, err := k.code }

/-- Taking an error: the active engine ends its call with kind `k`; the raising step's other updates are
not kept, and no register is saved (R106). -/
def State.raise (k : ErrKind) (s : State) : State :=
  match s.active with
  | .enc => { s with enc := { s.enc with regs := s.enc.regs.raise k } }
  | .dec => { s with dec := { s.dec with regs := s.dec.regs.raise k } }

/-- Leaving ERROR (there is no return from an error, R107): a start sets the registers to the values of
R26 and R113, whatever they were, but for `CFG`. -/
def Regs.start (r : Regs) : Regs where
  prev := Config.prevInit
  run := 0
  cache := Vector.replicate Config.cacheSlots Config.cacheInit
  pxi := 0
  cfg := r.cfg
  st := .header
  err := 0

/-- Accepted start of an encode call on a grid, or (streamed) on the pixels that follow (R113, R117). -/
def Enc.start (e : Enc) (streamed : Bool) (g : Grid) : Enc where
  regs := e.regs.start
  pixIn := g
  streamed := streamed
  byteOut := []
  outLen := 0

/-- Accepted start of a decode call on `bs`, the whole file or (body-only) the whole body (R86, R113). -/
def Dec.start (d : Dec) (bodyOnly : Bool) (bs : List Byte) : Dec where
  regs := d.regs.start
  pos := 0
  fileIn := Memory.ofBytes bs
  len := BitVec.ofNat 64 bs.length
  bodyOnly := bodyOnly
  headerRead := false
  descOut := ⟨0, 0, 0, 0⟩
  pixOut := []

/-! ### Encoder operations -/

/-- `Emit(b0, b1, ...)`: append bytes to the output, in order (R11, R129). -/
def Enc.emit (e : Enc) (bs : List Byte) : Enc :=
  { e with byteOut := e.byteOut.writeBytes e.outLen bs, outLen := e.outLen + bs.length }

/-- `canonical(Grid(PXI))`, if the host has delivered that pixel (R54, R117). -/
def Enc.pixel (e : Enc) : Option Pixel :=
  let k := e.regs.pxi.toNat
  if k < e.pixIn.chans.length then
    some (canonical e.regs.cfg.c (e.pixIn.mem.read (pixelAddr k)) (e.pixIn.mem.read (pixelAddr k + 1))
      (e.pixIn.mem.read (pixelAddr k + 2)) (e.pixIn.mem.read (pixelAddr k + 3)))
  else none

/-- `PixIn(p)`: the host hands over the next pixel of a streamed call. The engine counts the pixels, so what
comes after the last one has no effect (R117; log 10). -/
def Enc.deliver (e : Enc) (p : Pixel) : Enc :=
  if e.regs.st.inCall && e.streamed && decide (e.pixIn.chans.length < e.regs.cfg.n.toNat) then
    { e with pixIn := e.pixIn.append (channelBytes e.regs.cfg.c p) }
  else e

/-- The grid holds exactly `W*H` pixels of `C` channels each (R90 check 3). -/
def Enc.gridFits (e : Enc) : Bool :=
  e.pixIn.chans.length = e.regs.cfg.n.toNat && e.pixIn.chans.all (fun c => c = e.regs.cfg.c.toNat)

/-- Emit a record for pixel `p`, with the cache update where the operator has one, then `PREV <- p` and
`PXI <- PXI + 1` (R49, R56). -/
def Enc.record (i : Instr) (updates : Bool) (p : Pixel) (e : Enc) : Enc :=
  let r := if updates then e.regs.update p else e.regs
  ({ e with regs := (r.setPrev p).nextPixel }).emit (encode i)

/-- A record of the pixel at `PXI`; the encoder waits, unchanged, for a pixel the host has not delivered
(R117, U5; log 10). -/
def Enc.recordPixel (i : Instr) (updates : Bool) (e : Enc) : Enc :=
  match e.pixel with
  | some p => e.record i updates p
  | none => e

/-! ### Decoder operations -/

/-- Where the body stands in `file_in`: after the header, or at 0 for the body-only entry (R32, R86). -/
def Dec.bodyOff (d : Dec) : Nat := if d.bodyOnly then 0 else Config.headerBytes

/-- `BL` (R27, R86, R95). -/
def Dec.bodyLen (d : Dec) : Nat :=
  if d.bodyOnly then d.len.toNat else d.len.toNat - (Config.headerBytes + Config.trailerBytes)

/-- The address in `file_in` of the next tag byte. -/
def Dec.fetchAddr (d : Dec) : Nat := d.bodyOff + d.pos.toNat

/-- The bytes a record at `POS` may use: those of the body from `POS` on, at most the 5 of the longest
record (R41, R74). -/
def Dec.fetchRecord (d : Dec) : List Byte :=
  d.fileIn.readBytes d.fetchAddr (min 5 (d.bodyLen - d.pos.toNat))

/-- The bytes of the HEADER item, as many as the file has (R91). -/
def Dec.fetchHeader (d : Dec) : List Byte :=
  d.fileIn.readBytes 0 (min Config.headerBytes d.len.toNat)

/-- The last 8 bytes of the file (R94). -/
def Dec.fetchTrailer (d : Dec) : List Byte :=
  d.fileIn.readBytes (d.len.toNat - Config.trailerBytes) Config.trailerBytes

/-- `POS <- POS + n` (R18). -/
def Dec.advance (d : Dec) (n : Nat) : Dec := { d with pos := d.pos + BitVec.ofNat 64 n }

/-- The address a cell is written to: that of cell `PXI` (R129). -/
def Dec.cellAddr (d : Dec) : Nat := pixelAddr d.regs.pxi.toNat

/-- `PixOut(p); PXI <- PXI + 1` (R73). -/
def Dec.produce (d : Dec) (p : Pixel) : Dec :=
  { d with
    pixOut := d.pixOut.writeBytes d.cellAddr (channelBytes d.regs.cfg.c p)
    regs := d.regs.nextPixel }

/-- `Update(p); PREV <- p; POS <- POS + n`, then the cell: the shape of RGB, RGBA, DIFF and LUMA. -/
def Dec.newPixel (d : Dec) (n : Nat) (p : Pixel) : Dec :=
  (({ d with regs := (d.regs.update p).setPrev p }).advance n).produce p

/-- A cell of an open run: `p <- PREV; RUN <- RUN - 1; Update(PREV)` (R75). -/
def Dec.continueRun (d : Dec) : Dec :=
  ({ d with regs := (d.regs.setRun (d.regs.run - 1)).update d.regs.prev }).produce d.regs.prev

/-- The error a failed decode raises in a call of `c` channels: a literal tag that does not match comes
before the length of its record (R74, R82, R91). -/
def errorOf (c : Byte) : DecodeError → ErrKind
  | .noTag => .truncatedStream
  | .shortRecord t => if literalMismatch t c then .malformedStream else .truncatedStream
  | .shortHeader => .truncatedStream
  | .notMagic => .badMagic
  | .shortTrailer => .truncatedStream
  | .notTrailer => .badTrailer

/-! ### Acting on one engine of the state -/

/-- The encoder acts; the decoder is not touched (R13). -/
def State.encNext (f : Enc → Enc) (s : State) : Result := .next { s with enc := f s.enc }

/-- The decoder acts; the encoder is not touched (R13). -/
def State.decNext (f : Dec → Dec) (s : State) : Result := .next { s with dec := f s.dec }

/-- One action, then another on the state it leaves. -/
def andThen (x : Result) (f : State → Result) : Result :=
  match x with
  | .next s => f s
  | .fault r => .fault r
  | .refused r => .refused r

end Sys2Proof.Machine
end

