-- ==== Sys2Proof/Machine/Container.lean ====
section
/-! DEFINITION. The two container items, each on the engine that acts: the encoder writes it, the decoder
reads it (43_container.md). -/

namespace Sys2Proof.Machine

/-- HEADER: written by the encoder, which goes on to the body (R88); read by the decoder, which checks the
four fields and loads `CFG` and with it `desc_out` (R114), or raises `BadHeader` (R93). The trailer is checked
next (R91; log 6). -/
def execHeader (w h : Word) (c cs : Byte) (s : State) : Result :=
  match s.active with
  | .enc => s.encNext (fun e => ({ e with regs := e.regs.setSt .body }).emit (encode (.header w h c cs)))
  | .dec =>
    if headerLegal w h c cs then
      s.decNext (fun d => { d with
        regs := d.regs.setCfg ⟨w, h, c, cs⟩, headerRead := true, descOut := ⟨w, h, c, cs⟩ })
    else .next (s.raise .badHeader)

/-- TRAILER: written by the encoder, whose call is then done (R89); read by the decoder, whose body phase
then begins (R91 checks 5 and 6, R94). -/
def execTrailer (s : State) : Result :=
  match s.active with
  | .enc => s.encNext (fun e => ({ e with regs := e.regs.setSt .done }).emit (encode .trailer))
  | .dec => s.decNext (fun d => { d with regs := d.regs.setSt .body })

end Sys2Proof.Machine
end

