-- ==== Sys2Proof/Machine/Records.lean ====
section
/-! DEFINITION. The six records of the body, each on the engine that acts: the decoder executes it, the
encoder emits it (41_encoder.md, 42_decoder.md). -/

namespace Sys2Proof.Machine

/-- INDEX (R59, R78): neither engine writes the cache. -/
def execIndex (i : Slot) (s : State) : Result :=
  match s.active with
  | .enc => s.encNext (fun e => e.recordPixel (.index i) false)
  | .dec => s.decNext (fun d =>
      (({ d with regs := d.regs.setPrev d.regs.cache[i] }).advance 1).produce d.regs.cache[i])

/-- DIFF (R61, R79). -/
def execDiff (dr dg db : Int) (s : State) : Result :=
  match s.active with
  | .enc => s.encNext (fun e => e.recordPixel (.diff dr dg db) true)
  | .dec =>
    if diffAllowed s.dec.regs.prev dr dg db then
      s.decNext (fun d => d.newPixel 1 (diffPixel d.regs.prev dr dg db))
    else .next (s.raise .malformedStream)

/-- LUMA (R62, R80). -/
def execLuma (dg drDg dbDg : Int) (s : State) : Result :=
  match s.active with
  | .enc => s.encNext (fun e => e.recordPixel (.luma dg drDg dbDg) true)
  | .dec => s.decNext (fun d => d.newPixel 2 (lumaPixel d.regs.prev dg drDg dbDg))

/-- RUN: the encoder's flush (R58), which consumes no pixel; the decoder's first cell (R81), which does
not write the cache. -/
def execRun (n : Nat) (s : State) : Result :=
  match s.active with
  | .enc => s.encNext (fun e => ({ e with regs := e.regs.setRun 0 }).emit (encode (.run n)))
  | .dec => s.decNext (fun d =>
      (({ d with regs := d.regs.setRun (BitVec.ofNat 6 (n - 1)) }).advance 1).produce d.regs.prev)

/-- RGB (R63, R76); in a decode call without 3 channels `MalformedStream` (R82). -/
def execRgb (r g b : Byte) (s : State) : Result :=
  match s.active with
  | .enc => s.encNext (fun e => e.recordPixel (.rgb r g b) true)
  | .dec =>
    if literalMismatch 0xFE s.dec.regs.cfg.c then .next (s.raise .malformedStream)
    else s.decNext (fun d => d.newPixel 4 ⟨r, g, b, Config.hashA3⟩)

/-- RGBA (R64, R77); in a decode call without 4 channels `MalformedStream` (R82). -/
def execRgba (r g b a : Byte) (s : State) : Result :=
  match s.active with
  | .enc => s.encNext (fun e => e.recordPixel (.rgba r g b a) true)
  | .dec =>
    if literalMismatch 0xFF s.dec.regs.cfg.c then .next (s.raise .malformedStream)
    else s.decNext (fun d => d.newPixel 5 ⟨r, g, b, a⟩)

end Sys2Proof.Machine
end

