-- ==== Sys2Proof/Machine/Engines.lean ====
section
/-! DEFINITION. What one step of an engine is (R56, R65, R73, R83, R90, R91, R86), what a move of the host
does (R112, R113), and what the host reads of a call (R106, R115, R121). -/

namespace Sys2Proof.Machine

/-! ### The encoder -/

/-- The record of a pixel that is not a run pixel, by the priority chain index, small diff, luma diff,
literal (R56, R59 to R64). -/
def selectRecord (p : Pixel) (r : Regs) : Instr :=
  if r.cache[pixelHash p] = p then .index (pixelHash p)
  else if p.a = r.prev.a ∧ inDiff (delta p.r r.prev.r) ∧ inDiff (delta p.g r.prev.g)
      ∧ inDiff (delta p.b r.prev.b) then
    .diff (delta p.r r.prev.r) (delta p.g r.prev.g) (delta p.b r.prev.b)
  else if p.a = r.prev.a ∧ inLumaDg (delta p.g r.prev.g)
      ∧ inLumaRel (delta p.r r.prev.r - delta p.g r.prev.g)
      ∧ inLumaRel (delta p.b r.prev.b - delta p.g r.prev.g) then
    .luma (delta p.g r.prev.g) (delta p.r r.prev.r - delta p.g r.prev.g)
      (delta p.b r.prev.b - delta p.g r.prev.g)
  else if r.cfg.c = 3 then .rgb p.r p.g p.b
  else .rgba p.r p.g p.b p.a

/-- RUN (absorb): the pixel joins the open run; nothing is emitted (R57). -/
def absorb (s : State) : Result :=
  s.encNext (fun e => { e with regs := (e.regs.setRun (e.regs.run + 1)).nextPixel })

/-- The step of one pixel `p` (R56), with the flushes of R58 (a) and (b). -/
def encPixelStep (p : Pixel) (s : State) : Result :=
  if p = s.enc.regs.prev then
    if s.enc.regs.run.toNat = Config.runMax then andThen (exec (.run s.enc.regs.run.toNat) s) absorb
    else absorb s
  else if s.enc.regs.run ≠ 0 then
    andThen (exec (.run s.enc.regs.run.toNat) s) (exec (selectRecord p s.enc.regs))
  else exec (selectRecord p s.enc.regs) s

/-- End of scan: the open run is flushed (R58 (c)), then `ST <- TRAILER` (R65). -/
def endOfScan (s : State) : Result :=
  andThen (if s.enc.regs.run ≠ 0 then exec (.run s.enc.regs.run.toNat) s else .next s)
    (fun t => t.encNext (fun e => { e with regs := e.regs.setSt .trailer }))

/-- The checks of an encode call, the first that fails, in the order of R90. A counted stream of pixels
cannot fail the last one (R100; log 10). -/
def Enc.check (e : Enc) : Option ErrKind :=
  if channelsLegal e.regs.cfg.c = false then some .unsupportedChannelLayout
  else if e.regs.cfg.w = 0 ∨ e.regs.cfg.h = 0 then some .consistencyError
  else if e.streamed = false ∧ e.gridFits = false then some .consistencyError
  else none

/-- One step of the encoder. Outside a call it does nothing (R22; log 22). -/
def encStep (s : State) : Result :=
  match s.enc.regs.st with
  | .idle => .next s
  | .header =>
    match s.enc.check with
    | some k => .next (s.raise k)
    | none => exec (.header s.enc.regs.cfg.w s.enc.regs.cfg.h s.enc.regs.cfg.c s.enc.regs.cfg.cs) s
  | .body =>
    if s.enc.regs.pxi = s.enc.regs.cfg.n then endOfScan s
    else
      match s.enc.pixel with
      | some p => encPixelStep p s
      | none => .next s
  | .trailer => exec .trailer s
  | .done => .next s
  | .error => .next s

/-! ### The decoder -/

/-- Execute what a decoder found, or raise the error it stands for. -/
def execOrRaise (x : Except DecodeError Instr) (s : State) : Result :=
  match x with
  | .ok i => exec i s
  | .error e => .next (s.raise (errorOf s.dec.regs.cfg.c e))

/-- The record the next body step executes. -/
def Dec.nextRecord (d : Dec) : Except DecodeError Instr :=
  match decodeRecord d.fetchRecord with
  | .ok (i, _) => .ok i
  | .error e => .error e

/-- The TRAILER item, if the file has room for one after the header (R91 checks 4 and 5). -/
def Dec.nextTrailer (d : Dec) : Except DecodeError Instr :=
  if d.len.toNat < Config.headerBytes + Config.trailerBytes then .error .shortTrailer
  else decodeTrailer d.fetchTrailer

/-- The checks of the body-only entry, as `ENC` makes them (R86). -/
def Dec.checkBodyOnly (d : Dec) : Option ErrKind :=
  if channelsLegal d.regs.cfg.c = false then some .unsupportedChannelLayout
  else if d.regs.cfg.w = 0 ∨ d.regs.cfg.h = 0 then some .consistencyError
  else none

/-- The unwrapping of a container: HEADER first, then TRAILER (R91 checks 1 to 5), or the checks of the
body-only entry (R86), whose descriptor is the one supplied (log 17). -/
def decHeaderStep (s : State) : Result :=
  if s.dec.bodyOnly then
    match s.dec.checkBodyOnly with
    | some k => .next (s.raise k)
    | none => s.decNext (fun d => { d with regs := d.regs.setSt .body, descOut := d.regs.cfg })
  else if s.dec.headerRead then execOrRaise s.dec.nextTrailer s
  else execOrRaise (decodeHeader s.dec.fetchHeader) s

/-- One cell (R73), or the end of the body phase when `PXI = N` (R83). -/
def decBodyStep (s : State) : Result :=
  if s.dec.regs.pxi = s.dec.regs.cfg.n then
    s.decNext (fun d => { d with regs := d.regs.setSt .trailer })
  else if s.dec.regs.run ≠ 0 then s.decNext Dec.continueRun
  else execOrRaise s.dec.nextRecord s

/-- One step of the decoder. Outside a call it does nothing. The trailer was checked before the body
(R91), so the TRAILER status only passes to DONE (R22, R115; log 6). -/
def decStep (s : State) : Result :=
  match s.dec.regs.st with
  | .idle => .next s
  | .header => decHeaderStep s
  | .body => decBodyStep s
  | .trailer => s.decNext (fun d => { d with regs := d.regs.setSt .done })
  | .done => .next s
  | .error => .next s

/-- One step of the active engine. -/
def engineStep (s : State) : Result :=
  match s.active with
  | .enc => encStep s
  | .dec => decStep s

/-! ### The host -/

/-- A sequence whose length fits the 64-bit `len` (R8, R114; log 18). -/
def fitsLen (bs : List Byte) : Bool := bs.length < 2 ^ Config.countBits

/-- A move of the host. A descriptor is read-only during a call (R19), and a start during a call has no
effect (R113; log 9). -/
def hostMove (m : HostMove) (s : State) : State :=
  match m with
  | .reset => { s with enc := Enc.reset, dec := Dec.reset }
  | .writeCfg .enc d =>
    if s.enc.regs.st.inCall then s
    else { s with enc := { s.enc with regs := s.enc.regs.setCfg d } }
  | .writeCfg .dec d =>
    if s.dec.regs.st.inCall then s
    else { s with dec := { s.dec with regs := s.dec.regs.setCfg d } }
  | .startEnc ps =>
    if s.enc.regs.st.inCall then s else { s with enc := s.enc.start false (Grid.ofPixels ps) }
  | .startStream =>
    if s.enc.regs.st.inCall then s else { s with enc := s.enc.start true ⟨[], []⟩ }
  | .pixel p => { s with enc := s.enc.deliver p }
  | .startDec bs =>
    if s.dec.regs.st.inCall || fitsLen bs = false then s else { s with dec := s.dec.start false bs }
  | .startBody bs =>
    if s.dec.regs.st.inCall || fitsLen bs = false then s else { s with dec := s.dec.start true bs }

/-- Which engine moves when the agenda says nothing: the active one while its call is in progress, else
the other one if its call is (log 1). -/
def State.nextEngine (s : State) : Engine :=
  match s.active with
  | .enc => if s.enc.regs.st.inCall then .enc else if s.dec.regs.st.inCall then .dec else .enc
  | .dec => if s.dec.regs.st.inCall then .dec else if s.enc.regs.st.inCall then .enc else .dec

/-! ### What the host reads -/

/-- The result of a call: never both an output and an error, and nothing before the end (R106, R121). -/
inductive CallResult (α : Type) where
  | pending
  | ok (output : α)
  | failed (code : BitVec 4)
deriving DecidableEq, Repr

/-- The file an encode call returns (R90, R115). -/
def Enc.result (e : Enc) : CallResult (List Byte) :=
  match e.regs.st with
  | .done => .ok (e.byteOut.readBytes 0 e.outLen)
  | .error => .failed e.regs.err
  | .idle => .pending
  | .header => .pending
  | .body => .pending
  | .trailer => .pending

/-- `n` cells of `c` channels from cell `k` on. -/
def Memory.readPixels (m : Memory) (c : Nat) : Nat → Nat → List (List Byte)
  | _, 0 => []
  | k, n + 1 => m.readBytes (pixelAddr k) c :: Memory.readPixels m c (k + 1) n

/-- The descriptor and the grid a decode call returns: what `desc_out` and `pix_out` carry (R91, R114,
R115). -/
def Dec.result (d : Dec) : CallResult (Cfg × List (List Byte)) :=
  match d.regs.st with
  | .done => .ok (d.descOut, d.pixOut.readPixels d.descOut.c.toNat 0 d.descOut.n.toNat)
  | .error => .failed d.regs.err
  | .idle => .pending
  | .header => .pending
  | .body => .pending
  | .trailer => .pending

end Sys2Proof.Machine
end

