-- ==== Sys2Proof/Machine/Step.lean ====
section
/-! DEFINITION. One step of the machine, and how the host places an instruction where the next step
fetches it. -/

namespace Sys2Proof.Machine

/-- One step: the next event of the agenda, or, when it says nothing, a step of an engine that is in a
call (log 1). -/
def step (s : State) : Host.Outcome State Fault Refusal :=
  match s.agenda with
  | [] => engineStep { s with active := s.nextEngine }
  | .run e :: rest => engineStep { s with active := e, agenda := rest }
  | .host m :: rest => .next (hostMove m { s with agenda := rest })

/-- A record of the body, placed at `POS = 0` of a decode call of one pixel whose body phase has begun,
under the channel count its tag needs (log 8). -/
def Dec.withRecord (d : Dec) (bs : List Byte) : Dec :=
  { d with
    regs := { d.regs with
      st := .body, run := 0, pxi := 0
      cfg := ⟨1, 1, if bs.getD 0 0 = 0xFF then 4 else 3, d.regs.cfg.cs⟩ }
    pos := 0
    fileIn := d.fileIn.writeBytes d.bodyOff bs
    len := BitVec.ofNat 64 (max d.len.toNat (Config.headerBytes + bs.length + Config.trailerBytes)) }

/-- A HEADER item, placed at file offset 0 of a decode call that has just started (log 8). -/
def Dec.withHeader (d : Dec) (bs : List Byte) : Dec :=
  { d with
    regs := { d.regs with st := .header }
    fileIn := d.fileIn.writeBytes 0 bs
    len := BitVec.ofNat 64 (max d.len.toNat bs.length)
    bodyOnly := false
    headerRead := false }

/-- A TRAILER item, placed in the last 8 bytes of a file whose HEADER item has been read (log 8). -/
def Dec.withTrailer (d : Dec) (bs : List Byte) : Dec :=
  let n := max d.len.toNat (Config.headerBytes + bs.length)
  { d with
    regs := { d.regs with st := .header }
    fileIn := d.fileIn.writeBytes (n - bs.length) bs
    len := BitVec.ofNat 64 n
    bodyOnly := false
    headerRead := true }

/-- The state whose very next step fetches and runs the word of spec/opcode_table.json (log 8, log 16). -/
def State.withFetchWord (s : State) (nbits w : Nat) : State :=
  { s with
    active := .dec
    agenda := []
    dec :=
      match tablePlace nbits w with
      | .fileStart => s.dec.withHeader (tableBytes nbits w)
      | .body => s.dec.withRecord (tableBytes nbits w)
      | .fileEnd => s.dec.withTrailer (tableBytes nbits w) }

end Sys2Proof.Machine
end

