-- ==== Sys2Proof/Safety.lean ====
section
/-! DEFINITION. The terms claims are stated in: the invariant of the machine, when an engine is ready for a
pixel or a record, and what a step of an engine changes, with its frame. -/

namespace Sys2Proof.Machine

/-! ### The invariant -/

/-- `ERR` is 0 except in ERROR (R23, R106). -/
def Regs.errAgrees (r : Regs) : Prop := r.st = .error ↔ r.err ≠ 0

/-- `PREV`, `CACHE`, `RUN` and `PXI` hold the values of a start (R26). -/
def Regs.fresh (r : Regs) : Prop :=
  r.prev = ⟨0, 0, 0, 255⟩ ∧ r.cache = Vector.replicate Config.cacheSlots ⟨0, 0, 0, 255⟩ ∧ r.run = 0 ∧ r.pxi = 0

/-- The descriptor of a body phase: 3 or 4 channels, no dimension zero (R19, R20). -/
def Cfg.legal (d : Cfg) : Prop := (d.c = 3 ∨ d.c = 4) ∧ d.w ≠ 0 ∧ d.h ≠ 0

/-- In a 3-channel call the alpha field of every pixel register is 255 (R14, R16). -/
def Regs.alphaFixed (r : Regs) : Prop :=
  r.cfg.c = 3 → r.prev.a = 255 ∧ ∀ i : Slot, r.cache[i].a = 255

/-- The previous pixel stands in its own cache slot (R51). -/
def Regs.lockStep (r : Regs) : Prop := r.cache[pixelHash r.prev] = r.prev

/-- `pix_in` holds at most `N` pixels, each of `C` channels. -/
def Enc.counted (e : Enc) : Prop :=
  e.pixIn.chans.length ≤ e.regs.cfg.n.toNat ∧ ∀ k ∈ e.pixIn.chans, k = e.regs.cfg.c.toNat

/-- What holds of an encoder during the scan and up to the trailer: a whole grid holds all `N` pixels, and no
pixel is consumed before it is handed over (R90, R117). -/
def Enc.scanning (e : Enc) : Prop :=
  e.regs.cfg.legal ∧ e.counted ∧ (e.streamed = false → e.pixIn.chans.length = e.regs.cfg.n.toNat)
    ∧ e.regs.run.toNat ≤ 62 ∧ e.regs.run.toNat ≤ e.regs.pxi.toNat
    ∧ e.regs.pxi.toNat ≤ e.pixIn.chans.length ∧ e.regs.lockStep ∧ e.regs.alphaFixed

/-- The size bounds of R70 at any moment of a scan: at most `C + 1` bytes for each pixel that is not held
back in the open run, and at least one for every 62. -/
def Enc.sizeBounds (e : Enc) : Prop :=
  14 ≤ e.outLen
    ∧ e.outLen - 14 + (if e.regs.run = 0 then 0 else 1) ≤ e.regs.pxi.toNat * (e.regs.cfg.c.toNat + 1)
    ∧ e.regs.pxi.toNat ≤ 62 * (e.outLen - 14) + e.regs.run.toNat

/-- The encoder's invariant. -/
def Enc.inv (e : Enc) : Prop :=
  e.pixIn.mem.wf = true ∧ e.byteOut.wf = true ∧ e.regs.errAgrees
    ∧ (e.regs.st = .header → e.regs.fresh ∧ e.outLen = 0 ∧ (e.streamed = true → e.regs.cfg.legal → e.counted))
    ∧ (e.regs.st = .body → e.scanning ∧ e.sizeBounds)
    ∧ (e.regs.st = .trailer → e.scanning ∧ e.sizeBounds ∧ e.regs.run = 0 ∧ e.regs.pxi = e.regs.cfg.n)

/-- What holds of a decoder while it produces cells and until its call is done. -/
def Dec.producing (d : Dec) : Prop :=
  d.regs.cfg.legal ∧ d.descOut = d.regs.cfg ∧ d.regs.run.toNat ≤ 61 ∧ d.regs.pxi ≤ d.regs.cfg.n ∧ d.pos.toNat ≤ d.bodyLen
    ∧ d.regs.alphaFixed ∧ (d.bodyOnly = false → 22 ≤ d.len.toNat)

/-- The decoder's invariant. -/
def Dec.inv (d : Dec) : Prop :=
  d.fileIn.wf = true ∧ d.pixOut.wf = true ∧ d.regs.errAgrees
    ∧ (d.regs.st = .header → d.regs.fresh ∧ d.pos = 0
        ∧ (d.headerRead = true → d.regs.cfg.legal ∧ d.descOut = d.regs.cfg ∧ 14 ≤ d.len.toNat))
    ∧ (d.regs.st = .body → d.producing)
    ∧ (d.regs.st = .trailer → d.producing ∧ d.regs.pxi = d.regs.cfg.n)

/-- The invariant of the machine. -/
def State.inv (s : State) : Prop := s.enc.inv ∧ s.dec.inv

/-! ### Effects and frames -/

/-- `m'` is `m` with the bytes `bs` stored from address `a` on, and every other byte as before. -/
def stores (m m' : Memory) (a : Nat) (bs : List Byte) : Prop :=
  ∀ x, m'.read x = if a ≤ x ∧ x < a + bs.length then bs.getD (x - a) 0 else m.read x

/-- `CACHE[slot] <- p` where `updates`, every other slot as before. -/
def cacheAfter (r r' : Regs) (updates : Bool) (p : Pixel) : Prop :=
  ∀ j : Slot, r'.cache[j] = if updates = true ∧ j = pixelHash p then p else r.cache[j]

/-- The control registers, which no record writes (R130). -/
def sameControl (r r' : Regs) : Prop := r'.cfg = r.cfg ∧ r'.st = r.st ∧ r'.err = r.err

/-- The decoder produced cell `PXI` with value `p`, consumed `n` bytes, left `run` in `RUN`, and wrote the
cache where `updates`; nothing else changed. -/
def decEffect (s t : State) (p : Pixel) (n : Nat) (run : BitVec 6) (updates : Bool) : Prop :=
  t.enc = s.enc ∧ t.active = s.active ∧ t.agenda = s.agenda
    ∧ t.dec.regs.prev = p ∧ cacheAfter s.dec.regs t.dec.regs updates p ∧ t.dec.regs.run = run
    ∧ t.dec.regs.pxi = s.dec.regs.pxi + 1 ∧ sameControl s.dec.regs t.dec.regs
    ∧ t.dec.pos = s.dec.pos + BitVec.ofNat 64 n
    ∧ t.dec.fileIn = s.dec.fileIn ∧ t.dec.len = s.dec.len
    ∧ t.dec.bodyOnly = s.dec.bodyOnly ∧ t.dec.headerRead = s.dec.headerRead ∧ t.dec.descOut = s.dec.descOut
    ∧ stores s.dec.pixOut t.dec.pixOut s.dec.cellAddr (channelBytes s.dec.regs.cfg.c p)

/-- The encoder consumed pixel `p`, appended `bs` to its output, left `run` in `RUN`, and wrote the cache
where `updates`; nothing else changed. -/
def encEffect (s t : State) (p : Pixel) (bs : List Byte) (run : BitVec 6) (updates : Bool) : Prop :=
  t.dec = s.dec ∧ t.active = s.active ∧ t.agenda = s.agenda
    ∧ t.enc.regs.prev = p ∧ cacheAfter s.enc.regs t.enc.regs updates p ∧ t.enc.regs.run = run
    ∧ t.enc.regs.pxi = s.enc.regs.pxi + 1 ∧ sameControl s.enc.regs t.enc.regs
    ∧ t.enc.pixIn = s.enc.pixIn ∧ t.enc.streamed = s.enc.streamed ∧ t.enc.outLen = s.enc.outLen + bs.length
    ∧ stores s.enc.byteOut t.enc.byteOut s.enc.outLen bs

/-- The encoder appended `bs`, moved to status `st` and left `run` in `RUN`, consuming no pixel; nothing
else changed. -/
def encWrites (s t : State) (bs : List Byte) (run : BitVec 6) (st : Status) : Prop :=
  t.dec = s.dec ∧ t.active = s.active ∧ t.agenda = s.agenda
    ∧ t.enc.regs = { s.enc.regs with run := run, st := st }
    ∧ t.enc.pixIn = s.enc.pixIn ∧ t.enc.streamed = s.enc.streamed ∧ t.enc.outLen = s.enc.outLen + bs.length
    ∧ stores s.enc.byteOut t.enc.byteOut s.enc.outLen bs

/-! ### When an engine is ready -/

/-- The next step is a step of the decoder in its body phase that needs a record. -/
def decReady (s : State) : Prop :=
  s.agenda = [] ∧ s.active = .dec ∧ s.dec.regs.st = .body ∧ s.dec.regs.pxi ≠ s.dec.regs.cfg.n
    ∧ s.dec.regs.run = 0

/-- `Fetch(j)` (R74). -/
def Dec.fetch (d : Dec) (j : Nat) : Byte := d.fileIn.read (d.fetchAddr + j)

/-- A record of `n` bytes fits the rest of the body (R74). -/
def Dec.has (d : Dec) (n : Nat) : Prop := d.pos.toNat + n ≤ d.bodyLen

/-- The next step is a step of the encoder on pixel `p`. -/
def encReady (s : State) (p : Pixel) : Prop :=
  s.agenda = [] ∧ s.active = .enc ∧ s.enc.regs.st = .body ∧ s.enc.regs.pxi ≠ s.enc.regs.cfg.n
    ∧ s.enc.pixel = some p

/-- The RUN record that stands before a pixel's own record when a run was open (R58 (a)). -/
def flushBytes (run : BitVec 6) : List Byte :=
  if run = 0 then [] else [BitVec.ofNat 8 (0xC0 + run.toNat - 1)]

end Sys2Proof.Machine
end

