-- ==== Sys2Proof/Certificates/Slice0/Obligations.lean ====
section
/-! DEFINITION. The statements for the provers. Each cites the rule of the spec it formalises; "the model's
own" marks what rests on a log entry. -/

open Sys2Proof Sys2Proof.Machine

/-! ### Encoding -/

/-- Every well-formed record, with any bytes after it, decodes to itself (R38 to R41). -/
def Obligations.RecordsDecodeAsEncoded : Prop :=
  ∀ (i : Instr) (rest : List Byte), i.isRecord = true → i.wellFormed = true →
    decodeRecord (encode i ++ rest) = .ok (i, rest)

/-- What the decoder reads as a record is exactly that record's encoding, and the record is well-formed:
every record has one spelling (R38 to R41). -/
def Obligations.DecodedBytesAreTheirEncoding : Prop :=
  ∀ (bs : List Byte) (i : Instr) (rest : List Byte), decodeRecord bs = .ok (i, rest) →
    bs = encode i ++ rest ∧ i.isRecord = true ∧ i.wellFormed = true

/-- HEADER and TRAILER decode to themselves, for every field value, and nothing else decodes to them (R43). -/
def Obligations.ContainerItemsDecodeAsEncoded : Prop :=
  (∀ (w h : Word) (c cs : Byte) (rest : List Byte),
    decodeHeader (encode (.header w h c cs) ++ rest) = .ok (.header w h c cs))
  ∧ (∀ (bs : List Byte) (i : Instr), decodeHeader bs = .ok i →
      (∃ w h c cs, i = .header w h c cs) ∧ bs.take 14 = encode i)
  ∧ (∀ rest : List Byte, decodeTrailer (encode .trailer ++ rest) = .ok .trailer)
  ∧ (∀ (bs : List Byte) (i : Instr), decodeTrailer bs = .ok i → i = .trailer ∧ bs.take 8 = encode i)

/-- The tag map of R39: every tag byte, with enough bytes after it, selects one record kind, by range. -/
def Obligations.EveryTagSelectsOneRecordKind : Prop :=
  ∀ (t b1 b2 b3 b4 : Byte) (rest : List Byte), ∃ i rest',
    decodeRecord (t :: b1 :: b2 :: b3 :: b4 :: rest) = .ok (i, rest')
    ∧ (t = 0xFF → i = .rgba b1 b2 b3 b4)
    ∧ (t = 0xFE → i = .rgb b1 b2 b3)
    ∧ (∀ k : Slot, t.toNat = k.val → i = .index k)
    ∧ (0x40 ≤ t.toNat ∧ t.toNat ≤ 0x7F → ∃ dr dg db, i = .diff dr dg db)
    ∧ (0x80 ≤ t.toNat ∧ t.toNat ≤ 0xBF → ∃ dg drDg dbDg, i = .luma dg drDg dbDg)
    ∧ (0xC0 ≤ t.toNat ∧ t.toNat ≤ 0xFD → i = .run (t.toNat - 0xC0 + 1))

/-- The tag alone decides a record's length: `FF` 5, `FE` 4, `80`..`BF` 2, every other 1 (R41). -/
def Obligations.RecordLengthComesFromTheTag : Prop :=
  ∀ (t : Byte) (bs : List Byte) (i : Instr) (rest : List Byte),
    decodeRecord (t :: bs) = .ok (i, rest) →
      (t :: bs).length = i.size + rest.length
      ∧ i.size = if t = 0xFF then 5 else if t = 0xFE then 4
          else if 0x80 ≤ t.toNat ∧ t.toNat ≤ 0xBF then 2 else 1

/-- Words of 95_test_vectors.md section 3 and of R88, written out from the formats of R38 and R43. -/
def Obligations.SampleWordsDecode : Prop :=
  decodeRecord [0b00111111] = .ok (.index 63, [])
  ∧ decodeRecord [0b01000000] = .ok (.diff (-2) (-2) (-2), [])
  ∧ decodeRecord [0b10111111, 0b11111111] = .ok (.luma 31 7 7, [])
  ∧ decodeRecord [0b10000000, 0b11111110] = .ok (.luma (-32) 7 6, [])
  ∧ decodeRecord [0b11111101] = .ok (.run 62, [])
  ∧ decodeRecord [0b11111110, 1, 2, 3] = .ok (.rgb 1 2 3, [])
  ∧ decodeRecord [0b11111111, 1, 2, 3, 4] = .ok (.rgba 1 2 3 4, [])
  ∧ decodeHeader [0x71, 0x6F, 0x69, 0x66, 0, 0, 0, 6, 0, 0, 0, 1, 3, 0] = .ok (.header 6 1 3 0)
  ∧ decodeTrailer [0, 0, 0, 0, 0, 0, 0, 1] = .ok .trailer

/-! ### Primitives -/

/-- R46 with its bound and its example, and R47: with alpha 255 the alpha term is 2805, or 53 modulo 64. -/
def Obligations.HashIsTheWeightedChannelSum : Prop :=
  (∀ p : Pixel,
    (pixelHash p).val = (p.r.toNat * 3 + p.g.toNat * 5 + p.b.toNat * 7 + p.a.toNat * 11) % 64
    ∧ p.r.toNat * 3 + p.g.toNat * 5 + p.b.toNat * 7 + p.a.toNat * 11 ≤ 6630)
  ∧ pixelHash ⟨255, 0, 0, 255⟩ = 50
  ∧ (∀ r g b : Byte,
      (pixelHash ⟨r, g, b, 255⟩).val = (r.toNat * 3 + g.toNat * 5 + b.toNat * 7 + 2805) % 64
      ∧ (pixelHash ⟨r, g, b, 255⟩).val = (r.toNat * 3 + g.toNat * 5 + b.toNat * 7 + 53) % 64)

/-- `Update(p)` overwrites slot `Hash(p)` with `p`, whatever it held, and writes nothing else (R48). -/
def Obligations.UpdateWritesOneSlot : Prop :=
  ∀ (r : Regs) (p : Pixel),
    (r.update p).cache[pixelHash p] = p
    ∧ (∀ j : Slot, j ≠ pixelHash p → (r.update p).cache[j] = r.cache[j])
    ∧ { r.update p with cache := r.cache } = r

/-- At the start of a call exactly slot 53 holds a pixel that hashes to it; the encoder then emits
`INDEX 53` for a zero pixel that differs from `PREV`, and any slot gives the decoder the zero pixel (R52). -/
def Obligations.FreshCacheHoldsTheZeroPixel : Prop :=
  (∀ (r : Regs) (i : Slot), r.start.cache[i] = ⟨0, 0, 0, 255⟩ ∧ (pixelHash r.start.cache[i] = i ↔ i = 53))
  ∧ (∀ r : Regs, r.cache[(53 : Slot)] = ⟨0, 0, 0, 255⟩ →
      selectRecord ⟨0, 0, 0, 255⟩ r = .index 53)

/-! ### What a record does in the decoder, and its frame -/

/-- RGB with 3 channels and RGBA with 4 complete: the literal is the cell, `PREV` and its own cache slot
(effect clauses of R76 and R77), and nothing else changes. -/
def Obligations.DecoderLiteralsComplete : Prop :=
  (∀ (s : State) (r g b : Byte), s.active = .dec → s.dec.regs.cfg.c = 3 →
    ∃ t, exec (.rgb r g b) s = .next t ∧ decEffect s t ⟨r, g, b, 255⟩ 4 s.dec.regs.run true)
  ∧ (∀ (s : State) (r g b a : Byte), s.active = .dec → s.dec.regs.cfg.c = 4 →
    ∃ t, exec (.rgba r g b a) s = .next t ∧ decEffect s t ⟨r, g, b, a⟩ 5 s.dec.regs.run true)

/-- DIFF and LUMA complete on every operand: each channel is `(PREV.c + d) mod 256`, alpha is inherited
(effect clauses of R79 and R80), and nothing else changes. -/
def Obligations.DecoderDeltasComplete : Prop :=
  (∀ (s : State) (dr dg db : Int), s.active = .dec →
    ∃ t, exec (.diff dr dg db) s = .next t
      ∧ decEffect s t
          ⟨BitVec.ofInt 8 ((s.dec.regs.prev.r.toNat : Int) + dr),
            BitVec.ofInt 8 ((s.dec.regs.prev.g.toNat : Int) + dg),
            BitVec.ofInt 8 ((s.dec.regs.prev.b.toNat : Int) + db), s.dec.regs.prev.a⟩
          1 s.dec.regs.run true)
  ∧ (∀ (s : State) (dg drDg dbDg : Int), s.active = .dec →
    ∃ t, exec (.luma dg drDg dbDg) s = .next t
      ∧ decEffect s t
          ⟨BitVec.ofInt 8 ((s.dec.regs.prev.r.toNat : Int) + (drDg + dg)),
            BitVec.ofInt 8 ((s.dec.regs.prev.g.toNat : Int) + dg),
            BitVec.ofInt 8 ((s.dec.regs.prev.b.toNat : Int) + (dbDg + dg)), s.dec.regs.prev.a⟩
          2 s.dec.regs.run true)

/-- INDEX and RUN complete: the cell is `CACHE[i]`, or `PREV` with `RUN <- n - 1`; neither writes the cache
(effect clauses of R78 and R81), and nothing else changes. -/
def Obligations.DecoderIndexAndRunComplete : Prop :=
  (∀ (s : State) (i : Slot), s.active = .dec →
    ∃ t, exec (.index i) s = .next t ∧ decEffect s t s.dec.regs.cache[i] 1 s.dec.regs.run false)
  ∧ (∀ (s : State) (n : Nat), s.active = .dec → 1 ≤ n → n ≤ 62 →
    ∃ t, exec (.run n) s = .next t
      ∧ decEffect s t s.dec.regs.prev 1 (BitVec.ofNat 6 (n - 1)) false
      ∧ t.dec.regs.run.toNat + 1 = n)

/-- Reading HEADER loads `CFG` and `desc_out` with legal fields and raises `BadHeader` on any other (R93, R114),
and leaves the rest as it was. That the trailer is checked next is the model's own sequencing (log 6). -/
def Obligations.DecoderHeaderLoadsDescriptor : Prop :=
  ∀ (s : State) (w h : Word) (c cs : Byte), s.active = .dec →
    ((w ≠ 0 ∧ h ≠ 0 ∧ (c = 3 ∨ c = 4) ∧ (cs = 0 ∨ cs = 1)) →
      exec (.header w h c cs) s
        = .next { s with dec := { s.dec with
            regs := { s.dec.regs with cfg := ⟨w, h, c, cs⟩ }, headerRead := true,
            descOut := ⟨w, h, c, cs⟩ } })
    ∧ (¬ (w ≠ 0 ∧ h ≠ 0 ∧ (c = 3 ∨ c = 4) ∧ (cs = 0 ∨ cs = 1)) →
      exec (.header w h c cs) s = .next (s.raise .badHeader))

/-- Reading TRAILER completes: the body phase begins (R91, step 6; the model's own sequencing, log 6) and
nothing else changes. -/
def Obligations.DecoderTrailerBeginsTheBody : Prop :=
  ∀ s : State, s.active = .dec →
    exec .trailer s
      = .next { s with dec := { s.dec with regs := { s.dec.regs with st := .body } } }

/-! ### What a record does in the encoder, and its frame -/

/-- Emitting INDEX, DIFF, LUMA, RGB or RGBA for the pixel at `PXI` completes: the record's bytes are appended,
`PREV` becomes the pixel, and all but INDEX write its cache slot (R49, effect clauses of R59, R61 to R64).
That `exec` takes the operands as selected is the model's own division (log 11), and that bytes of operands
outside the ranges of R40 are taken modulo 256 is the model's own choice (log 15). -/
def Obligations.EncoderRecordsComplete : Prop :=
  ∀ (s : State) (p : Pixel), s.active = .enc → s.enc.pixel = some p →
    (∀ i : Slot, ∃ t, exec (.index i) s = .next t
      ∧ encEffect s t p [BitVec.ofNat 8 i.val] s.enc.regs.run false)
    ∧ (∀ dr dg db : Int, ∃ t, exec (.diff dr dg db) s = .next t
      ∧ encEffect s t p [BitVec.ofInt 8 (0x40 + (dr + 2) * 16 + (dg + 2) * 4 + (db + 2))]
          s.enc.regs.run true)
    ∧ (∀ dg drDg dbDg : Int, ∃ t, exec (.luma dg drDg dbDg) s = .next t
      ∧ encEffect s t p
          [BitVec.ofInt 8 (0x80 + dg + 32), BitVec.ofInt 8 ((drDg + 8) * 16 + (dbDg + 8))]
          s.enc.regs.run true)
    ∧ (∀ r g b : Byte, ∃ t, exec (.rgb r g b) s = .next t
      ∧ encEffect s t p [0xFE, r, g, b] s.enc.regs.run true)
    ∧ (∀ r g b a : Byte, ∃ t, exec (.rgba r g b a) s = .next t
      ∧ encEffect s t p [0xFF, r, g, b, a] s.enc.regs.run true)

/-- Flushing a run completes: one byte `0xC0 + n - 1`, then `RUN <- 0`, no pixel consumed (effect of R58). -/
def Obligations.EncoderRunFlushCompletes : Prop :=
  ∀ (s : State) (n : Nat), s.active = .enc → 1 ≤ n → n ≤ 62 →
    ∃ t, exec (.run n) s = .next t
      ∧ encWrites s t [BitVec.ofNat 8 (0xC0 + n - 1)] 0 s.enc.regs.st

/-- Writing HEADER and TRAILER completes with the bytes and statuses of R88 and R89. -/
def Obligations.EncoderContainerItemsComplete : Prop :=
  (∀ (s : State) (w h : Word) (c cs : Byte), s.active = .enc →
    ∃ t, exec (.header w h c cs) s = .next t
      ∧ encWrites s t
          [0x71, 0x6F, 0x69, 0x66,
            w.extractLsb' 24 8, w.extractLsb' 16 8, w.extractLsb' 8 8, w.extractLsb' 0 8,
            h.extractLsb' 24 8, h.extractLsb' 16 8, h.extractLsb' 8 8, h.extractLsb' 0 8, c, cs]
          s.enc.regs.run .body)
  ∧ (∀ s : State, s.active = .enc →
    ∃ t, exec .trailer s = .next t
      ∧ encWrites s t [0, 0, 0, 0, 0, 0, 0, 1] s.enc.regs.run .done)

/-! ### The decoder's steps -/

/-- When the bytes at `POS` decode to a record, the step is `exec` of that record, whether the decoder moves
because nothing else is on the agenda or because the agenda says so. -/
def Obligations.StepRunsTheDecodedRecord : Prop :=
  ∀ (s : State) (i : Instr) (rest : List Byte),
    s.dec.regs.st = .body → s.dec.regs.pxi ≠ s.dec.regs.cfg.n → s.dec.regs.run = 0 →
    decodeRecord s.dec.fetchRecord = .ok (i, rest) →
      (s.agenda = [] → s.active = .dec → step s = exec i s)
      ∧ (∀ later, s.agenda = .run .dec :: later →
          step s = exec i { s with active := .dec, agenda := later })

/-- When the file's first bytes decode to a HEADER, or its last bytes to a TRAILER, the step that reads them
is `exec` of that item; the encoder's steps in HEADER, where no check fails, and in TRAILER are `exec` of the
items it writes. That a decode call reads TRAILER in status HEADER, once HEADER is read, is the model's own
reading (log 6), and that the checks of an encode call and its HEADER are one step is its own choice (log 7). -/
def Obligations.StepRunsTheContainerItem : Prop :=
  (∀ (s : State) (i : Instr), s.agenda = [] → s.active = .dec → s.dec.regs.st = .header →
    s.dec.bodyOnly = false → s.dec.headerRead = false →
    decodeHeader s.dec.fetchHeader = .ok i → step s = exec i s)
  ∧ (∀ (s : State) (i : Instr), s.agenda = [] → s.active = .dec → s.dec.regs.st = .header →
    s.dec.bodyOnly = false → s.dec.headerRead = true → 22 ≤ s.dec.len.toNat →
    decodeTrailer s.dec.fetchTrailer = .ok i → step s = exec i s)
  ∧ (∀ s : State, s.agenda = [] → s.active = .enc → s.enc.regs.st = .header → s.enc.check = none →
    step s = exec (.header s.enc.regs.cfg.w s.enc.regs.cfg.h s.enc.regs.cfg.c s.enc.regs.cfg.cs) s)
  ∧ (∀ s : State, s.agenda = [] → s.active = .enc → s.enc.regs.st = .trailer →
    step s = exec .trailer s)

/-- RGB (R76): with 3 channels and 4 bytes left the cell is the literal; with fewer bytes the step raises
`TruncatedStream`; with 4 channels it raises `MalformedStream`. -/
def Obligations.RgbRecordStep : Prop :=
  ∀ s : State, decReady s → s.dec.fetch 0 = 0xFE →
    (s.dec.regs.cfg.c = 3 → s.dec.has 4 → ∃ t, step s = .next t
      ∧ decEffect s t ⟨s.dec.fetch 1, s.dec.fetch 2, s.dec.fetch 3, 255⟩ 4 0 true)
    ∧ (s.dec.regs.cfg.c = 3 → ¬ s.dec.has 4 → step s = .next (s.raise .truncatedStream))
    ∧ (s.dec.regs.cfg.c = 4 → s.dec.has 1 → step s = .next (s.raise .malformedStream))

/-- RGBA (R77): with 4 channels and 5 bytes left the cell is the literal; with fewer bytes the step raises
`TruncatedStream`; with 3 channels it raises `MalformedStream`. -/
def Obligations.RgbaRecordStep : Prop :=
  ∀ s : State, decReady s → s.dec.fetch 0 = 0xFF →
    (s.dec.regs.cfg.c = 4 → s.dec.has 5 → ∃ t, step s = .next t
      ∧ decEffect s t ⟨s.dec.fetch 1, s.dec.fetch 2, s.dec.fetch 3, s.dec.fetch 4⟩ 5 0 true)
    ∧ (s.dec.regs.cfg.c = 4 → ¬ s.dec.has 5 → step s = .next (s.raise .truncatedStream))
    ∧ (s.dec.regs.cfg.c = 3 → s.dec.has 1 → step s = .next (s.raise .malformedStream))

/-- INDEX (R78): the cell is `CACHE[tag & 0x3F]`, which becomes `PREV`; the cache is not written. -/
def Obligations.IndexRecordStep : Prop :=
  ∀ (s : State) (i : Slot), decReady s → s.dec.has 1 → (s.dec.fetch 0).toNat = i.val →
    ∃ t, step s = .next t ∧ decEffect s t s.dec.regs.cache[i] 1 0 false

/-- DIFF (R79): each 2-bit field minus 2 is added to its channel modulo 256; alpha is inherited. -/
def Obligations.DiffRecordStep : Prop :=
  ∀ s : State, decReady s → s.dec.has 1 →
    0x40 ≤ (s.dec.fetch 0).toNat → (s.dec.fetch 0).toNat ≤ 0x7F →
    ∃ t, step s = .next t
      ∧ decEffect s t
          ⟨BitVec.ofInt 8 (s.dec.regs.prev.r.toNat + (((s.dec.fetch 0).toNat / 16 % 4 : Nat) : Int) - 2),
            BitVec.ofInt 8 (s.dec.regs.prev.g.toNat + (((s.dec.fetch 0).toNat / 4 % 4 : Nat) : Int) - 2),
            BitVec.ofInt 8 (s.dec.regs.prev.b.toNat + (((s.dec.fetch 0).toNat % 4 : Nat) : Int) - 2),
            s.dec.regs.prev.a⟩ 1 0 true

/-- LUMA (R80): the green delta is the low 6 bits minus 32; the second byte's nibbles minus 8 are the red and
blue deltas relative to it; channels wrap modulo 256. Without the second byte: `TruncatedStream`. -/
def Obligations.LumaRecordStep : Prop :=
  ∀ s : State, decReady s → s.dec.has 1 →
    0x80 ≤ (s.dec.fetch 0).toNat → (s.dec.fetch 0).toNat ≤ 0xBF →
    (s.dec.has 2 → ∀ dg dr db : Int,
      dg = ((s.dec.fetch 0).toNat : Int) - 0x80 - 32 →
      dr = (((s.dec.fetch 1).toNat / 16 : Nat) : Int) - 8 + dg →
      db = (((s.dec.fetch 1).toNat % 16 : Nat) : Int) - 8 + dg →
      ∃ t, step s = .next t
        ∧ decEffect s t
            ⟨BitVec.ofInt 8 (s.dec.regs.prev.r.toNat + dr), BitVec.ofInt 8 (s.dec.regs.prev.g.toNat + dg),
              BitVec.ofInt 8 (s.dec.regs.prev.b.toNat + db), s.dec.regs.prev.a⟩ 2 0 true)
    ∧ (¬ s.dec.has 2 → step s = .next (s.raise .truncatedStream))

/-- RUN (R81): `RUN` gets the 6-bit field, the cell is `PREV`; neither `PREV` nor the cache changes. -/
def Obligations.RunRecordStep : Prop :=
  ∀ s : State, decReady s → s.dec.has 1 →
    0xC0 ≤ (s.dec.fetch 0).toNat → (s.dec.fetch 0).toNat ≤ 0xFD →
    ∃ t, step s = .next t
      ∧ decEffect s t s.dec.regs.prev 1 (BitVec.ofNat 6 ((s.dec.fetch 0).toNat - 0xC0)) false

/-- Run continuation (R75): the cell is `PREV`, `RUN` goes down, the cache is refreshed with `PREV`, no byte
is read, `PREV` and `POS` stay. -/
def Obligations.RunContinuationStep : Prop :=
  ∀ s : State, s.agenda = [] → s.active = .dec → s.dec.regs.st = .body →
    s.dec.regs.pxi ≠ s.dec.regs.cfg.n → s.dec.regs.run ≠ 0 →
    ∃ t, step s = .next t ∧ decEffect s t s.dec.regs.prev 0 (s.dec.regs.run - 1) true
      ∧ t.dec.pos = s.dec.pos

/-- With no byte for a tag, or fewer bytes than the tag's record needs, the step raises `TruncatedStream`
(the fetch check of R74). -/
def Obligations.ShortBodyIsTruncated : Prop :=
  ∀ s : State, decReady s →
    (¬ s.dec.has 1 → step s = .next (s.raise .truncatedStream))
    ∧ (s.dec.has 1 → s.dec.fetch 0 = 0xFE → s.dec.regs.cfg.c = 3 → ¬ s.dec.has 4 →
        step s = .next (s.raise .truncatedStream))
    ∧ (s.dec.has 1 → s.dec.fetch 0 = 0xFF → s.dec.regs.cfg.c = 4 → ¬ s.dec.has 5 →
        step s = .next (s.raise .truncatedStream))
    ∧ (s.dec.has 1 → 0x80 ≤ (s.dec.fetch 0).toNat → (s.dec.fetch 0).toNat ≤ 0xBF → ¬ s.dec.has 2 →
        step s = .next (s.raise .truncatedStream))

/-- What the decoder reads as a record depends on the bytes of the body alone: never on the header, the
trailer or a byte outside the file (R33, R74, R95). -/
def Obligations.RecordsReadOnlyTheBody : Prop :=
  ∀ (d : Dec) (m : Memory),
    (∀ x, d.bodyOff ≤ x → x < d.bodyOff + d.bodyLen → m.read x = d.fileIn.read x) →
    Dec.nextRecord { d with fileIn := m } = d.nextRecord

/-- The body phase ends when `PXI = N`, whatever bytes or owed cells are left (R83): the status passes
through TRAILER to DONE, and nothing else changes. The TRAILER status of a decode call is the model's own
reading (log 6), and that the two status moves are two steps is its own choice (log 7). -/
def Obligations.FullGridEndsTheDecode : Prop :=
  ∀ s : State, s.agenda = [] → s.active = .dec → s.dec.regs.st = .body →
    s.dec.regs.pxi = s.dec.regs.cfg.n →
    core.run 2 s = .next { s with dec := { s.dec with regs := { s.dec.regs with st := .done } } }

/-- The checks on the start of a file, in their order: length, magic, fields (R91 checks 1 to 3 with R92, R93,
R101, R104 and R108). -/
def Obligations.HeaderChecksComeInOrder : Prop :=
  ∀ (s : State) (w h : Word), s.agenda = [] → s.active = .dec → s.dec.regs.st = .header →
    s.dec.bodyOnly = false → s.dec.headerRead = false →
    w.toNat = (s.dec.fileIn.read 4).toNat * 2 ^ 24 + (s.dec.fileIn.read 5).toNat * 2 ^ 16
      + (s.dec.fileIn.read 6).toNat * 2 ^ 8 + (s.dec.fileIn.read 7).toNat →
    h.toNat = (s.dec.fileIn.read 8).toNat * 2 ^ 24 + (s.dec.fileIn.read 9).toNat * 2 ^ 16
      + (s.dec.fileIn.read 10).toNat * 2 ^ 8 + (s.dec.fileIn.read 11).toNat →
    (s.dec.len.toNat < 14 → step s = .next (s.raise .truncatedStream))
    ∧ (14 ≤ s.dec.len.toNat → s.dec.fileIn.readBytes 0 4 ≠ [0x71, 0x6F, 0x69, 0x66] →
        step s = .next (s.raise .badMagic))
    ∧ (14 ≤ s.dec.len.toNat → s.dec.fileIn.readBytes 0 4 = [0x71, 0x6F, 0x69, 0x66] →
        step s = exec (.header w h (s.dec.fileIn.read 12) (s.dec.fileIn.read 13)) s)

/-- After the header: a file of fewer than 22 bytes is `TruncatedStream`; then the last 8 bytes must be the
trailer, else `BadTrailer`; then the body begins (R91 checks 4 and 5, R94). That the check is a step of its own
in status HEADER is the model's own reading (log 6). -/
def Obligations.TrailerIsCheckedBeforeTheBody : Prop :=
  ∀ s : State, s.agenda = [] → s.active = .dec → s.dec.regs.st = .header →
    s.dec.bodyOnly = false → s.dec.headerRead = true →
    (s.dec.len.toNat < 22 → step s = .next (s.raise .truncatedStream))
    ∧ (22 ≤ s.dec.len.toNat →
        s.dec.fileIn.readBytes (s.dec.len.toNat - 8) 8 ≠ [0, 0, 0, 0, 0, 0, 0, 1] →
        step s = .next (s.raise .badTrailer))
    ∧ (22 ≤ s.dec.len.toNat →
        s.dec.fileIn.readBytes (s.dec.len.toNat - 8) 8 = [0, 0, 0, 0, 0, 0, 0, 1] →
        step s = .next { s with dec := { s.dec with regs := { s.dec.regs with st := .body } } })

/-- The body-only entry rejects a channel count outside {3,4}, then a zero dimension, and otherwise begins
the body with the whole sequence as its body (R86). That its result shows the descriptor supplied is the
model's own choice (log 17), and so is the entry as a move of its own (log 20). -/
def Obligations.BodyOnlyEntryChecksTheDescriptor : Prop :=
  ∀ s : State, s.agenda = [] → s.active = .dec → s.dec.regs.st = .header → s.dec.bodyOnly = true →
    (¬ (s.dec.regs.cfg.c = 3 ∨ s.dec.regs.cfg.c = 4) →
      step s = .next (s.raise .unsupportedChannelLayout))
    ∧ ((s.dec.regs.cfg.c = 3 ∨ s.dec.regs.cfg.c = 4) →
      (s.dec.regs.cfg.w = 0 ∨ s.dec.regs.cfg.h = 0) → step s = .next (s.raise .consistencyError))
    ∧ ((s.dec.regs.cfg.c = 3 ∨ s.dec.regs.cfg.c = 4) →
      s.dec.regs.cfg.w ≠ 0 → s.dec.regs.cfg.h ≠ 0 →
      step s = .next { s with dec := { s.dec with
          regs := { s.dec.regs with st := .body }, descOut := s.dec.regs.cfg } }
      ∧ s.dec.bodyLen = s.dec.len.toNat ∧ s.dec.bodyOff = 0)

/-! ### The encoder's steps -/

/-- The checks of an encode call in their order, and HEADER with the descriptor when they pass (R90 steps 1
to 4; R99 and R100 on the encode side). A grid whose pixels are handed over one by one has no grid check:
the pixels are counted, and the check cannot fail (R100, R117; log 10). That the checks and HEADER are one
step is the model's own choice (log 7). -/
def Obligations.EncodeChecksComeInOrder : Prop :=
  ∀ s : State, s.agenda = [] → s.active = .enc → s.enc.regs.st = .header →
    (¬ (s.enc.regs.cfg.c = 3 ∨ s.enc.regs.cfg.c = 4) →
      step s = .next (s.raise .unsupportedChannelLayout))
    ∧ ((s.enc.regs.cfg.c = 3 ∨ s.enc.regs.cfg.c = 4) →
      ((s.enc.regs.cfg.w = 0 ∨ s.enc.regs.cfg.h = 0)
        ∨ (s.enc.streamed = false ∧ (s.enc.pixIn.chans.length ≠ s.enc.regs.cfg.w.toNat * s.enc.regs.cfg.h.toNat
          ∨ (∃ k ∈ s.enc.pixIn.chans, k ≠ s.enc.regs.cfg.c.toNat)))) →
      step s = .next (s.raise .consistencyError))
    ∧ ((s.enc.regs.cfg.c = 3 ∨ s.enc.regs.cfg.c = 4) →
      s.enc.regs.cfg.w ≠ 0 → s.enc.regs.cfg.h ≠ 0 →
      (s.enc.streamed = true ∨ (s.enc.pixIn.chans.length = s.enc.regs.cfg.w.toNat * s.enc.regs.cfg.h.toNat
        ∧ ∀ k ∈ s.enc.pixIn.chans, k = s.enc.regs.cfg.c.toNat)) →
      step s = exec (.header s.enc.regs.cfg.w s.enc.regs.cfg.h s.enc.regs.cfg.c s.enc.regs.cfg.cs) s)

/-- A pixel equal to `PREV` joins the run; at `RUN = 62` the full record `FD` is flushed first and the count
restarts at 1; neither `PREV` nor the cache is written (R57). -/
def Obligations.EqualPixelJoinsTheRun : Prop :=
  ∀ (s : State) (p : Pixel), encReady s p → p = s.enc.regs.prev → s.enc.regs.run.toNat ≤ 62 →
    (s.enc.regs.run ≠ 62 → ∃ t, step s = .next t ∧ encEffect s t p [] (s.enc.regs.run + 1) false)
    ∧ (s.enc.regs.run = 62 → ∃ t, step s = .next t ∧ encEffect s t p [0xFD] 1 false)

/-- A pixel that differs from `PREV` and stands in its cache slot is emitted as INDEX, after the open run if
there is one; `PREV` becomes the pixel and the cache is not written (R59). -/
def Obligations.CachedPixelIsEmittedAsIndex : Prop :=
  ∀ (s : State) (p : Pixel), encReady s p → p ≠ s.enc.regs.prev → s.enc.regs.cache[pixelHash p] = p →
    ∃ t, step s = .next t
      ∧ encEffect s t p (flushBytes s.enc.regs.run ++ [BitVec.ofNat 8 (pixelHash p).val]) 0 false

/-- A pixel that is neither a run pixel nor cached, with alpha unchanged and every delta in [-2, 1], is
emitted as DIFF, after the open run if there is one (R60, R61). -/
def Obligations.SmallDeltasAreEmittedAsDiff : Prop :=
  ∀ (s : State) (p : Pixel) (dr dg db : Int), encReady s p → p ≠ s.enc.regs.prev →
    s.enc.regs.cache[pixelHash p] ≠ p → p.a = s.enc.regs.prev.a →
    dr = (p.r.toNat : Int) - s.enc.regs.prev.r.toNat → dg = (p.g.toNat : Int) - s.enc.regs.prev.g.toNat →
    db = (p.b.toNat : Int) - s.enc.regs.prev.b.toNat →
    -2 ≤ dr → dr ≤ 1 → -2 ≤ dg → dg ≤ 1 → -2 ≤ db → db ≤ 1 →
    ∃ t, step s = .next t
      ∧ encEffect s t p
          (flushBytes s.enc.regs.run
            ++ [BitVec.ofInt 8 (0x40 + (dr + 2) * 16 + (dg + 2) * 4 + (db + 2))]) 0 true

/-- A pixel RUN, INDEX and DIFF do not take, with alpha unchanged, the green delta in [-32, 31] and the red
and blue deltas relative to it in [-8, 7], is emitted as LUMA, after the open run if there is one (R62). -/
def Obligations.LumaDeltasAreEmittedAsLuma : Prop :=
  ∀ (s : State) (p : Pixel) (dr dg db : Int), encReady s p → p ≠ s.enc.regs.prev →
    s.enc.regs.cache[pixelHash p] ≠ p → p.a = s.enc.regs.prev.a →
    dr = (p.r.toNat : Int) - s.enc.regs.prev.r.toNat → dg = (p.g.toNat : Int) - s.enc.regs.prev.g.toNat →
    db = (p.b.toNat : Int) - s.enc.regs.prev.b.toNat →
    ¬ (-2 ≤ dr ∧ dr ≤ 1 ∧ -2 ≤ dg ∧ dg ≤ 1 ∧ -2 ≤ db ∧ db ≤ 1) →
    -32 ≤ dg → dg ≤ 31 → -8 ≤ dr - dg → dr - dg ≤ 7 → -8 ≤ db - dg → db - dg ≤ 7 →
    ∃ t, step s = .next t
      ∧ encEffect s t p
          (flushBytes s.enc.regs.run
            ++ [BitVec.ofInt 8 (0x80 + dg + 32), BitVec.ofInt 8 ((dr - dg + 8) * 16 + (db - dg + 8))])
          0 true

/-- A pixel no other operator takes is emitted as a literal: RGB in a 3-channel call, RGBA in a 4-channel
call, after the open run if there is one (R63, R64). -/
def Obligations.OtherPixelsAreEmittedAsLiterals : Prop :=
  ∀ (s : State) (p : Pixel) (dr dg db : Int), encReady s p → p ≠ s.enc.regs.prev →
    s.enc.regs.cache[pixelHash p] ≠ p →
    dr = (p.r.toNat : Int) - s.enc.regs.prev.r.toNat → dg = (p.g.toNat : Int) - s.enc.regs.prev.g.toNat →
    db = (p.b.toNat : Int) - s.enc.regs.prev.b.toNat →
    ¬ (p.a = s.enc.regs.prev.a ∧ -2 ≤ dr ∧ dr ≤ 1 ∧ -2 ≤ dg ∧ dg ≤ 1 ∧ -2 ≤ db ∧ db ≤ 1) →
    ¬ (p.a = s.enc.regs.prev.a ∧ -32 ≤ dg ∧ dg ≤ 31 ∧ -8 ≤ dr - dg ∧ dr - dg ≤ 7
        ∧ -8 ≤ db - dg ∧ db - dg ≤ 7) →
    (s.enc.regs.cfg.c = 3 → ∃ t, step s = .next t
      ∧ encEffect s t p (flushBytes s.enc.regs.run ++ [0xFE, p.r, p.g, p.b]) 0 true)
    ∧ (s.enc.regs.cfg.c = 4 → ∃ t, step s = .next t
      ∧ encEffect s t p (flushBytes s.enc.regs.run ++ [0xFF, p.r, p.g, p.b, p.a]) 0 true)

/-- After the last pixel the open run is flushed and the status becomes TRAILER (R65). That this is a step of
its own is the model's own choice (log 7). -/
def Obligations.EndOfScanFlushesTheRun : Prop :=
  ∀ s : State, s.agenda = [] → s.active = .enc → s.enc.regs.st = .body →
    s.enc.regs.pxi = s.enc.regs.cfg.n →
    ∃ t, step s = .next t ∧ encWrites s t (flushBytes s.enc.regs.run) 0 .trailer

/-- What the priority chain selects for a pixel that is no run pixel: a well-formed record, never a zero
DIFF or LUMA, never the other channel count's literal, and, where it is a DIFF or LUMA, one whose deltas
give the pixel back without a wrap (R69 (b) and (f), R127). -/
def Obligations.SelectedRecordIsExact : Prop :=
  ∀ (r : Regs) (p : Pixel), p ≠ r.prev → (r.cfg.c = 3 ∨ r.cfg.c = 4) →
    (selectRecord p r).wellFormed = true ∧ (selectRecord p r).isRecord = true
    ∧ selectRecord p r ≠ .diff 0 0 0 ∧ selectRecord p r ≠ .luma 0 0 0
    ∧ (∀ n, selectRecord p r ≠ .run n)
    ∧ (r.cfg.c = 3 → ∀ x y z a, selectRecord p r ≠ .rgba x y z a)
    ∧ (r.cfg.c = 4 → ∀ x y z, selectRecord p r ≠ .rgb x y z)
    ∧ (∀ dr dg db, selectRecord p r = .diff dr dg db →
        p.a = r.prev.a ∧ (r.prev.r.toNat : Int) + dr = p.r.toNat
        ∧ (r.prev.g.toNat : Int) + dg = p.g.toNat ∧ (r.prev.b.toNat : Int) + db = p.b.toNat)
    ∧ (∀ dg drDg dbDg, selectRecord p r = .luma dg drDg dbDg →
        p.a = r.prev.a ∧ (r.prev.r.toNat : Int) + (drDg + dg) = p.r.toNat
        ∧ (r.prev.g.toNat : Int) + dg = p.g.toNat ∧ (r.prev.b.toNat : Int) + (dbDg + dg) = p.b.toNat)

/-! ### Errors, status, host -/

/-- Error entry (R106): `ERR` gets the code and `ST` becomes ERROR in the active engine, whose call then
answers the error alone; nothing else changes. The codes are those of R97. -/
def Obligations.ErrorEntryWritesOnlyStatusAndCode : Prop :=
  (∀ (s : State) (k : ErrKind), s.active = .dec →
    s.raise k = { s with dec := { s.dec with regs := { s.dec.regs with st := .error, err := k.code } } }
    ∧ (s.raise k).dec.result = .failed k.code)
  ∧ (∀ (s : State) (k : ErrKind), s.active = .enc →
    s.raise k = { s with enc := { s.enc with regs := { s.enc.regs with st := .error, err := k.code } } }
    ∧ (s.raise k).enc.result = .failed k.code)
  ∧ ErrKind.code .unsupportedChannelLayout = 1 ∧ ErrKind.code .consistencyError = 2
  ∧ ErrKind.code .badMagic = 3 ∧ ErrKind.code .badTrailer = 4 ∧ ErrKind.code .truncatedStream = 5
  ∧ ErrKind.code .badHeader = 6 ∧ ErrKind.code .malformedStream = 7

/-- A body step of the decoder produces a cell, or raises `TruncatedStream` or `MalformedStream`, in every
state (R84). -/
def Obligations.DecoderBodyStepIsTotal : Prop :=
  ∀ s : State, s.agenda = [] → s.active = .dec → s.dec.regs.st = .body →
    s.dec.regs.pxi ≠ s.dec.regs.cfg.n →
    step s = .next (s.raise .truncatedStream) ∨ step s = .next (s.raise .malformedStream)
    ∨ ∃ t p n run updates, step s = .next t ∧ decEffect s t p n run updates

/-- Every step of the machine, from every state, ends in a next state: the decoder's body by R84, an error by
R106, the encoder by R67 and R90, the host's moves by R112 and R113. That a step outside a call, and one on a
pixel not handed over, is a step to the same state is the model's own choice (log 22, log 10). -/
def Obligations.EveryStepHasANextState : Prop :=
  ∀ s : State, ∃ t, step s = .next t

/-- DONE and ERROR are left only by a start or a reset (R107), in both engines, and until then the result of
the call stays (R114, R115). That the engine stands still is the model's own choice (log 22), and so is that
the host may write the descriptor of the next call then (log 9), which does not reach the result. -/
def Obligations.EndedCallsWaitForTheHost : Prop :=
  (∀ s t : State, step s = .next t → (s.dec.regs.st = .done ∨ s.dec.regs.st = .error) →
    (t.dec = s.dec
      ∨ (∃ d later, s.agenda = .host (.writeCfg .dec d) :: later
          ∧ t.dec = { s.dec with regs := { s.dec.regs with cfg := d } } ∧ t.dec.result = s.dec.result)
      ∨ ∃ later, s.agenda = .host .reset :: later
        ∨ (∃ bs, s.agenda = .host (.startDec bs) :: later) ∨ ∃ bs, s.agenda = .host (.startBody bs) :: later))
  ∧ (∀ s t : State, step s = .next t → (s.enc.regs.st = .done ∨ s.enc.regs.st = .error) →
    (t.enc = s.enc
      ∨ (∃ d later, s.agenda = .host (.writeCfg .enc d) :: later
          ∧ t.enc = { s.enc with regs := { s.enc.regs with cfg := d } } ∧ t.enc.result = s.enc.result)
      ∨ ∃ later, s.agenda = .host .reset :: later ∨ s.agenda = .host .startStream :: later
        ∨ ∃ ps, s.agenda = .host (.startEnc ps) :: later))

/-- With no reset, `ST` of an engine stays or moves along HEADER, BODY, TRAILER, DONE, or from HEADER, BODY or
TRAILER to ERROR, or out of IDLE, DONE or ERROR to HEADER (R22). That a decode call passes through TRAILER
after its body is the model's own reading (log 6). -/
def Obligations.StatusMovesAlongTheCall : Prop :=
  ∀ s t : State, step s = .next t → (∀ later, s.agenda ≠ .host .reset :: later) →
    ∀ a b : Status, (a = s.enc.regs.st ∧ b = t.enc.regs.st ∨ a = s.dec.regs.st ∧ b = t.dec.regs.st) →
      b = a ∨ (a = .header ∧ b = .body) ∨ (a = .body ∧ b = .trailer) ∨ (a = .trailer ∧ b = .done)
      ∨ (a.inCall = true ∧ b = .error) ∨ (a.inCall = false ∧ b = .header)

/-- Hardware reset (R112): both engines are IDLE with `ERR = 0`, from any state, and their calls are
abandoned. -/
def Obligations.ResetIdlesBothEngines : Prop :=
  ∀ (s : State) (later : List Event), s.agenda = .host .reset :: later →
    ∃ t, step s = .next t ∧ t.enc.regs.st = .idle ∧ t.enc.regs.err = 0
      ∧ t.dec.regs.st = .idle ∧ t.dec.regs.err = 0 ∧ t.enc.result = .pending ∧ t.dec.result = .pending
      ∧ t.agenda = later

/-- An accepted start initialises every register but `CFG` and latches the inputs: every byte of the file
and its length reach `file_in`, every channel of the grid `pix_in` (R113). A pixel handed over later, in a
call started for that, joins `pix_in` after the others while one is lacking (R117). That a start keeps `CFG`
is the model's own choice (log 17), and so are the two further starts as moves of their own (log 20, log 10). -/
def Obligations.StartInitialisesTheEngine : Prop :=
  (∀ (s : State) (later : List Event) (bs : List Byte) (only : Bool),
    s.agenda = .host (if only then .startBody bs else .startDec bs) :: later →
    (s.dec.regs.st = .idle ∨ s.dec.regs.st = .done ∨ s.dec.regs.st = .error) → bs.length < 2 ^ 64 →
    ∃ t, step s = .next t ∧ t.enc = s.enc ∧ t.agenda = later ∧ t.dec.regs.fresh ∧ t.dec.pos = 0
      ∧ t.dec.regs.st = .header ∧ t.dec.regs.err = 0 ∧ t.dec.regs.cfg = s.dec.regs.cfg
      ∧ t.dec.bodyOnly = only ∧ t.dec.len.toNat = bs.length ∧ t.dec.fileIn.readBytes 0 bs.length = bs)
  ∧ (∀ (s : State) (later : List Event) (ps : List (List Byte)),
    s.agenda = .host (.startEnc ps) :: later →
    (s.enc.regs.st = .idle ∨ s.enc.regs.st = .done ∨ s.enc.regs.st = .error) →
    ∃ t, step s = .next t ∧ t.dec = s.dec ∧ t.agenda = later ∧ t.enc.regs.fresh
      ∧ t.enc.regs.st = .header ∧ t.enc.regs.err = 0 ∧ t.enc.regs.cfg = s.enc.regs.cfg
      ∧ t.enc.outLen = 0 ∧ t.enc.streamed = false ∧ t.enc.pixIn.chans = ps.map List.length
      ∧ (∀ k p, ps[k]? = some p → p.length ≤ 4 →
          t.enc.pixIn.mem.readBytes (pixelAddr k) p.length = p))
  ∧ (∀ (s : State) (later : List Event), s.agenda = .host .startStream :: later →
    (s.enc.regs.st = .idle ∨ s.enc.regs.st = .done ∨ s.enc.regs.st = .error) →
    ∃ t, step s = .next t ∧ t.dec = s.dec ∧ t.agenda = later ∧ t.enc.regs.fresh
      ∧ t.enc.regs.st = .header ∧ t.enc.regs.err = 0 ∧ t.enc.regs.cfg = s.enc.regs.cfg
      ∧ t.enc.outLen = 0 ∧ t.enc.streamed = true ∧ t.enc.pixIn.chans = [])
  ∧ (∀ (s : State) (later : List Event) (p : Pixel), s.agenda = .host (.pixel p) :: later →
    s.enc.regs.st.inCall = true → s.enc.streamed = true →
    s.enc.pixIn.chans.length < s.enc.regs.cfg.n.toNat →
    ∃ g : Grid, step s = .next { s with agenda := later, enc := { s.enc with pixIn := g } }
      ∧ g.chans = s.enc.pixIn.chans ++ [(channelBytes s.enc.regs.cfg.c p).length]
      ∧ g.mem.readBytes (pixelAddr s.enc.pixIn.chans.length) (channelBytes s.enc.regs.cfg.c p).length
          = channelBytes s.enc.regs.cfg.c p
      ∧ ∀ x, x < pixelAddr s.enc.pixIn.chans.length → g.mem.read x = s.enc.pixIn.mem.read x)

/-- A start of an engine whose call is in progress has no effect (R113). That a write of its descriptor has
none either, where R19 makes it read-only and says nothing of an attempt, is the model's own choice (log 9),
and so is it for a pixel the call has no place for (log 10). -/
def Obligations.CallsInProgressIgnoreTheHost : Prop :=
  (∀ (s : State) (later : List Event), s.enc.regs.st.inCall = true →
    ((∃ ps, s.agenda = .host (.startEnc ps) :: later) ∨ s.agenda = .host .startStream :: later
      ∨ (∃ p, s.agenda = .host (.pixel p) :: later
          ∧ (s.enc.streamed = false ∨ s.enc.regs.cfg.n.toNat ≤ s.enc.pixIn.chans.length))
      ∨ ∃ d, s.agenda = .host (.writeCfg .enc d) :: later) →
    step s = .next { s with agenda := later })
  ∧ (∀ (s : State) (later : List Event), s.dec.regs.st.inCall = true →
    ((∃ bs, s.agenda = .host (.startDec bs) :: later) ∨ (∃ bs, s.agenda = .host (.startBody bs) :: later)
      ∨ ∃ d, s.agenda = .host (.writeCfg .dec d) :: later) →
    step s = .next { s with agenda := later })

/-- No record reads or writes control state: executing or emitting one leaves `CFG` alone, and `ST` and
`ERR` too unless it is the error the decoder takes (R130). -/
def Obligations.RecordsLeaveControlStateAlone : Prop :=
  ∀ (i : Instr) (s : State), i.isRecord = true →
    ∃ t, exec i s = .next t
      ∧ t.enc.regs.cfg = s.enc.regs.cfg ∧ t.dec.regs.cfg = s.dec.regs.cfg
      ∧ ((sameControl s.enc.regs t.enc.regs ∧ sameControl s.dec.regs t.dec.regs)
        ∨ t = s.raise .malformedStream)

/-- The descriptor of a call does not change while the call is in progress, once the decoder has read it
(R19, R20). -/
def Obligations.DescriptorIsFixedDuringACall : Prop :=
  ∀ s t : State, step s = .next t → (∀ later, s.agenda ≠ .host .reset :: later) →
    (s.enc.regs.st.inCall = true → t.enc.regs.cfg = s.enc.regs.cfg)
    ∧ ((s.dec.regs.st = .body ∨ s.dec.regs.st = .trailer) → t.dec.regs.cfg = s.dec.regs.cfg)

/-! ### Invariants and whole-machine rules -/

/-- The invariant holds after reset (R26, R112). Its clauses on memories rest on the model's own canonical form
and empty ports (log 4, log 3). -/
def Obligations.ResetMeetsTheInvariant : Prop := State.reset.inv

/-- Every step keeps the invariant: memories stay canonical, `ERR` is set only in ERROR, `RUN`, `PXI` and
`POS` stay in their ranges, 3-channel registers keep alpha 255, the encoder's previous pixel stays in its
own cache slot (R51), and the output keeps the size bounds of R70. Clauses of it are the model's own: the
canonical form (log 4), the counted hand-over of pixels (log 10), the decoder's HEADER clause and its TRAILER
status (log 6), and that `desc_out` is `CFG` in BODY and TRAILER of a body-only call, which reads no header
(log 17; R114 gives it for a call that reads one). -/
def Obligations.EveryStepKeepsTheInvariant : Prop :=
  ∀ s t : State, s.inv → step s = .next t → t.inv

/-- A finished encode's file has 22 bytes more than a body of at least one byte for every 62 pixels and at
most `C + 1` bytes a pixel (R70). -/
def Obligations.FinishedFileHasTheSizeBounds : Prop :=
  ∀ s : State, s.inv → s.agenda = [] → s.active = .enc → s.enc.regs.st = .trailer →
    ∃ t body, step s = .next t ∧ t.enc.regs.st = .done ∧ t.enc.outLen = 22 + body
      ∧ t.enc.regs.cfg.n.toNat ≤ 62 * body
      ∧ body ≤ t.enc.regs.cfg.n.toNat * (t.enc.regs.cfg.c.toNat + 1)

/-- The engines share nothing: a step of one leaves the other as it was, and its outcome depends on that
engine alone (R13, R36). -/
def Obligations.EnginesDoNotInteract : Prop :=
  (∀ (s s' t t' : State) (later later' : List Event),
    s.agenda = .run .enc :: later → s'.agenda = .run .enc :: later' → s'.enc = s.enc →
    step s = .next t → step s' = .next t' → t.dec = s.dec ∧ t'.enc = t.enc)
  ∧ (∀ (s s' t t' : State) (later later' : List Event),
    s.agenda = .run .dec :: later → s'.agenda = .run .dec :: later' → s'.dec = s.dec →
    step s = .next t → step s' = .next t' → t.enc = s.enc ∧ t'.dec = t.dec)

/-- The colorspace flag, and width and height for the same pixel count, do not influence a body step of
either engine (R21, R66, R85). -/
def Obligations.ShapeAndColorspaceDoNotReachTheBody : Prop :=
  ∀ (s t : State) (d : Cfg), s.agenda = [] → step s = .next t →
    (s.active = .enc → s.enc.regs.st = .body → d.c = s.enc.regs.cfg.c → d.n = s.enc.regs.cfg.n →
      step { s with enc := { s.enc with regs := { s.enc.regs with cfg := d } } }
        = .next { t with enc := { t.enc with regs := { t.enc.regs with cfg := d } } })
    ∧ (s.active = .dec → s.dec.regs.st = .body → d.c = s.dec.regs.cfg.c → d.n = s.dec.regs.cfg.n →
      step { s with dec := { s.dec with regs := { s.dec.regs with cfg := d } } }
        = .next { t with dec := { t.dec with regs := { t.dec.regs with cfg := d } } })

/-- `POS` moves only forward, by the length of the record at `POS`, and never past the body; a run continuation,
an error and the end of the body leave it (R18, R128). -/
def Obligations.PositionOnlyMovesForward : Prop :=
  ∀ s t : State, s.agenda = [] → s.active = .dec → s.dec.regs.st = .body → step s = .next t →
    (s.dec.regs.pxi = s.dec.regs.cfg.n ∨ s.dec.regs.run ≠ 0 → t.dec.pos = s.dec.pos)
    ∧ (s.dec.regs.pxi ≠ s.dec.regs.cfg.n → s.dec.regs.run = 0 →
      (∀ e, decodeRecord s.dec.fetchRecord = .error e → t.dec.pos = s.dec.pos)
      ∧ (∀ i rest, decodeRecord s.dec.fetchRecord = .ok (i, rest) →
        (t = s.raise .malformedStream ∧ t.dec.pos = s.dec.pos)
        ∨ (t.dec.pos.toNat = s.dec.pos.toNat + i.size ∧ t.dec.pos.toNat ≤ s.dec.bodyLen)))

/-- From the first pixel on, an encode call all of whose pixels are handed over is DONE after a step for each
remaining pixel, the end of scan and the trailer (R115, R125; that the last two are steps of their own is the
model's, log 7). One that lacks its next pixel stays in BODY for ever, with no error (R117, U5); that each such
step leaves the whole state as it is is the model's own choice (log 10). -/
def Obligations.EncodeCallEndsDone : Prop :=
  (∀ s : State, s.inv → s.agenda = [] → s.active = .enc → s.enc.regs.st = .body →
    s.enc.pixIn.chans.length = s.enc.regs.cfg.n.toNat →
    ∃ t, core.run (s.enc.regs.cfg.n.toNat - s.enc.regs.pxi.toNat + 2) s = .next t
      ∧ t.enc.regs.st = .done ∧ t.enc.regs.pxi = s.enc.regs.cfg.n ∧ t.dec = s.dec)
  ∧ (∀ (s : State) (k : Nat), s.agenda = [] → s.active = .enc → s.enc.regs.st = .body →
    s.enc.regs.pxi ≠ s.enc.regs.cfg.n → s.enc.pixIn.chans.length ≤ s.enc.regs.pxi.toNat →
    core.run k s = .next s)

/-- From the first cell on, a decode call ends in DONE or ERROR after at most a step for each remaining cell
and the two status moves of the model (R115, R125; log 6, log 7). -/
def Obligations.DecodeCallEnds : Prop :=
  ∀ s : State, s.inv → s.agenda = [] → s.active = .dec → s.dec.regs.st = .body →
    ∃ k t, k ≤ s.dec.regs.cfg.n.toNat - s.dec.regs.pxi.toNat + 2 ∧ core.run k s = .next t
      ∧ (t.dec.regs.st = .done ∧ t.dec.regs.pxi = s.dec.regs.cfg.n ∨ t.dec.regs.st = .error)
      ∧ t.enc = s.enc

/-- Lock-step on one record: a decoder with the encoder's `PREV`, cache and descriptor, given the record the
encoder selects for a pixel, produces that pixel and is left with the encoder's new `PREV` and cache
(R51, R68). -/
def Obligations.DecoderReversesTheSelectedRecord : Prop :=
  ∀ (s e d : State) (p : Pixel), s.active = .dec → s.enc.pixel = some p → p ≠ s.enc.regs.prev →
    (s.dec.regs.cfg.c = 3 ∨ s.dec.regs.cfg.c = 4) → s.dec.regs.cfg = s.enc.regs.cfg →
    s.dec.regs.prev = s.enc.regs.prev → s.dec.regs.cache = s.enc.regs.cache →
    exec (selectRecord p s.enc.regs) s = .next d →
    exec (selectRecord p s.enc.regs) { s with active := .enc } = .next e →
    d.dec.regs.prev = p ∧ e.enc.regs.prev = p ∧ d.dec.regs.cache = e.enc.regs.cache
    ∧ d.dec.regs.st = s.dec.regs.st
    ∧ stores s.dec.pixOut d.dec.pixOut s.dec.cellAddr (channelBytes s.dec.regs.cfg.c p)

/-- Round trip of the two calls (R68, R96): for every legal descriptor with colorspace 0 or 1 and every grid of
`W*H` pixels of `C` channels whose file fits 64 bits, handed over at once or pixel by pixel (R117), an encode
call ends in a file, and a decode call on that file ends in the descriptor and the grid, channel for channel.
The two ways of handing over are the model's own (log 10), and so are the step counts of both runs (log 7, and
log 6 for the decode). -/
def Obligations.DecodeOfEncodeReturnsGridAndDescriptor : Prop :=
  ∀ (s : State) (d : Cfg) (ps : List (List Byte)) (moves : List HostMove),
    s.enc.regs.st.inCall = false → s.dec.regs.st.inCall = false →
    d.legal → (d.cs = 0 ∨ d.cs = 1) → ps.length = d.n.toNat → (∀ p ∈ ps, p.length = d.c.toNat) →
    22 + d.n.toNat * (d.c.toNat + 1) < 2 ^ 64 →
    (moves = [.startEnc ps]
      ∨ ∃ qs : List Pixel, ps = qs.map (channelBytes d.c) ∧ moves = .startStream :: qs.map .pixel) →
    ∃ (t u : State) (file : List Byte),
      core.run (moves.length + d.n.toNat + 4)
        { s with agenda := .host (.writeCfg .enc d) :: moves.map .host } = .next t
      ∧ t.enc.result = .ok file
      ∧ core.run (d.n.toNat + 5) { t with agenda := [.host (.startDec file)] } = .next u
      ∧ u.dec.result = .ok (d, ps)
end

