-- ==== Sys2Proof/Laws/Operands.lean ====
section
/-! SUPPORT. What the operand checks, the bit fields and the byte order say, in plain arithmetic. -/

namespace Sys2Proof

/-- The word types have the widths and sizes that R8 names. -/
theorem widths_of_config :
    Byte = BitVec Config.channelBits ∧ Word = BitVec Config.dimBits ∧ Count = BitVec Config.countBits
      ∧ Slot = Fin Config.cacheSlots ∧ Slot = Fin Config.hashMod := ⟨rfl, rfl, rfl, rfl, rfl⟩

theorem wellFormed_diff (dr dg db : Int) :
    (Instr.diff dr dg db).wellFormed = true
      ↔ (-2 ≤ dr ∧ dr ≤ 1) ∧ (-2 ≤ dg ∧ dg ≤ 1) ∧ (-2 ≤ db ∧ db ≤ 1) := by
  simp only [Instr.wellFormed, Bool.and_eq_true, decide_eq_true_eq]
  simp only [Config.diffLo, Config.diffHi, and_assoc]

theorem wellFormed_luma (dg drDg dbDg : Int) :
    (Instr.luma dg drDg dbDg).wellFormed = true
      ↔ (-32 ≤ dg ∧ dg ≤ 31) ∧ (-8 ≤ drDg ∧ drDg ≤ 7) ∧ (-8 ≤ dbDg ∧ dbDg ≤ 7) := by
  simp only [Instr.wellFormed, Bool.and_eq_true, decide_eq_true_eq]
  simp only [Config.lumaDgLo, Config.lumaDgHi, Config.lumaRelLo, Config.lumaRelHi, and_assoc]

theorem wellFormed_run (n : Nat) : (Instr.run n).wellFormed = true ↔ 1 ≤ n ∧ n ≤ 62 := by
  simp only [Instr.wellFormed, decide_eq_true_eq]
  rfl

theorem bits_lt (b : Byte) (hi lo : Nat) : bits b hi lo < 2 ^ (hi + 1 - lo) :=
  Nat.mod_lt _ (Nat.two_pow_pos _)

theorem bits_76 (b : Byte) : bits b 7 6 = b.toNat / 64 := by
  have := b.isLt
  simp only [bits]
  omega

theorem bits_50 (b : Byte) : bits b 5 0 = b.toNat % 64 := by simp [bits]
theorem bits_54 (b : Byte) : bits b 5 4 = b.toNat / 16 % 4 := by simp [bits]
theorem bits_32 (b : Byte) : bits b 3 2 = b.toNat / 4 % 4 := by simp [bits]
theorem bits_10 (b : Byte) : bits b 1 0 = b.toNat % 4 := by simp [bits]

theorem bits_74 (b : Byte) : bits b 7 4 = b.toNat / 16 := by
  have := b.isLt
  simp only [bits]
  omega

theorem bits_30 (b : Byte) : bits b 3 0 = b.toNat % 16 := by simp [bits]

theorem toNat_be32 (w : Word) :
    (be32 w).map BitVec.toNat
      = [w.toNat / 2 ^ 24, w.toNat / 2 ^ 16 % 256, w.toNat / 2 ^ 8 % 256, w.toNat % 256] := by
  have := w.isLt
  simp [be32]
  omega

theorem unbe32_toNat (b0 b1 b2 b3 : Byte) (rest : List Byte) :
    (unbe32 (b0 :: b1 :: b2 :: b3 :: rest)).toNat
      = b0.toNat * 2 ^ 24 + b1.toNat * 2 ^ 16 + b2.toNat * 2 ^ 8 + b3.toNat := by
  have h0 := b0.isLt
  have h1 := b1.isLt
  have h2 := b2.isLt
  have h3 := b3.isLt
  simp only [unbe32, BitVec.toNat_ofNat]
  omega

/-- The byte order is one order: assembling what was laid out gives the word back (R10, R28). -/
theorem unbe32_be32 (w : Word) (rest : List Byte) : unbe32 (be32 w ++ rest) = w := by
  have := w.isLt
  apply BitVec.eq_of_toNat_eq
  simp [be32, unbe32]
  omega

theorem be32_unbe32 (b0 b1 b2 b3 : Byte) (rest : List Byte) :
    be32 (unbe32 (b0 :: b1 :: b2 :: b3 :: rest)) = [b0, b1, b2, b3] := by
  have h0 := b0.isLt
  have h1 := b1.isLt
  have h2 := b2.isLt
  have h3 := b3.isLt
  simp only [be32, unbe32_toNat, List.cons.injEq, and_true]
  refine ⟨?_, ?_, ?_, ?_⟩ <;>
    (apply BitVec.eq_of_toNat_eq; simp only [BitVec.toNat_ofNat]; omega)

namespace Machine

theorem inDiff_iff (d : Int) : inDiff d = true ↔ -2 ≤ d ∧ d ≤ 1 := by
  simp only [inDiff, Bool.and_eq_true, decide_eq_true_eq]
  simp only [Config.diffLo, Config.diffHi]

theorem inLumaDg_iff (d : Int) : inLumaDg d = true ↔ -32 ≤ d ∧ d ≤ 31 := by
  simp only [inLumaDg, Bool.and_eq_true, decide_eq_true_eq]
  simp only [Config.lumaDgLo, Config.lumaDgHi]

theorem inLumaRel_iff (d : Int) : inLumaRel d = true ↔ -8 ≤ d ∧ d ≤ 7 := by
  simp only [inLumaRel, Bool.and_eq_true, decide_eq_true_eq]
  simp only [Config.lumaRelLo, Config.lumaRelHi]

/-- The hash is a residue modulo 64 (R46). -/
theorem pixelHash_val (p : Pixel) :
    (pixelHash p).val = (p.r.toNat * 3 + p.g.toNat * 5 + p.b.toNat * 7 + p.a.toNat * 11) % 64 := rfl

/-- Encoder deltas do not wrap (R60). -/
theorem delta_eq (x y : Byte) : delta x y = (x.toNat : Int) - (y.toNat : Int) := rfl

/-- A decoded DIFF is always executed (R79). -/
theorem diffAllowed_true (p : Pixel) (dr dg db : Int) : diffAllowed p dr dg db = true := rfl

theorem channelsLegal_iff (c : Byte) : channelsLegal c = true ↔ c = 3 ∨ c = 4 := by
  simp [channelsLegal, Config.channels]

theorem channelsLegal_false_iff (c : Byte) : channelsLegal c = false ↔ ¬ (c = 3 ∨ c = 4) := by
  simp [channelsLegal, Config.channels]

theorem headerLegal_iff (w h : Word) (c cs : Byte) :
    headerLegal w h c cs = true ↔ w ≠ 0 ∧ h ≠ 0 ∧ (c = 3 ∨ c = 4) ∧ (cs = 0 ∨ cs = 1) := by
  simp [headerLegal, channelsLegal, Config.channels, and_assoc]

theorem literalMismatch_rgb (c : Byte) : literalMismatch 0xFE c = true ↔ c ≠ 3 := by
  simp [literalMismatch]

theorem literalMismatch_rgba (c : Byte) : literalMismatch 0xFF c = true ↔ c ≠ 4 := by
  simp [literalMismatch]

theorem literalMismatch_other (t c : Byte) (h : t ≠ 0xFE) (h' : t ≠ 0xFF) :
    literalMismatch t c = false := by
  unfold literalMismatch
  rw [decide_eq_false h, decide_eq_false h']
  rfl

/-- Adding an exact delta gives the channel back, with no wrap (R127). -/
theorem addDelta_exact (old new : Byte) (d : Int) (h : (old.toNat : Int) + d = new.toNat) :
    addDelta old d = new := by
  simp [addDelta, h]

/-- `N` is the exact product: nothing overflows in 64 bits (R17). -/
theorem n_toNat (d : Cfg) : d.n.toNat = d.w.toNat * d.h.toNat := by
  have hw : d.w.toNat < 2 ^ 32 := d.w.isLt
  have hh : d.h.toNat < 2 ^ 32 := d.h.isLt
  have h : d.w.toNat * d.h.toNat < 2 ^ 64 := by
    calc d.w.toNat * d.h.toNat ≤ d.w.toNat * 2 ^ 32 := Nat.mul_le_mul_left _ hh.le
      _ < 2 ^ 32 * 2 ^ 32 := by omega
      _ = 2 ^ 64 := by norm_num
  simp only [Cfg.n, BitVec.toNat_mul, BitVec.toNat_setWidth]
  rw [Nat.mod_eq_of_lt (by omega : d.w.toNat < 2 ^ 64), Nat.mod_eq_of_lt (by omega : d.h.toNat < 2 ^ 64),
    Nat.mod_eq_of_lt h]

end Machine

end Sys2Proof
end

