-- ==== Sys2Proof/Laws/State.lean ====
section
/-! SUPPORT. The small lemmas of State and of the updates of its parts: one per field per update. -/

namespace Sys2Proof.Machine

/-! ### Registers -/

@[simp] theorem Regs.update_prev (r : Regs) (p : Pixel) : (r.update p).prev = r.prev := rfl
@[simp] theorem Regs.update_run (r : Regs) (p : Pixel) : (r.update p).run = r.run := rfl
@[simp] theorem Regs.update_pxi (r : Regs) (p : Pixel) : (r.update p).pxi = r.pxi := rfl
@[simp] theorem Regs.update_cfg (r : Regs) (p : Pixel) : (r.update p).cfg = r.cfg := rfl
@[simp] theorem Regs.update_st (r : Regs) (p : Pixel) : (r.update p).st = r.st := rfl
@[simp] theorem Regs.update_err (r : Regs) (p : Pixel) : (r.update p).err = r.err := rfl

@[simp] theorem Regs.setPrev_prev (r : Regs) (p : Pixel) : (r.setPrev p).prev = p := rfl
@[simp] theorem Regs.setPrev_run (r : Regs) (p : Pixel) : (r.setPrev p).run = r.run := rfl
@[simp] theorem Regs.setPrev_cache (r : Regs) (p : Pixel) : (r.setPrev p).cache = r.cache := rfl
@[simp] theorem Regs.setPrev_pxi (r : Regs) (p : Pixel) : (r.setPrev p).pxi = r.pxi := rfl
@[simp] theorem Regs.setPrev_cfg (r : Regs) (p : Pixel) : (r.setPrev p).cfg = r.cfg := rfl
@[simp] theorem Regs.setPrev_st (r : Regs) (p : Pixel) : (r.setPrev p).st = r.st := rfl
@[simp] theorem Regs.setPrev_err (r : Regs) (p : Pixel) : (r.setPrev p).err = r.err := rfl

@[simp] theorem Regs.nextPixel_prev (r : Regs) : r.nextPixel.prev = r.prev := rfl
@[simp] theorem Regs.nextPixel_run (r : Regs) : r.nextPixel.run = r.run := rfl
@[simp] theorem Regs.nextPixel_cache (r : Regs) : r.nextPixel.cache = r.cache := rfl
@[simp] theorem Regs.nextPixel_pxi (r : Regs) : r.nextPixel.pxi = r.pxi + 1 := rfl
@[simp] theorem Regs.nextPixel_cfg (r : Regs) : r.nextPixel.cfg = r.cfg := rfl
@[simp] theorem Regs.nextPixel_st (r : Regs) : r.nextPixel.st = r.st := rfl
@[simp] theorem Regs.nextPixel_err (r : Regs) : r.nextPixel.err = r.err := rfl

@[simp] theorem Regs.setRun_prev (r : Regs) (v : BitVec 6) : (r.setRun v).prev = r.prev := rfl
@[simp] theorem Regs.setRun_run (r : Regs) (v : BitVec 6) : (r.setRun v).run = v := rfl
@[simp] theorem Regs.setRun_cache (r : Regs) (v : BitVec 6) : (r.setRun v).cache = r.cache := rfl
@[simp] theorem Regs.setRun_pxi (r : Regs) (v : BitVec 6) : (r.setRun v).pxi = r.pxi := rfl
@[simp] theorem Regs.setRun_cfg (r : Regs) (v : BitVec 6) : (r.setRun v).cfg = r.cfg := rfl
@[simp] theorem Regs.setRun_st (r : Regs) (v : BitVec 6) : (r.setRun v).st = r.st := rfl
@[simp] theorem Regs.setRun_err (r : Regs) (v : BitVec 6) : (r.setRun v).err = r.err := rfl

@[simp] theorem Regs.setSt_prev (r : Regs) (v : Status) : (r.setSt v).prev = r.prev := rfl
@[simp] theorem Regs.setSt_run (r : Regs) (v : Status) : (r.setSt v).run = r.run := rfl
@[simp] theorem Regs.setSt_cache (r : Regs) (v : Status) : (r.setSt v).cache = r.cache := rfl
@[simp] theorem Regs.setSt_pxi (r : Regs) (v : Status) : (r.setSt v).pxi = r.pxi := rfl
@[simp] theorem Regs.setSt_cfg (r : Regs) (v : Status) : (r.setSt v).cfg = r.cfg := rfl
@[simp] theorem Regs.setSt_st (r : Regs) (v : Status) : (r.setSt v).st = v := rfl
@[simp] theorem Regs.setSt_err (r : Regs) (v : Status) : (r.setSt v).err = r.err := rfl

@[simp] theorem Regs.setCfg_prev (r : Regs) (d : Cfg) : (r.setCfg d).prev = r.prev := rfl
@[simp] theorem Regs.setCfg_run (r : Regs) (d : Cfg) : (r.setCfg d).run = r.run := rfl
@[simp] theorem Regs.setCfg_cache (r : Regs) (d : Cfg) : (r.setCfg d).cache = r.cache := rfl
@[simp] theorem Regs.setCfg_pxi (r : Regs) (d : Cfg) : (r.setCfg d).pxi = r.pxi := rfl
@[simp] theorem Regs.setCfg_cfg (r : Regs) (d : Cfg) : (r.setCfg d).cfg = d := rfl
@[simp] theorem Regs.setCfg_st (r : Regs) (d : Cfg) : (r.setCfg d).st = r.st := rfl
@[simp] theorem Regs.setCfg_err (r : Regs) (d : Cfg) : (r.setCfg d).err = r.err := rfl

@[simp] theorem Regs.raise_prev (k : ErrKind) (r : Regs) : (r.raise k).prev = r.prev := rfl
@[simp] theorem Regs.raise_run (k : ErrKind) (r : Regs) : (r.raise k).run = r.run := rfl
@[simp] theorem Regs.raise_cache (k : ErrKind) (r : Regs) : (r.raise k).cache = r.cache := rfl
@[simp] theorem Regs.raise_pxi (k : ErrKind) (r : Regs) : (r.raise k).pxi = r.pxi := rfl
@[simp] theorem Regs.raise_cfg (k : ErrKind) (r : Regs) : (r.raise k).cfg = r.cfg := rfl
@[simp] theorem Regs.raise_st (k : ErrKind) (r : Regs) : (r.raise k).st = .error := rfl
@[simp] theorem Regs.raise_err (k : ErrKind) (r : Regs) : (r.raise k).err = k.code := rfl

@[simp] theorem Regs.start_prev (r : Regs) : r.start.prev = ⟨0, 0, 0, 255⟩ := rfl
@[simp] theorem Regs.start_run (r : Regs) : r.start.run = 0 := rfl
@[simp] theorem Regs.start_cache (r : Regs) : r.start.cache = Vector.replicate Config.cacheSlots ⟨0, 0, 0, 255⟩ := rfl
@[simp] theorem Regs.start_pxi (r : Regs) : r.start.pxi = 0 := rfl
@[simp] theorem Regs.start_cfg (r : Regs) : r.start.cfg = r.cfg := rfl
@[simp] theorem Regs.start_st (r : Regs) : r.start.st = .header := rfl
@[simp] theorem Regs.start_err (r : Regs) : r.start.err = 0 := rfl

/-! ### The encoder -/

@[simp] theorem Enc.emit_regs (e : Enc) (bs : List Byte) : (e.emit bs).regs = e.regs := rfl
@[simp] theorem Enc.emit_pixIn (e : Enc) (bs : List Byte) : (e.emit bs).pixIn = e.pixIn := rfl
@[simp] theorem Enc.emit_byteOut (e : Enc) (bs : List Byte) :
    (e.emit bs).byteOut = e.byteOut.writeBytes e.outLen bs := rfl
@[simp] theorem Enc.emit_outLen (e : Enc) (bs : List Byte) :
    (e.emit bs).outLen = e.outLen + bs.length := rfl

@[simp] theorem Enc.emit_streamed (e : Enc) (bs : List Byte) : (e.emit bs).streamed = e.streamed := rfl

@[simp] theorem Enc.start_regs (e : Enc) (o : Bool) (g : Grid) : (e.start o g).regs = e.regs.start := rfl
@[simp] theorem Enc.start_pixIn (e : Enc) (o : Bool) (g : Grid) : (e.start o g).pixIn = g := rfl
@[simp] theorem Enc.start_streamed (e : Enc) (o : Bool) (g : Grid) : (e.start o g).streamed = o := rfl
@[simp] theorem Enc.start_byteOut (e : Enc) (o : Bool) (g : Grid) : (e.start o g).byteOut = [] := rfl
@[simp] theorem Enc.start_outLen (e : Enc) (o : Bool) (g : Grid) : (e.start o g).outLen = 0 := rfl

/-- A pixel handed over in a streamed call that lacks one is appended to `pix_in`, and nothing else changes. -/
theorem Enc.deliver_of (e : Enc) (p : Pixel) (hc : e.regs.st.inCall = true) (hs : e.streamed = true)
    (hn : e.pixIn.chans.length < e.regs.cfg.n.toNat) :
    e.deliver p = { e with pixIn := e.pixIn.append (channelBytes e.regs.cfg.c p) } := by
  simp [Enc.deliver, hc, hs, hn]

/-- In any other encoder it has no effect. -/
theorem Enc.deliver_ignored (e : Enc) (p : Pixel)
    (h : e.regs.st.inCall = false ∨ e.streamed = false ∨ e.regs.cfg.n.toNat ≤ e.pixIn.chans.length) :
    e.deliver p = e := by
  rcases h with h | h | h <;> simp [Enc.deliver, h]

@[simp] theorem Enc.deliver_regs (e : Enc) (p : Pixel) : (e.deliver p).regs = e.regs := by
  unfold Enc.deliver
  split <;> rfl

@[simp] theorem Enc.deliver_streamed (e : Enc) (p : Pixel) : (e.deliver p).streamed = e.streamed := by
  unfold Enc.deliver
  split <;> rfl

@[simp] theorem Enc.deliver_byteOut (e : Enc) (p : Pixel) : (e.deliver p).byteOut = e.byteOut := by
  unfold Enc.deliver
  split <;> rfl

@[simp] theorem Enc.deliver_outLen (e : Enc) (p : Pixel) : (e.deliver p).outLen = e.outLen := by
  unfold Enc.deliver
  split <;> rfl

/-! ### The decoder -/

@[simp] theorem Dec.advance_regs (d : Dec) (n : Nat) : (d.advance n).regs = d.regs := rfl
@[simp] theorem Dec.advance_pos (d : Dec) (n : Nat) : (d.advance n).pos = d.pos + BitVec.ofNat 64 n := rfl
@[simp] theorem Dec.advance_fileIn (d : Dec) (n : Nat) : (d.advance n).fileIn = d.fileIn := rfl
@[simp] theorem Dec.advance_len (d : Dec) (n : Nat) : (d.advance n).len = d.len := rfl
@[simp] theorem Dec.advance_bodyOnly (d : Dec) (n : Nat) : (d.advance n).bodyOnly = d.bodyOnly := rfl
@[simp] theorem Dec.advance_headerRead (d : Dec) (n : Nat) : (d.advance n).headerRead = d.headerRead := rfl
@[simp] theorem Dec.advance_descOut (d : Dec) (n : Nat) : (d.advance n).descOut = d.descOut := rfl
@[simp] theorem Dec.advance_pixOut (d : Dec) (n : Nat) : (d.advance n).pixOut = d.pixOut := rfl
@[simp] theorem Dec.advance_cellAddr (d : Dec) (n : Nat) : (d.advance n).cellAddr = d.cellAddr := rfl

@[simp] theorem Dec.produce_regs (d : Dec) (p : Pixel) : (d.produce p).regs = d.regs.nextPixel := rfl
@[simp] theorem Dec.produce_pos (d : Dec) (p : Pixel) : (d.produce p).pos = d.pos := rfl
@[simp] theorem Dec.produce_fileIn (d : Dec) (p : Pixel) : (d.produce p).fileIn = d.fileIn := rfl
@[simp] theorem Dec.produce_len (d : Dec) (p : Pixel) : (d.produce p).len = d.len := rfl
@[simp] theorem Dec.produce_bodyOnly (d : Dec) (p : Pixel) : (d.produce p).bodyOnly = d.bodyOnly := rfl
@[simp] theorem Dec.produce_headerRead (d : Dec) (p : Pixel) : (d.produce p).headerRead = d.headerRead := rfl
@[simp] theorem Dec.produce_descOut (d : Dec) (p : Pixel) : (d.produce p).descOut = d.descOut := rfl
@[simp] theorem Dec.produce_pixOut (d : Dec) (p : Pixel) :
    (d.produce p).pixOut = d.pixOut.writeBytes d.cellAddr (channelBytes d.regs.cfg.c p) := rfl

@[simp] theorem Dec.start_regs (d : Dec) (o : Bool) (bs : List Byte) : (d.start o bs).regs = d.regs.start := rfl
@[simp] theorem Dec.start_pos (d : Dec) (o : Bool) (bs : List Byte) : (d.start o bs).pos = 0 := rfl
@[simp] theorem Dec.start_fileIn (d : Dec) (o : Bool) (bs : List Byte) :
    (d.start o bs).fileIn = Memory.ofBytes bs := rfl
@[simp] theorem Dec.start_len (d : Dec) (o : Bool) (bs : List Byte) :
    (d.start o bs).len = BitVec.ofNat 64 bs.length := rfl
@[simp] theorem Dec.start_bodyOnly (d : Dec) (o : Bool) (bs : List Byte) : (d.start o bs).bodyOnly = o := rfl
@[simp] theorem Dec.start_headerRead (d : Dec) (o : Bool) (bs : List Byte) :
    (d.start o bs).headerRead = false := rfl
@[simp] theorem Dec.start_descOut (d : Dec) (o : Bool) (bs : List Byte) :
    (d.start o bs).descOut = ⟨0, 0, 0, 0⟩ := rfl
@[simp] theorem Dec.start_pixOut (d : Dec) (o : Bool) (bs : List Byte) : (d.start o bs).pixOut = [] := rfl

/-! ### The whole state -/

@[simp] theorem encNext_eq (f : Enc → Enc) (s : State) : s.encNext f = .next { s with enc := f s.enc } := rfl
@[simp] theorem decNext_eq (f : Dec → Dec) (s : State) : s.decNext f = .next { s with dec := f s.dec } := rfl
@[simp] theorem andThen_next (s : State) (f : State → Result) : andThen (.next s) f = f s := rfl

theorem raise_dec (k : ErrKind) (s : State) (h : s.active = .dec) :
    s.raise k = { s with dec := { s.dec with regs := s.dec.regs.raise k } } := by
  simp [State.raise, h]

theorem raise_enc (k : ErrKind) (s : State) (h : s.active = .enc) :
    s.raise k = { s with enc := { s.enc with regs := s.enc.regs.raise k } } := by
  simp [State.raise, h]

/-- Taking an error touches the control registers of the active engine alone (R106). -/
theorem raise_frame (k : ErrKind) (s : State) :
    (s.raise k).active = s.active ∧ (s.raise k).agenda = s.agenda
      ∧ (s.active = .dec → (s.raise k).enc = s.enc) ∧ (s.active = .enc → (s.raise k).dec = s.dec) := by
  cases h : s.active <;> simp [State.raise, h]

theorem raise_code_ne_zero (k : ErrKind) : k.code ≠ 0 := by
  cases k <;> decide

end Sys2Proof.Machine
end

