-- ==== Sys2Proof/Laws/Memory.lean ====
section
/-! SUPPORT. Memory: a read after a write, and that every operation keeps the canonical form. -/

namespace Sys2Proof.Machine

theorem Memory.read_erase (m : Memory) (a b : Nat) :
    (m.erase a).read b = if b = a then Memory.background else m.read b := by
  induction m with
  | nil => simp [Memory.erase, Memory.read]
  | cons c m ih =>
    obtain ⟨k, w⟩ := c
    by_cases hk : k = a
    · subst hk
      by_cases hb : b = k
      · subst hb; simp [Memory.erase, ih]
      · simp [Memory.erase, Memory.read, ih, hb, Ne.symm hb]
    · by_cases hb : k = b
      · subst hb; simp [Memory.erase, Memory.read, hk]
      · simp [Memory.erase, Memory.read, hk, hb, ih]

theorem Memory.read_insert (m : Memory) (a b : Nat) (v : Byte)
    (ha : ∀ c ∈ m, c.1 ≠ a) :
    (m.insert a v).read b = if b = a then v else m.read b := by
  induction m with
  | nil =>
    by_cases hb : b = a
    · simp [Memory.insert, Memory.read, hb]
    · simp [Memory.insert, Memory.read, hb, Ne.symm hb]
  | cons c m ih =>
    obtain ⟨k, w⟩ := c
    have hk : k ≠ a := ha (k, w) (by simp)
    have ih := ih (fun c hc => ha c (by simp [hc]))
    by_cases hlt : a < k
    · by_cases hb : b = a
      · simp [Memory.insert, Memory.read, hlt, hb]
      · simp [Memory.insert, Memory.read, hlt, hb, Ne.symm hb]
    · by_cases hb : k = b
      · subst hb; simp [Memory.insert, Memory.read, hlt, hk]
      · simp [Memory.insert, Memory.read, hlt, hb, ih]

theorem Memory.erase_absent (m : Memory) (a : Nat) : ∀ c ∈ m.erase a, c.1 ≠ a := by
  induction m with
  | nil => simp [Memory.erase]
  | cons c m ih =>
    obtain ⟨k, w⟩ := c
    by_cases hk : k = a
    · simpa [Memory.erase, hk] using ih
    · intro c hc
      simp only [Memory.erase, hk, if_false, List.mem_cons] at hc
      rcases hc with rfl | hc
      · exact hk
      · exact ih c hc

/-- What a read finds after a write, in any memory. -/
theorem Memory.read_write (m : Memory) (a b : Nat) (v : Byte) :
    (m.write a v).read b = if b = a then v else m.read b := by
  unfold Memory.write
  by_cases hv : v = Memory.background
  · simp [hv, Memory.read_erase]
  · rw [if_neg hv, Memory.read_insert _ _ _ _ (Memory.erase_absent m a),
      Memory.read_erase]
    by_cases hb : b = a <;> simp [hb]

/-- What a read finds after a row of writes. -/
theorem Memory.read_writeBytes (m : Memory) (a x : Nat) (bs : List Byte) :
    (m.writeBytes a bs).read x
      = if a ≤ x ∧ x < a + bs.length then bs.getD (x - a) 0 else m.read x := by
  induction bs generalizing m a with
  | nil => simp [Memory.writeBytes]
  | cons v bs ih =>
    simp only [Memory.writeBytes, ih, Memory.read_write, List.length_cons]
    by_cases h1 : x = a
    · subst h1
      simp
    · by_cases h2 : a + 1 ≤ x ∧ x < a + 1 + bs.length
      · have h3 : a ≤ x ∧ x < a + (bs.length + 1) := by omega
        have h4 : x - a = (x - (a + 1)) + 1 := by omega
        rw [if_pos h2, if_pos h3, h4, List.getD_cons_succ]
      · have h3 : ¬ (a ≤ x ∧ x < a + (bs.length + 1)) := by omega
        rw [if_neg h2, if_neg h3, if_neg h1]

theorem Memory.length_readBytes (m : Memory) (a n : Nat) : (m.readBytes a n).length = n := by
  induction n generalizing a with
  | zero => rfl
  | succ n ih => simp [Memory.readBytes, ih]

theorem Memory.getElem?_readBytes (m : Memory) (a n i : Nat) (h : i < n) :
    (m.readBytes a n)[i]? = some (m.read (a + i)) := by
  induction n generalizing a i with
  | zero => omega
  | succ n ih =>
    cases i with
    | zero => simp [Memory.readBytes]
    | succ i =>
      simp only [Memory.readBytes, List.getElem?_cons_succ]
      rw [ih (a + 1) i (by omega)]
      congr 2
      omega

/-- Bytes read where no byte of the row differs are the same. -/
theorem Memory.readBytes_congr (m m' : Memory) (a n : Nat)
    (h : ∀ x, a ≤ x → x < a + n → m'.read x = m.read x) : m'.readBytes a n = m.readBytes a n := by
  induction n generalizing a with
  | zero => rfl
  | succ n ih =>
    simp only [Memory.readBytes]
    rw [h a (by omega) (by omega), ih (a + 1) (fun x h1 h2 => h x (by omega) (by omega))]

theorem Memory.readBytes_eq_iff (m : Memory) (a : Nat) (bs : List Byte) :
    m.readBytes a bs.length = bs ↔ ∀ i, i < bs.length → m.read (a + i) = bs.getD i 0 := by
  induction bs generalizing a with
  | nil => simp [Memory.readBytes]
  | cons v bs ih =>
    simp only [List.length_cons, Memory.readBytes, List.cons.injEq, ih]
    constructor
    · rintro ⟨h0, h⟩ i hi
      cases i with
      | zero => simpa using h0
      | succ i =>
        rw [List.getD_cons_succ, ← h i (by omega)]
        congr 1
        omega
    · intro h
      refine ⟨by simpa using h 0 (by omega), fun i hi => ?_⟩
      have := h (i + 1) (by omega)
      rw [List.getD_cons_succ] at this
      rw [← this]
      congr 1
      omega

/-- A row of writes reads back. -/
theorem Memory.readBytes_writeBytes (m : Memory) (a : Nat) (bs : List Byte) :
    (m.writeBytes a bs).readBytes a bs.length = bs := by
  rw [Memory.readBytes_eq_iff]
  intro i hi
  rw [Memory.read_writeBytes, if_pos (by omega)]
  congr 1
  omega

theorem Memory.readBytes_append (m : Memory) (a n k : Nat) :
    m.readBytes a (n + k) = m.readBytes a n ++ m.readBytes (a + n) k := by
  induction n generalizing a with
  | zero => simp [Memory.readBytes]
  | succ n ih =>
    rw [show n + 1 + k = (n + k) + 1 by omega]
    simp only [Memory.readBytes, List.cons_append, ih]
    rw [show a + 1 + n = a + (n + 1) by omega]

/-! ### The canonical form -/

theorem Memory.wfAbove_mono {lo lo' : Nat} {m : Memory} (h : lo ≤ lo') (hw : Memory.wfAbove lo' m = true) :
    Memory.wfAbove lo m = true := by
  cases m with
  | nil => rfl
  | cons c m =>
    obtain ⟨k, w⟩ := c
    simp only [Memory.wfAbove, Bool.and_eq_true, decide_eq_true_eq] at hw ⊢
    exact ⟨⟨by omega, hw.1.2⟩, hw.2⟩

theorem Memory.wfAbove_erase {lo : Nat} {m : Memory} (a : Nat) (hw : Memory.wfAbove lo m = true) :
    Memory.wfAbove lo (m.erase a) = true := by
  induction m generalizing lo with
  | nil => rfl
  | cons c m ih =>
    obtain ⟨k, w⟩ := c
    simp only [Memory.wfAbove, Bool.and_eq_true, decide_eq_true_eq] at hw
    by_cases hk : k = a
    · simp only [Memory.erase, hk, if_true]
      exact ih (Memory.wfAbove_mono (by omega) hw.2)
    · simp only [Memory.erase, hk, if_false, Memory.wfAbove, Bool.and_eq_true, decide_eq_true_eq]
      exact ⟨hw.1, ih hw.2⟩

theorem Memory.wfAbove_insert {lo : Nat} {m : Memory} (a : Nat) (v : Byte) (hlo : lo ≤ a)
    (hv : v ≠ Memory.background) (ha : ∀ c ∈ m, c.1 ≠ a) (hw : Memory.wfAbove lo m = true) :
    Memory.wfAbove lo (m.insert a v) = true := by
  induction m generalizing lo with
  | nil => simp [Memory.insert, Memory.wfAbove, hlo, hv]
  | cons c m ih =>
    obtain ⟨k, w⟩ := c
    have hk : k ≠ a := ha (k, w) (by simp)
    simp only [Memory.wfAbove, Bool.and_eq_true, decide_eq_true_eq] at hw
    by_cases hlt : a < k
    · simp only [Memory.insert, hlt, if_true, Memory.wfAbove, Bool.and_eq_true, decide_eq_true_eq]
      exact ⟨⟨hlo, hv⟩, ⟨by omega, hw.1.2⟩, hw.2⟩
    · simp only [Memory.insert, hlt, if_false, Memory.wfAbove, Bool.and_eq_true, decide_eq_true_eq]
      exact ⟨hw.1, ih (by omega) (fun c hc => ha c (by simp [hc])) hw.2⟩

theorem Memory.wf_nil : Memory.wf [] = true := rfl

theorem Memory.wf_write (m : Memory) (a : Nat) (v : Byte) (hw : m.wf = true) : (m.write a v).wf = true := by
  unfold Memory.write
  by_cases hv : v = Memory.background
  · rw [if_pos hv]
    exact Memory.wfAbove_erase a hw
  · rw [if_neg hv]
    exact Memory.wfAbove_insert a v (Nat.zero_le a) hv (Memory.erase_absent m a)
      (Memory.wfAbove_erase a hw)

theorem Memory.wf_writeBytes (m : Memory) (a : Nat) (bs : List Byte) (hw : m.wf = true) :
    (m.writeBytes a bs).wf = true := by
  induction bs generalizing m a with
  | nil => exact hw
  | cons v bs ih => exact ih _ _ (Memory.wf_write m a v hw)

theorem Memory.wf_ofBytes (bs : List Byte) : (Memory.ofBytes bs).wf = true :=
  Memory.wf_writeBytes _ _ _ Memory.wf_nil

theorem Memory.wf_writePixels (m : Memory) (k : Nat) (ps : List (List Byte)) (hw : m.wf = true) :
    (m.writePixels k ps).wf = true := by
  induction ps generalizing m k with
  | nil => exact hw
  | cons p ps ih => exact ih _ _ (Memory.wf_writeBytes _ _ _ hw)

theorem Grid.wf_ofPixels (ps : List (List Byte)) : (Grid.ofPixels ps).mem.wf = true :=
  Memory.wf_writePixels _ _ _ Memory.wf_nil

/-- The memories of the reset state have the canonical form. -/
theorem reset_memories_wf :
    State.reset.enc.pixIn.mem.wf = true ∧ State.reset.enc.byteOut.wf = true
      ∧ State.reset.dec.fileIn.wf = true ∧ State.reset.dec.pixOut.wf = true := by
  decide

/-! ### Pixels, one row of at most four bytes each (log 5) -/

theorem Memory.read_writePixels_below (m : Memory) (k : Nat) (ps : List (List Byte)) (x : Nat)
    (hx : x < pixelAddr k) : (m.writePixels k ps).read x = m.read x := by
  induction ps generalizing m k with
  | nil => rfl
  | cons p ps ih =>
    have h4 : (p.take 4).length ≤ 4 := List.length_take_le _ _
    simp only [pixelAddr] at hx
    rw [Memory.writePixels, ih _ _ (by simp only [pixelAddr]; omega), Memory.read_writeBytes,
      if_neg (by simp only [pixelAddr]; omega)]

/-- Every pixel of at most four channels is read back from where it was stored. -/
theorem Memory.readBytes_writePixels (m : Memory) (k j : Nat) (ps : List (List Byte)) (p : List Byte)
    (hp : ps[j]? = some p) (h4 : p.length ≤ 4) :
    (m.writePixels k ps).readBytes (pixelAddr (k + j)) p.length = p := by
  induction ps generalizing m k j with
  | nil => simp at hp
  | cons q ps ih =>
    cases j with
    | zero =>
      simp only [List.getElem?_cons_zero, Option.some.injEq] at hp
      subst hp
      rw [Memory.writePixels, List.take_of_length_le h4]
      rw [Memory.readBytes_congr (m.writeBytes (pixelAddr k) q) _ _ _ ?_]
      · exact Memory.readBytes_writeBytes _ _ _
      · intro x _ h2
        exact Memory.read_writePixels_below _ _ _ _ (by simp only [pixelAddr, Nat.add_zero] at *; omega)
    | succ j =>
      simp only [List.getElem?_cons_succ] at hp
      rw [Memory.writePixels, show k + (j + 1) = k + 1 + j by omega]
      exact ih _ _ _ hp

theorem Memory.writePixels_append (m : Memory) (k : Nat) (ps qs : List (List Byte)) :
    m.writePixels k (ps ++ qs) = (m.writePixels k ps).writePixels (k + ps.length) qs := by
  induction ps generalizing m k with
  | nil => rfl
  | cons p ps ih =>
    rw [List.cons_append, Memory.writePixels, ih, Memory.writePixels, List.length_cons,
      show k + 1 + ps.length = k + (ps.length + 1) by omega]

@[simp] theorem Grid.append_chans (g : Grid) (p : List Byte) : (g.append p).chans = g.chans ++ [p.length] := rfl

theorem Grid.wf_append (g : Grid) (p : List Byte) (h : g.mem.wf = true) : (g.append p).mem.wf = true :=
  Memory.wf_writePixels _ _ _ h

/-- A grid handed over pixel by pixel is the grid handed over at once (R116, R117). -/
theorem Grid.ofPixels_append (ps : List (List Byte)) (p : List Byte) :
    (Grid.ofPixels ps).append p = Grid.ofPixels (ps ++ [p]) := by
  simp [Grid.append, Grid.ofPixels, Memory.writePixels_append]

/-- The pixel handed over stands after the others, which stay. -/
theorem Grid.readBytes_append (g : Grid) (p : List Byte) (h4 : p.length ≤ 4) :
    (g.append p).mem.readBytes (pixelAddr g.chans.length) p.length = p :=
  Memory.readBytes_writePixels _ _ 0 [p] p rfl h4

theorem Grid.read_append_below (g : Grid) (p : List Byte) (x : Nat) (hx : x < pixelAddr g.chans.length) :
    (g.append p).mem.read x = g.mem.read x :=
  Memory.read_writePixels_below _ _ _ _ hx

/-! ### Equal memories are equal data -/

theorem Memory.read_below {lo : Nat} {m : Memory} (h : Memory.wfAbove lo m = true) (a : Nat) (ha : a < lo) :
    m.read a = Memory.background := by
  induction m generalizing lo with
  | nil => rfl
  | cons c m ih =>
    obtain ⟨k, w⟩ := c
    simp only [Memory.wfAbove, Bool.and_eq_true, decide_eq_true_eq] at h
    simp only [Memory.read]
    rw [if_neg (by omega)]
    exact ih h.2 (by omega)

theorem Memory.ext_above {lo : Nat} {m m' : Memory} (h : Memory.wfAbove lo m = true)
    (h' : Memory.wfAbove lo m' = true) (hr : ∀ a, m.read a = m'.read a) : m = m' := by
  induction m generalizing lo m' with
  | nil =>
    cases m' with
    | nil => rfl
    | cons c m' =>
      obtain ⟨k, w⟩ := c
      simp only [Memory.wfAbove, Bool.and_eq_true, decide_eq_true_eq] at h'
      have := hr k
      simp only [Memory.read, if_true] at this
      exact absurd this.symm h'.1.2
  | cons c m ih =>
    obtain ⟨k, w⟩ := c
    simp only [Memory.wfAbove, Bool.and_eq_true, decide_eq_true_eq] at h
    cases m' with
    | nil =>
      have := hr k
      simp only [Memory.read, if_true] at this
      exact absurd this h.1.2
    | cons c' m' =>
      obtain ⟨k', w'⟩ := c'
      simp only [Memory.wfAbove, Bool.and_eq_true, decide_eq_true_eq] at h'
      have hk : k = k' := by
        rcases lt_trichotomy k k' with hlt | heq | hgt
        · have := hr k
          simp only [Memory.read, if_true] at this
          rw [if_neg (by omega), Memory.read_below h'.2 k (by omega)] at this
          exact absurd this h.1.2
        · exact heq
        · have := hr k'
          simp only [Memory.read, if_true] at this
          rw [if_neg (by omega), Memory.read_below h.2 k' (by omega)] at this
          exact absurd this.symm h'.1.2
      subst hk
      have hw : w = w' := by simpa [Memory.read] using hr k
      subst hw
      congr 1
      apply ih h.2 h'.2
      intro a
      by_cases ha : k = a
      · subst ha
        rw [Memory.read_below h.2 _ (by omega), Memory.read_below h'.2 _ (by omega)]
      · simpa [Memory.read, ha] using hr a

/-- Canonical memories that read alike everywhere are equal (log 4). -/
theorem Memory.ext_of_wf {m m' : Memory} (h : m.wf = true) (h' : m'.wf = true)
    (hr : ∀ a, m.read a = m'.read a) : m = m' :=
  Memory.ext_above h h' hr

end Sys2Proof.Machine
end

