-- ==== Sys2Proof/Laws/Ops.lean ====
section
/-! SUPPORT. One lemma for each shared operation that says once everything it does. -/

namespace Sys2Proof.Machine

theorem stores_writeBytes (m : Memory) (a : Nat) (bs : List Byte) : stores m (m.writeBytes a bs) a bs :=
  fun x => Memory.read_writeBytes m a x bs

theorem stores_nil (m : Memory) (a : Nat) : stores m m a [] := by
  intro x
  simp

/-- Two rows of bytes stored one after the other are one row. -/
theorem stores_append {m m' m'' : Memory} {a : Nat} {bs cs : List Byte} (h : stores m m' a bs)
    (h' : stores m' m'' (a + bs.length) cs) : stores m m'' a (bs ++ cs) := by
  intro x
  rw [h' x, h x, List.length_append]
  by_cases h1 : a + bs.length ≤ x ∧ x < a + bs.length + cs.length
  · rw [if_pos h1, if_pos (by omega), List.getD_append_right _ _ _ _ (by omega)]
    congr 1
    omega
  · rw [if_neg h1]
    by_cases h2 : a ≤ x ∧ x < a + bs.length
    · rw [if_pos h2, if_pos (by omega), List.getD_append _ _ _ _ (by omega)]
    · rw [if_neg h2, if_neg (by omega)]

theorem update_cacheAfter (r : Regs) (p : Pixel) : cacheAfter r (r.update p) true p := by
  intro j
  simp only [Regs.update, true_and]
  by_cases h : j = pixelHash p
  · subst h
    simp
  · have h' : (pixelHash p).val ≠ j.val := fun e => h (Fin.ext e.symm)
    rw [if_neg h]
    simp [h']

theorem cacheAfter_of_eq {r r' : Regs} (p : Pixel) (h : r'.cache = r.cache) : cacheAfter r r' false p := by
  intro j
  simp [h]

theorem sameControl_refl (r : Regs) : sameControl r r := ⟨rfl, rfl, rfl⟩

/-- The shape of RGB, RGBA, DIFF and LUMA in the decoder. -/
theorem newPixel_effect (s : State) (n : Nat) (p : Pixel) :
    decEffect s { s with dec := s.dec.newPixel n p } p n s.dec.regs.run true :=
  ⟨rfl, rfl, rfl, rfl, update_cacheAfter _ _, rfl, rfl, ⟨rfl, rfl, rfl⟩, rfl, rfl, rfl, rfl, rfl, rfl,
    stores_writeBytes _ _ _⟩

/-- A cell of an open run (R75). -/
theorem continueRun_effect (s : State) :
    decEffect s { s with dec := s.dec.continueRun } s.dec.regs.prev 0 (s.dec.regs.run - 1) true :=
  ⟨rfl, rfl, rfl, rfl, update_cacheAfter _ _, rfl, rfl, ⟨rfl, rfl, rfl⟩, by simp [Dec.continueRun], rfl,
    rfl, rfl, rfl, rfl, stores_writeBytes _ _ _⟩

/-- The shape of INDEX, DIFF, LUMA, RGB and RGBA in the encoder. -/
theorem record_effect (s : State) (i : Instr) (updates : Bool) (p : Pixel) :
    encEffect s { s with enc := s.enc.record i updates p } p (encode i) s.enc.regs.run updates := by
  cases updates
  · exact ⟨rfl, rfl, rfl, rfl, cacheAfter_of_eq _ rfl, rfl, rfl, ⟨rfl, rfl, rfl⟩, rfl, rfl, rfl,
      stores_writeBytes _ _ _⟩
  · exact ⟨rfl, rfl, rfl, rfl, update_cacheAfter _ _, rfl, rfl, ⟨rfl, rfl, rfl⟩, rfl, rfl, rfl,
      stores_writeBytes _ _ _⟩

theorem recordPixel_some {e : Enc} {p : Pixel} (i : Instr) (updates : Bool) (h : e.pixel = some p) :
    e.recordPixel i updates = e.record i updates p := by
  simp [Enc.recordPixel, h]

theorem recordPixel_none {e : Enc} (i : Instr) (updates : Bool) (h : e.pixel = none) :
    e.recordPixel i updates = e := by
  simp [Enc.recordPixel, h]

end Sys2Proof.Machine
end

