-- ==== Sys2Proof/Laws/Exec.lean ====
section
/-! SUPPORT. What `exec` of each instruction is on each engine, and which engine a step moves: cited
instead of unfolding them. -/

namespace Sys2Proof.Machine

/-! ### The decoder -/

theorem exec_index_dec (i : Slot) (s : State) (h : s.active = .dec) :
    exec (.index i) s = .next { s with dec :=
      ((({ s.dec with regs := s.dec.regs.setPrev s.dec.regs.cache[i] }).advance 1).produce
        s.dec.regs.cache[i]) } := by
  simp [exec, execIndex, h]

theorem exec_diff_dec (dr dg db : Int) (s : State) (h : s.active = .dec) :
    exec (.diff dr dg db) s
      = .next { s with dec := s.dec.newPixel 1 (diffPixel s.dec.regs.prev dr dg db) } := by
  simp [exec, execDiff, h, diffAllowed_true]

theorem exec_luma_dec (dg drDg dbDg : Int) (s : State) (h : s.active = .dec) :
    exec (.luma dg drDg dbDg) s
      = .next { s with dec := s.dec.newPixel 2 (lumaPixel s.dec.regs.prev dg drDg dbDg) } := by
  simp [exec, execLuma, h]

theorem exec_run_dec (n : Nat) (s : State) (h : s.active = .dec) :
    exec (.run n) s = .next { s with dec :=
      ((({ s.dec with regs := s.dec.regs.setRun (BitVec.ofNat 6 (n - 1)) }).advance 1).produce
        s.dec.regs.prev) } := by
  simp [exec, execRun, h]

theorem exec_rgb_dec (r g b : Byte) (s : State) (h : s.active = .dec) (hc : s.dec.regs.cfg.c = 3) :
    exec (.rgb r g b) s = .next { s with dec := s.dec.newPixel 4 ⟨r, g, b, 255⟩ } := by
  simp [exec, execRgb, h, literalMismatch, hc, Config.hashA3]

theorem exec_rgb_dec_mismatch (r g b : Byte) (s : State) (h : s.active = .dec)
    (hc : s.dec.regs.cfg.c ≠ 3) : exec (.rgb r g b) s = .next (s.raise .malformedStream) := by
  have hm := (literalMismatch_rgb s.dec.regs.cfg.c).2 hc
  simp only [exec, execRgb, h, hm, if_true]

theorem exec_rgba_dec (r g b a : Byte) (s : State) (h : s.active = .dec) (hc : s.dec.regs.cfg.c = 4) :
    exec (.rgba r g b a) s = .next { s with dec := s.dec.newPixel 5 ⟨r, g, b, a⟩ } := by
  simp [exec, execRgba, h, literalMismatch, hc]

theorem exec_rgba_dec_mismatch (r g b a : Byte) (s : State) (h : s.active = .dec)
    (hc : s.dec.regs.cfg.c ≠ 4) : exec (.rgba r g b a) s = .next (s.raise .malformedStream) := by
  have hm := (literalMismatch_rgba s.dec.regs.cfg.c).2 hc
  simp only [exec, execRgba, h, hm, if_true]

theorem exec_header_dec (w h : Word) (c cs : Byte) (s : State) (ha : s.active = .dec)
    (hl : headerLegal w h c cs = true) :
    exec (.header w h c cs) s = .next { s with dec := { s.dec with
      regs := { s.dec.regs with cfg := ⟨w, h, c, cs⟩ }, headerRead := true,
      descOut := ⟨w, h, c, cs⟩ } } := by
  simp [exec, execHeader, ha, hl, Regs.setCfg]

theorem exec_header_dec_illegal (w h : Word) (c cs : Byte) (s : State) (ha : s.active = .dec)
    (hl : ¬ headerLegal w h c cs = true) :
    exec (.header w h c cs) s = .next (s.raise .badHeader) := by
  simp [exec, execHeader, ha, hl]

theorem exec_trailer_dec (s : State) (h : s.active = .dec) :
    exec .trailer s = .next { s with dec := { s.dec with regs := { s.dec.regs with st := .body } } } := by
  simp [exec, execTrailer, h, Regs.setSt]

/-! ### The encoder -/

theorem exec_index_enc (i : Slot) (s : State) (h : s.active = .enc) :
    exec (.index i) s = .next { s with enc := s.enc.recordPixel (.index i) false } := by
  simp [exec, execIndex, h]

theorem exec_diff_enc (dr dg db : Int) (s : State) (h : s.active = .enc) :
    exec (.diff dr dg db) s = .next { s with enc := s.enc.recordPixel (.diff dr dg db) true } := by
  simp [exec, execDiff, h]

theorem exec_luma_enc (dg drDg dbDg : Int) (s : State) (h : s.active = .enc) :
    exec (.luma dg drDg dbDg) s
      = .next { s with enc := s.enc.recordPixel (.luma dg drDg dbDg) true } := by
  simp [exec, execLuma, h]

theorem exec_rgb_enc (r g b : Byte) (s : State) (h : s.active = .enc) :
    exec (.rgb r g b) s = .next { s with enc := s.enc.recordPixel (.rgb r g b) true } := by
  simp [exec, execRgb, h]

theorem exec_rgba_enc (r g b a : Byte) (s : State) (h : s.active = .enc) :
    exec (.rgba r g b a) s = .next { s with enc := s.enc.recordPixel (.rgba r g b a) true } := by
  simp [exec, execRgba, h]

theorem exec_run_enc (n : Nat) (s : State) (h : s.active = .enc) :
    exec (.run n) s = .next { s with enc :=
      ({ s.enc with regs := { s.enc.regs with run := 0 } }).emit [BitVec.ofNat 8 (0xC0 + n - 1)] } := by
  simp [exec, execRun, h, Regs.setRun, encode]

theorem exec_header_enc (w h : Word) (c cs : Byte) (s : State) (ha : s.active = .enc) :
    exec (.header w h c cs) s = .next { s with enc :=
      ({ s.enc with regs := { s.enc.regs with st := .body } }).emit (encode (.header w h c cs)) } := by
  simp [exec, execHeader, ha, Regs.setSt]

theorem exec_trailer_enc (s : State) (h : s.active = .enc) :
    exec .trailer s = .next { s with enc :=
      ({ s.enc with regs := { s.enc.regs with st := .done } }).emit (encode .trailer) } := by
  simp [exec, execTrailer, h, Regs.setSt]

/-- Emitting bytes with a change of `RUN` and `ST` alone. -/
theorem emit_writes (s : State) (bs : List Byte) (run : BitVec 6) (st : Status) :
    encWrites s { s with enc := ({ s.enc with regs := { s.enc.regs with run := run, st := st } }).emit bs }
      bs run st :=
  ⟨rfl, rfl, rfl, rfl, rfl, rfl, rfl, stores_writeBytes _ _ _⟩

/-- What the encoder does on a record of the pixel at `PXI`: only INDEX leaves the cache (R49). -/
theorem exec_select_enc (p : Pixel) (s : State) (h : s.active = .enc) (hp : s.enc.pixel = some p) :
    ∃ updates, exec (selectRecord p s.enc.regs) s
        = .next { s with enc := s.enc.record (selectRecord p s.enc.regs) updates p }
      ∧ (updates = false ↔ s.enc.regs.cache[pixelHash p] = p) := by
  unfold selectRecord
  split
  · rename_i hc
    exact ⟨false, by rw [exec_index_enc _ _ h, recordPixel_some _ _ hp], by simpa using hc⟩
  · rename_i hc
    refine ⟨true, ?_, by simpa using hc⟩
    split
    · rw [exec_diff_enc _ _ _ _ h, recordPixel_some _ _ hp]
    · split
      · rw [exec_luma_enc _ _ _ _ h, recordPixel_some _ _ hp]
      · split
        · rw [exec_rgb_enc _ _ _ _ h, recordPixel_some _ _ hp]
        · rw [exec_rgba_enc _ _ _ _ _ h, recordPixel_some _ _ hp]

/-! ### Which engine moves -/

/-- With nothing on the agenda, the active engine moves while its call is in progress. -/
theorem step_dec (s : State) (ha : s.agenda = []) (h : s.active = .dec)
    (hc : s.dec.regs.st.inCall = true) : step s = decStep s := by
  have : s.nextEngine = .dec := by simp [State.nextEngine, h, hc]
  obtain ⟨e, d, act, ag⟩ := s
  simp only at ha h
  subst ha h
  simp only [step, engineStep, this]

theorem step_enc (s : State) (ha : s.agenda = []) (h : s.active = .enc)
    (hc : s.enc.regs.st.inCall = true) : step s = encStep s := by
  have : s.nextEngine = .enc := by simp [State.nextEngine, h, hc]
  obtain ⟨e, d, act, ag⟩ := s
  simp only at ha h
  subst ha h
  simp only [step, engineStep, this]

theorem step_run (s : State) (e : Engine) (later : List Event) (ha : s.agenda = .run e :: later) :
    step s = engineStep { s with active := e, agenda := later } := by
  simp [step, ha]

theorem step_host (s : State) (m : HostMove) (later : List Event) (ha : s.agenda = .host m :: later) :
    step s = .next (hostMove m { s with agenda := later }) := by
  simp [step, ha]

end Sys2Proof.Machine
end

