-- ==== Sys2Proof/Laws/Fetch.lean ====
section
/-! SUPPORT. What the decoder fetches, and the step of each phase in terms of it. -/

namespace Sys2Proof.Machine

theorem length_fetchRecord (d : Dec) : d.fetchRecord.length = min 5 (d.bodyLen - d.pos.toNat) :=
  Memory.length_readBytes _ _ _

/-- Past the end of the body nothing is fetched (R74). -/
theorem fetchRecord_nil {d : Dec} (h : ¬ d.has 1) : d.fetchRecord = [] := by
  apply List.eq_nil_of_length_eq_zero
  rw [length_fetchRecord]
  simp only [Dec.has] at h
  omega

/-- The first bytes fetched are `Fetch(0)`, `Fetch(1)`, ... (R74). -/
theorem fetchRecord_eq {d : Dec} (n : Nat) (h5 : n ≤ 5) (h : d.has n) :
    ∃ rest, d.fetchRecord = d.fileIn.readBytes d.fetchAddr n ++ rest
      ∧ rest.length = min 5 (d.bodyLen - d.pos.toNat) - n := by
  simp only [Dec.has] at h
  refine ⟨d.fileIn.readBytes (d.fetchAddr + n) (min 5 (d.bodyLen - d.pos.toNat) - n), ?_, ?_⟩
  · rw [← Memory.readBytes_append]
    unfold Dec.fetchRecord
    congr 1
    omega
  · exact Memory.length_readBytes _ _ _

theorem fetchRecord_cons {d : Dec} (h : d.has 1) :
    ∃ rest, d.fetchRecord = d.fetch 0 :: rest
      ∧ rest.length = min 5 (d.bodyLen - d.pos.toNat) - 1 := by
  obtain ⟨rest, h1, h2⟩ := fetchRecord_eq 1 (by omega) h
  exact ⟨rest, by simpa [Memory.readBytes, Dec.fetch] using h1, h2⟩

theorem fetchRecord_cons2 {d : Dec} (h : d.has 2) :
    ∃ rest, d.fetchRecord = d.fetch 0 :: d.fetch 1 :: rest := by
  obtain ⟨rest, h1, _⟩ := fetchRecord_eq 2 (by omega) h
  exact ⟨rest, by simpa [Memory.readBytes, Dec.fetch] using h1⟩

theorem fetchRecord_cons4 {d : Dec} (h : d.has 4) :
    ∃ rest, d.fetchRecord = d.fetch 0 :: d.fetch 1 :: d.fetch 2 :: d.fetch 3 :: rest := by
  obtain ⟨rest, h1, _⟩ := fetchRecord_eq 4 (by omega) h
  exact ⟨rest, by simpa [Memory.readBytes, Dec.fetch] using h1⟩

theorem fetchRecord_cons5 {d : Dec} (h : d.has 5) :
    ∃ rest, d.fetchRecord = d.fetch 0 :: d.fetch 1 :: d.fetch 2 :: d.fetch 3 :: d.fetch 4 :: rest := by
  obtain ⟨rest, h1, _⟩ := fetchRecord_eq 5 (by omega) h
  exact ⟨rest, by simpa [Memory.readBytes, Dec.fetch] using h1⟩

/-- A body step that needs a record executes it, or raises what its bytes stand for. -/
theorem step_ready {s : State} (h : decReady s) : step s = execOrRaise s.dec.nextRecord s := by
  obtain ⟨ha, hd, hb, hn, hr⟩ := h
  rw [step_dec s ha hd (by rw [hb]; rfl)]
  simp only [decStep, hb, decBodyStep, if_neg hn, hr, ne_eq, not_true, if_false]

theorem step_runs {s : State} {i : Instr} {rest : List Byte} (h : decReady s)
    (hd : decodeRecord s.dec.fetchRecord = .ok (i, rest)) : step s = exec i s := by
  rw [step_ready h]
  simp only [Dec.nextRecord, hd, execOrRaise]

theorem step_raises {s : State} {e : DecodeError} (h : decReady s)
    (hd : decodeRecord s.dec.fetchRecord = .error e) :
    step s = .next (s.raise (errorOf s.dec.regs.cfg.c e)) := by
  rw [step_ready h]
  simp only [Dec.nextRecord, hd, execOrRaise]

theorem step_header {s : State} (ha : s.agenda = []) (hd : s.active = .dec)
    (hs : s.dec.regs.st = .header) : step s = decHeaderStep s := by
  rw [step_dec s ha hd (by rw [hs]; rfl)]
  simp only [decStep, hs]

theorem step_encReady {s : State} {p : Pixel} (h : encReady s p) : step s = encPixelStep p s := by
  obtain ⟨ha, he, hb, hn, hp⟩ := h
  rw [step_enc s ha he (by rw [hb]; rfl)]
  simp only [encStep, hb, if_neg hn, hp]

end Sys2Proof.Machine
end

