-- ==== Sys2Proof/Laws/PerInstr.lean ====
section
/-! SUPPORT. Statements made of every constructor of Instr, one lemma each: an item's encoding is as long as
R38 and R43 say. -/

namespace Sys2Proof.Laws

/-- The bytes of an item are as many as its length (R38, R43). -/
def EncodeLength.Statement (i : Instr) : Prop := (encode i).length = i.size

theorem EncodeLength.index (i : Slot) : EncodeLength.Statement (.index i) := rfl

theorem EncodeLength.diff (dr dg db : Int) : EncodeLength.Statement (.diff dr dg db) := rfl

theorem EncodeLength.luma (dg drDg dbDg : Int) : EncodeLength.Statement (.luma dg drDg dbDg) := rfl

theorem EncodeLength.run (n : Nat) : EncodeLength.Statement (.run n) := rfl

theorem EncodeLength.rgb (r g b : Byte) : EncodeLength.Statement (.rgb r g b) := rfl

theorem EncodeLength.rgba (r g b a : Byte) : EncodeLength.Statement (.rgba r g b a) := rfl

theorem EncodeLength.header (w h : Word) (c cs : Byte) : EncodeLength.Statement (.header w h c cs) := rfl

theorem EncodeLength.trailer : EncodeLength.Statement .trailer := rfl

end Sys2Proof.Laws
end

