-- ==== Sys2Proof/Laws/Run.lean ====
section
/-! SUPPORT. Runs of the machine: one step at a time, and one run after another. -/

namespace Sys2Proof.Machine

theorem run_zero (s : State) : Host.Core.run core 0 s = .next s := rfl

theorem run_succ {s t : State} (k : Nat) (h : step s = .next t) :
    Host.Core.run core (k + 1) s = Host.Core.run core k t := by
  have h' : core.step s = .next t := h
  simp only [Host.Core.run, h']

theorem run_add {s t : State} (j k : Nat) (h : Host.Core.run core j s = .next t) :
    Host.Core.run core (j + k) s = Host.Core.run core k t := by
  induction j generalizing s with
  | zero =>
    have : s = t := by cases h; rfl
    rw [this, Nat.zero_add]
  | succ j ih =>
    rw [show j + 1 + k = (j + k) + 1 by omega]
    cases hs : core.step s with
    | next u =>
      rw [run_succ (s := s) (t := u) (j + k) hs]
      rw [run_succ (s := s) (t := u) j hs] at h
      exact ih h
    | fault r => exact nomatch r
    | refused r => simp only [Host.Core.run, hs] at h; cases h

end Sys2Proof.Machine
end

