-- ==== Sys2Proof/Laws/Steps.lean ====
section
/-! SUPPORT. Everything one step of an engine can do, said once: the cases of `decStep` and `encStep` and
of a host move, with their guards, in terms of the effects of Safety. -/

namespace Sys2Proof.Machine

/-! ### The decoder -/

/-- A decoded record is a record, and as long as its tag says (R41). -/
theorem decodeRecord_ok {bs rest : List Byte} {i : Instr} (h : decodeRecord bs = .ok (i, rest)) :
    i.isRecord = true ∧ bs.length = i.size + rest.length := by
  unfold decodeRecord at h
  repeat' split at h
  all_goals first
    | (cases h; done)
    | (simp only [Except.ok.injEq, Prod.mk.injEq] at h
       obtain ⟨rfl, rfl⟩ := h
       simp only [Instr.isRecord, Instr.size, List.length_cons, true_and]
       omega)

/-- A body that decodes to no record is truncated or malformed (R84). -/
theorem decodeRecord_error {bs : List Byte} {e : DecodeError} (c : Byte) (h : decodeRecord bs = .error e) :
    errorOf c e = .truncatedStream ∨ errorOf c e = .malformedStream := by
  unfold decodeRecord at h
  repeat' split at h
  all_goals simp at h
  all_goals (subst h; simp only [errorOf]; try split) <;> simp

/-- What any record does in the decoder: `MalformedStream`, or a cell. -/
theorem exec_record_dec (i : Instr) (s : State) (h : s.active = .dec) (hi : i.isRecord = true) :
    exec i s = .next (s.raise .malformedStream)
      ∨ ∃ t p run updates, exec i s = .next t ∧ decEffect s t p i.size run updates
        ∧ (s.dec.pixOut.wf = true → t.dec.pixOut.wf = true)
        ∧ (run = s.dec.regs.run ∨ ∃ n, i = .run n ∧ run = BitVec.ofNat 6 (n - 1))
        ∧ (s.dec.regs.cfg.c = 3 → s.dec.regs.alphaFixed → p.a = 255) := by
  cases i with
  | index i =>
    refine .inr ⟨_, _, _, _, exec_index_dec i s h, ⟨rfl, rfl, rfl, rfl, cacheAfter_of_eq _ rfl, rfl, rfl,
      ⟨rfl, rfl, rfl⟩, rfl, rfl, rfl, rfl, rfl, rfl,
      stores_writeBytes _ _ _⟩, Memory.wf_writeBytes _ _ _, .inl rfl, ?_⟩
    exact fun hc ha => (ha hc).2 i
  | diff dr dg db =>
    exact .inr ⟨_, _, _, _, exec_diff_dec _ _ _ s h, newPixel_effect _ _ _, Memory.wf_writeBytes _ _ _,
      .inl rfl, fun hc ha => (ha hc).1⟩
  | luma dg drDg dbDg =>
    exact .inr ⟨_, _, _, _, exec_luma_dec _ _ _ s h, newPixel_effect _ _ _, Memory.wf_writeBytes _ _ _,
      .inl rfl, fun hc ha => (ha hc).1⟩
  | run n =>
    refine .inr ⟨_, _, _, _, exec_run_dec n s h, ⟨rfl, rfl, rfl, rfl, cacheAfter_of_eq _ rfl, rfl, rfl,
      ⟨rfl, rfl, rfl⟩, rfl, rfl, rfl, rfl, rfl, rfl,
      stores_writeBytes _ _ _⟩, Memory.wf_writeBytes _ _ _,
      .inr ⟨n, rfl, rfl⟩, fun hc ha => (ha hc).1⟩
  | rgb r g b =>
    by_cases hc : s.dec.regs.cfg.c = 3
    · exact .inr ⟨_, _, _, _, exec_rgb_dec _ _ _ s h hc, newPixel_effect _ _ _, Memory.wf_writeBytes _ _ _,
        .inl rfl, fun _ _ => rfl⟩
    · exact .inl (exec_rgb_dec_mismatch _ _ _ s h hc)
  | rgba r g b a =>
    by_cases hc : s.dec.regs.cfg.c = 4
    · refine .inr ⟨_, _, _, _, exec_rgba_dec _ _ _ _ s h hc, newPixel_effect _ _ _,
        Memory.wf_writeBytes _ _ _, .inl rfl, fun h3 => ?_⟩
      rw [hc] at h3
      exact absurd h3 (by decide)
    · exact .inl (exec_rgba_dec_mismatch _ _ _ _ s h hc)
  | header => simp [Instr.isRecord] at hi
  | trailer => simp [Instr.isRecord] at hi

/-- A RUN record read from bytes stands for at most 62 cells, so `RUN` gets at most 61 (R15). -/
theorem decodeRecord_run {bs rest : List Byte} {n : Nat} (h : decodeRecord bs = .ok (.run n, rest)) :
    1 ≤ n ∧ n ≤ 62 := by
  unfold decodeRecord at h
  repeat' split at h
  all_goals first
    | (cases h; done)
    | (simp only [Except.ok.injEq, Prod.mk.injEq, Instr.run.injEq] at h)
  rename_i t _ h1 h2 _ _ _
  rw [bits_50] at h
  have hlt := t.isLt
  have e1 : t.toNat ≠ 255 := fun e => h1 (BitVec.eq_of_toNat_eq e)
  have e2 : t.toNat ≠ 254 := fun e => h2 (BitVec.eq_of_toNat_eq e)
  simp only [bits_76] at *
  omega

/-- Everything a step of the decoder can do. -/
theorem decStep_cases {s t : State} (hd : s.active = .dec) (h : decStep s = .next t) :
    (s.dec.regs.st.inCall = false ∧ t = s)
    ∨ (∃ k, s.dec.regs.st.inCall = true ∧ t = s.raise k)
    ∨ (∃ w hh c cs, s.dec.regs.st = .header ∧ s.dec.bodyOnly = false ∧ s.dec.headerRead = false
        ∧ 14 ≤ s.dec.len.toNat ∧ headerLegal w hh c cs = true
        ∧ t = { s with dec := { s.dec with
            regs := { s.dec.regs with cfg := ⟨w, hh, c, cs⟩ }, headerRead := true,
            descOut := ⟨w, hh, c, cs⟩ } })
    ∨ (s.dec.regs.st = .header ∧ ∃ desc,
        ((s.dec.bodyOnly = false ∧ s.dec.headerRead = true ∧ 22 ≤ s.dec.len.toNat ∧ desc = s.dec.descOut)
          ∨ (s.dec.bodyOnly = true ∧ s.dec.regs.cfg.legal ∧ desc = s.dec.regs.cfg))
        ∧ t = { s with dec := { s.dec with regs := { s.dec.regs with st := .body }, descOut := desc } })
    ∨ (s.dec.regs.st = .body ∧ s.dec.regs.pxi = s.dec.regs.cfg.n
        ∧ t = { s with dec := { s.dec with regs := { s.dec.regs with st := .trailer } } })
    ∨ (s.dec.regs.st = .body ∧ s.dec.regs.pxi ≠ s.dec.regs.cfg.n ∧ s.dec.regs.run ≠ 0
        ∧ t = { s with dec := s.dec.continueRun })
    ∨ (s.dec.regs.st = .body ∧ s.dec.regs.pxi ≠ s.dec.regs.cfg.n ∧ s.dec.regs.run = 0
        ∧ ∃ i rest p run updates, decodeRecord s.dec.fetchRecord = .ok (i, rest) ∧ s.dec.has i.size
          ∧ exec i s = .next t ∧ decEffect s t p i.size run updates
          ∧ (s.dec.pixOut.wf = true → t.dec.pixOut.wf = true) ∧ run.toNat ≤ 61
          ∧ (s.dec.regs.cfg.c = 3 → s.dec.regs.alphaFixed → p.a = 255))
    ∨ (s.dec.regs.st = .trailer
        ∧ t = { s with dec := { s.dec with regs := { s.dec.regs with st := .done } } }) := by
  have raised : ∀ k, s.dec.regs.st.inCall = true → (Host.Outcome.next (s.raise k) : Result) = .next t →
      ∃ k, s.dec.regs.st.inCall = true ∧ t = s.raise k :=
    fun k hc h => ⟨k, hc, (Host.Outcome.next.inj h).symm⟩
  cases hs : s.dec.regs.st with
  | idle => simp only [decStep, hs, Host.Outcome.next.injEq] at h; exact .inl ⟨rfl, h.symm⟩
  | done => simp only [decStep, hs, Host.Outcome.next.injEq] at h; exact .inl ⟨rfl, h.symm⟩
  | error => simp only [decStep, hs, Host.Outcome.next.injEq] at h; exact .inl ⟨rfl, h.symm⟩
  | trailer =>
    simp only [decStep, hs, decNext_eq, Host.Outcome.next.injEq] at h
    exact .inr (.inr (.inr (.inr (.inr (.inr (.inr ⟨rfl, h.symm⟩))))))
  | header =>
    rw [hs] at raised
    simp only [decStep, hs, decHeaderStep] at h
    cases ho : s.dec.bodyOnly with
    | true =>
      simp only [ho, if_true] at h
      cases hk : s.dec.checkBodyOnly with
      | some k => rw [hk] at h; exact .inr (.inl (raised k rfl h))
      | none =>
        rw [hk] at h
        simp only [decNext_eq, Host.Outcome.next.injEq] at h
        refine .inr (.inr (.inr (.inl ⟨rfl, _, .inr ⟨rfl, ?_, rfl⟩, h.symm⟩)))
        simp only [Dec.checkBodyOnly, channelsLegal_false_iff] at hk
        split at hk
        · cases hk
        · rename_i h1
          split at hk
          · cases hk
          · rename_i h2
            exact ⟨not_not.1 h1, fun e => h2 (.inl e), fun e => h2 (.inr e)⟩
    | false =>
      simp only [ho, Bool.false_eq_true, if_false] at h
      cases hr : s.dec.headerRead with
      | true =>
        simp only [hr, if_true, Dec.nextTrailer] at h
        split at h
        · exact .inr (.inl (raised _ rfl h))
        · rename_i hl
          have hl' : 22 ≤ s.dec.len.toNat := by
            have : Config.headerBytes + Config.trailerBytes = 22 := rfl
            omega
          unfold decodeTrailer at h
          split at h
          · exact .inr (.inl (raised _ rfl h))
          · split at h
            · exact .inr (.inl (raised _ rfl h))
            · simp only [execOrRaise, exec_trailer_dec s hd, Host.Outcome.next.injEq] at h
              exact .inr (.inr (.inr (.inl ⟨rfl, _, .inl ⟨rfl, rfl, hl', rfl⟩, h.symm⟩)))
      | false =>
        simp only [hr, Bool.false_eq_true, if_false, decodeHeader] at h
        split at h
        · exact .inr (.inl (raised _ rfl h))
        · rename_i hl
          have hl' : 14 ≤ s.dec.len.toNat := by
            have : Config.headerBytes = 14 := rfl
            simp only [Dec.fetchHeader, Memory.length_readBytes] at hl
            omega
          split at h
          · exact .inr (.inl (raised _ rfl h))
          · simp only [execOrRaise] at h
            by_cases hg : headerLegal (unbe32 (s.dec.fetchHeader.drop 4)) (unbe32 (s.dec.fetchHeader.drop 8))
                (s.dec.fetchHeader.getD 12 0) (s.dec.fetchHeader.getD 13 0) = true
            · rw [exec_header_dec _ _ _ _ s hd hg] at h
              exact .inr (.inr (.inl ⟨_, _, _, _, rfl, rfl, rfl, hl', hg, (Host.Outcome.next.inj h).symm⟩))
            · rw [exec_header_dec_illegal _ _ _ _ s hd hg] at h
              exact .inr (.inl (raised _ rfl h))
  | body =>
    rw [hs] at raised
    simp only [decStep, hs, decBodyStep] at h
    by_cases hn : s.dec.regs.pxi = s.dec.regs.cfg.n
    · rw [if_pos hn] at h
      exact .inr (.inr (.inr (.inr (.inl ⟨rfl, hn, (Host.Outcome.next.inj h).symm⟩))))
    · rw [if_neg hn] at h
      by_cases hr : s.dec.regs.run = 0
      · rw [if_neg (not_not.2 hr)] at h
        unfold Dec.nextRecord at h
        cases hx : decodeRecord s.dec.fetchRecord with
        | error e =>
          rw [hx] at h
          exact .inr (.inl (raised _ rfl h))
        | ok x =>
          obtain ⟨i, rest⟩ := x
          rw [hx] at h
          simp only [execOrRaise] at h
          obtain ⟨hi, hlen⟩ := decodeRecord_ok hx
          rcases exec_record_dec i s hd hi with hm | ⟨u, p, run, upd, h1, h2, h3, h4, h5⟩
          · rw [hm] at h
            exact .inr (.inl (raised _ rfl h))
          · rw [h1] at h
            cases h
            refine .inr (.inr (.inr (.inr (.inr (.inr (.inl ⟨rfl, hn, hr, i, rest, p, run, upd, rfl, ?_,
              h1, h2, h3, ?_, h5⟩))))))
            · rw [length_fetchRecord] at hlen
              simp only [Dec.has]
              have : 1 ≤ i.size := by cases i <;> simp [Instr.size]
              omega
            · rcases h4 with rfl | ⟨n, rfl, rfl⟩
              · rw [hr]; decide
              · obtain ⟨h6, h7⟩ := decodeRecord_run hx
                simp only [BitVec.toNat_ofNat]
                omega
      · rw [if_pos hr] at h
        exact .inr (.inr (.inr (.inr (.inr (.inl ⟨rfl, hn, hr, (Host.Outcome.next.inj h).symm⟩)))))

/-! ### The encoder -/

/-- The encoder after the flush of its open run, if there is one (R58). -/
def Enc.flushed (e : Enc) : Enc :=
  ({ e with regs := { e.regs with run := 0 } }).emit (flushBytes e.regs.run)

/-- A record of the encoder after the flush of the open run (R58 (a)): one effect. -/
theorem flush_record (s : State) (p : Pixel) (i : Instr) (updates : Bool) :
    encEffect s
      { s with enc := s.enc.flushed.record i updates p } p (flushBytes s.enc.regs.run ++ encode i) 0 updates := by
  have h1 := emit_writes s (flushBytes s.enc.regs.run) 0 s.enc.regs.st
  have h2 := record_effect { s with enc := s.enc.flushed } i updates p
  obtain ⟨_, _, _, _, _, _, _, a8⟩ := h1
  obtain ⟨b1, b2, b3, b4, b5, b6, b7, b8, b9, b10, b11, b12⟩ := h2
  exact ⟨b1, b2, b3, b4, b5, b6, b7, b8, b9, b10, by rw [b11]; simp [Enc.flushed, Nat.add_assoc],
    stores_append a8 b12⟩

/-- The step of a pixel that is no run pixel: the flush and the selected record (R56). -/
theorem encPixelStep_select {s : State} {p : Pixel} (ha : s.active = .enc) (hq : s.enc.pixel = some p)
    (hp : p ≠ s.enc.regs.prev) :
    ∃ updates, encPixelStep p s = .next
        { s with enc := s.enc.flushed.record (selectRecord p s.enc.regs) updates p }
      ∧ (updates = false ↔ s.enc.regs.cache[pixelHash p] = p) := by
  have hstep : encPixelStep p s = exec (selectRecord p s.enc.regs)
      { s with enc := s.enc.flushed } := by
    unfold encPixelStep
    rw [if_neg hp]
    by_cases hr : s.enc.regs.run = 0
    · rw [if_neg (not_not.2 hr)]
      simp only [Enc.flushed, flushBytes, if_pos hr]
      congr 1
      obtain ⟨⟨⟨_, _, _, _, _, _, _⟩, _, _, _, _⟩, _, _, _⟩ := s
      simp only at hr
      subst hr
      rfl
    · rw [if_pos hr, exec_run_enc _ _ ha, andThen_next]
      simp only [Enc.flushed, flushBytes, if_neg hr]
  rw [hstep]
  exact exec_select_enc p { s with enc := s.enc.flushed } ha hq

/-- The end of scan in one effect (R65). -/
theorem endOfScan_writes {s : State} (ha : s.active = .enc) :
    ∃ t, endOfScan s = .next t ∧ encWrites s t (flushBytes s.enc.regs.run) 0 .trailer
      ∧ (s.enc.byteOut.wf = true → t.enc.byteOut.wf = true) := by
  unfold endOfScan flushBytes
  by_cases hr : s.enc.regs.run = 0
  · rw [if_neg (not_not.2 hr), if_pos hr]
    refine ⟨_, rfl, ⟨rfl, rfl, rfl, ?_, rfl, rfl, rfl, stores_nil _ _⟩, id⟩
    rw [← hr]
    rfl
  · rw [if_pos hr, if_neg hr, exec_run_enc _ _ ha]
    exact ⟨_, rfl, ⟨rfl, rfl, rfl, rfl, rfl, rfl, rfl, stores_writeBytes _ _ _⟩, Memory.wf_writeBytes _ _ _⟩

/-- Everything a step of the encoder can do. -/
theorem encStep_cases {s t : State} (he : s.active = .enc) (h : encStep s = .next t) :
    (s.enc.regs.st.inCall = false ∧ t = s)
    ∨ (∃ k, s.enc.regs.st = .header ∧ s.enc.check = some k ∧ t = s.raise k)
    ∨ (s.enc.regs.st = .header ∧ s.enc.regs.cfg.legal ∧ (s.enc.streamed = false → s.enc.gridFits = true)
        ∧ t = { s with enc := (({ s.enc with regs := { s.enc.regs with st := .body } }).emit
            (encode (.header s.enc.regs.cfg.w s.enc.regs.cfg.h s.enc.regs.cfg.c s.enc.regs.cfg.cs))) })
    ∨ (s.enc.regs.st = .body ∧ s.enc.regs.pxi = s.enc.regs.cfg.n
        ∧ encWrites s t (flushBytes s.enc.regs.run) 0 .trailer
        ∧ (s.enc.byteOut.wf = true → t.enc.byteOut.wf = true))
    ∨ (s.enc.regs.st = .body ∧ s.enc.regs.pxi ≠ s.enc.regs.cfg.n ∧ s.enc.pixel = none ∧ t = s)
    ∨ (s.enc.regs.st = .body ∧ s.enc.regs.pxi ≠ s.enc.regs.cfg.n
        ∧ s.enc.pixel = some s.enc.regs.prev
        ∧ (s.enc.regs.run ≠ 62 ∧ encEffect s t s.enc.regs.prev [] (s.enc.regs.run + 1) false
          ∨ s.enc.regs.run = 62 ∧ encEffect s t s.enc.regs.prev [0xFD] 1 false)
        ∧ t.enc.regs.cache = s.enc.regs.cache
        ∧ (s.enc.byteOut.wf = true → t.enc.byteOut.wf = true))
    ∨ (∃ p updates, s.enc.regs.st = .body ∧ s.enc.regs.pxi ≠ s.enc.regs.cfg.n ∧ s.enc.pixel = some p
        ∧ p ≠ s.enc.regs.prev
        ∧ encEffect s t p (flushBytes s.enc.regs.run ++ encode (selectRecord p s.enc.regs)) 0 updates
        ∧ (updates = false ↔ s.enc.regs.cache[pixelHash p] = p)
        ∧ (s.enc.byteOut.wf = true → t.enc.byteOut.wf = true))
    ∨ (s.enc.regs.st = .trailer
        ∧ t = { s with enc := (({ s.enc with regs := { s.enc.regs with st := .done } }).emit
            (encode .trailer)) }) := by
  cases hs : s.enc.regs.st with
  | idle => simp only [encStep, hs, Host.Outcome.next.injEq] at h; exact .inl ⟨rfl, h.symm⟩
  | done => simp only [encStep, hs, Host.Outcome.next.injEq] at h; exact .inl ⟨rfl, h.symm⟩
  | error => simp only [encStep, hs, Host.Outcome.next.injEq] at h; exact .inl ⟨rfl, h.symm⟩
  | trailer =>
    simp only [encStep, hs, exec_trailer_enc s he, Host.Outcome.next.injEq] at h
    exact .inr (.inr (.inr (.inr (.inr (.inr (.inr ⟨rfl, h.symm⟩))))))
  | header =>
    simp only [encStep, hs] at h
    cases hk : s.enc.check with
    | some k =>
      rw [hk] at h
      exact .inr (.inl ⟨k, rfl, rfl, (Host.Outcome.next.inj h).symm⟩)
    | none =>
      rw [hk] at h
      simp only [exec_header_enc _ _ _ _ s he, Host.Outcome.next.injEq] at h
      simp only [Enc.check, channelsLegal_false_iff] at hk
      split at hk
      · cases hk
      · rename_i h1
        split at hk
        · cases hk
        · rename_i h2
          split at hk
          · cases hk
          · rename_i h3
            exact .inr (.inr (.inl ⟨rfl, ⟨not_not.1 h1, fun e => h2 (.inl e), fun e => h2 (.inr e)⟩,
              fun hf => by simpa [hf] using h3, h.symm⟩))
  | body =>
    simp only [encStep, hs] at h
    by_cases hn : s.enc.regs.pxi = s.enc.regs.cfg.n
    · rw [if_pos hn] at h
      obtain ⟨u, h1, h2, h3⟩ := endOfScan_writes he
      rw [h1] at h
      cases h
      exact .inr (.inr (.inr (.inl ⟨rfl, hn, h2, h3⟩)))
    · rw [if_neg hn] at h
      cases hq : s.enc.pixel with
      | none =>
        rw [hq] at h
        exact .inr (.inr (.inr (.inr (.inl ⟨rfl, hn, rfl, (Host.Outcome.next.inj h).symm⟩))))
      | some p =>
        rw [hq] at h
        simp only at h
        by_cases hp : p = s.enc.regs.prev
        · subst hp
          refine .inr (.inr (.inr (.inr (.inr (.inl ⟨rfl, hn, rfl, ?_⟩)))))
          unfold encPixelStep at h
          rw [if_pos rfl] at h
          by_cases hr : s.enc.regs.run = 62
          · rw [if_pos (by rw [hr]; rfl), exec_run_enc _ _ he, hr] at h
            cases h
            exact ⟨.inr ⟨hr, rfl, rfl, rfl, rfl, cacheAfter_of_eq _ rfl, rfl, rfl, ⟨rfl, rfl, rfl⟩, rfl, rfl, rfl,
              stores_writeBytes _ _ _⟩, rfl, Memory.wf_writeBytes _ _ _⟩
          · have hr' : s.enc.regs.run.toNat ≠ Config.runMax := fun e => hr (BitVec.eq_of_toNat_eq e)
            rw [if_neg hr'] at h
            cases h
            exact ⟨.inl ⟨hr, rfl, rfl, rfl, rfl, cacheAfter_of_eq _ rfl, rfl, rfl, ⟨rfl, rfl, rfl⟩, rfl, rfl, rfl,
              stores_nil _ _⟩, rfl, id⟩
        · obtain ⟨upd, h1, h2⟩ := encPixelStep_select he hq hp
          rw [h1] at h
          cases h
          refine .inr (.inr (.inr (.inr (.inr (.inr (.inl ⟨p, upd, rfl, hn, rfl, hp, flush_record _ _ _ _, h2,
            ?_⟩))))))
          intro hw
          exact Memory.wf_writeBytes _ _ _ (Memory.wf_writeBytes _ _ _ hw)

/-! ### The whole machine -/

/-- A step of the decoder touches nothing but the decoder (R13). -/
theorem decStep_frame {s t : State} (hd : s.active = .dec) (h : decStep s = .next t) :
    t.enc = s.enc ∧ t.active = s.active ∧ t.agenda = s.agenda := by
  rcases decStep_cases hd h with ⟨_, rfl⟩ | ⟨k, _, rfl⟩ | ⟨_, _, _, _, _, _, _, _, _, rfl⟩ | ⟨_, _, _, rfl⟩
    | ⟨_, _, rfl⟩ | ⟨_, _, _, rfl⟩ | ⟨_, _, _, i, rest, p, run, u, _, _, _, h, _⟩ | ⟨_, rfl⟩
  · simp
  · have := raise_frame k s
    exact ⟨this.2.2.1 hd, this.1, this.2.1⟩
  · simp
  · simp
  · simp
  · simp
  · exact ⟨h.1, h.2.1, h.2.2.1⟩
  · simp

/-- A step of the encoder touches nothing but the encoder (R13). -/
theorem encStep_frame {s t : State} (he : s.active = .enc) (h : encStep s = .next t) :
    t.dec = s.dec ∧ t.active = s.active ∧ t.agenda = s.agenda := by
  rcases encStep_cases he h with ⟨_, rfl⟩ | ⟨k, _, _, rfl⟩ | ⟨_, _, _, rfl⟩ | ⟨_, _, h, _⟩ | ⟨_, _, _, rfl⟩
    | ⟨_, _, _, h, _⟩ | ⟨_, _, _, _, _, _, h, _⟩ | ⟨_, rfl⟩
  · simp
  · have := raise_frame k s
    exact ⟨this.2.2.2 he, this.1, this.2.1⟩
  · simp
  · exact ⟨h.1, h.2.1, h.2.2.1⟩
  · simp
  · rcases h with h | h
    · exact ⟨h.2.1, h.2.2.1, h.2.2.2.1⟩
    · exact ⟨h.2.1, h.2.2.1, h.2.2.2.1⟩
  · exact ⟨h.1, h.2.1, h.2.2.1⟩
  · simp

/-- A step of the machine is a step of the encoder, a step of the decoder, or a move of the host. -/
theorem step_cases {s t : State} (h : step s = .next t) :
    (∃ s', s'.enc = s.enc ∧ s'.dec = s.dec ∧ s'.active = .enc ∧ encStep s' = .next t
      ∧ (s.agenda = [] ∨ ∃ later, s.agenda = .run .enc :: later))
    ∨ (∃ s', s'.enc = s.enc ∧ s'.dec = s.dec ∧ s'.active = .dec ∧ decStep s' = .next t
      ∧ (s.agenda = [] ∨ ∃ later, s.agenda = .run .dec :: later))
    ∨ (∃ m later, s.agenda = .host m :: later ∧ t = hostMove m { s with agenda := later }) := by
  unfold step at h
  split at h
  · rename_i ha
    cases hn : s.nextEngine with
    | enc =>
      rw [hn] at h
      exact .inl ⟨{ s with active := .enc }, rfl, rfl, rfl, h, .inl ha⟩
    | dec =>
      rw [hn] at h
      exact .inr (.inl ⟨{ s with active := .dec }, rfl, rfl, rfl, h, .inl ha⟩)
  · rename_i e rest ha
    cases e with
    | enc => exact .inl ⟨{ s with active := .enc, agenda := rest }, rfl, rfl, rfl, h, .inr ⟨_, ha⟩⟩
    | dec => exact .inr (.inl ⟨{ s with active := .dec, agenda := rest }, rfl, rfl, rfl, h, .inr ⟨_, ha⟩⟩)
  · rename_i m rest ha
    exact .inr (.inr ⟨_, _, ha, (Host.Outcome.next.inj h).symm⟩)

end Sys2Proof.Machine
end

