-- ==== Sys2Proof/Tests/Slice0.lean ====
section
/-! SUPPORT. The model's own tests. Expected values are those of spec/95_test_vectors.md (V<n>, P<n>, section
3) and of R88, or words written out from the formats of R38 and R43. Then the witnesses: for every statement
with hypotheses, a state and operands that meet them. -/

namespace Sys2Proof.Tests

open Sys2Proof.Machine

/-! ### Small states -/

/-- A body-only decode call of `n` cells of `c` channels in its body phase, with `PREV` and `RUN` given. -/
def decAt (c : Byte) (n : Word) (prev : Pixel) (run : BitVec 6) (body : List Byte) : State :=
  { State.reset with
    dec := { Dec.reset.start true body with
      regs := { Regs.reset.start with cfg := ⟨n, 1, c, 0⟩, st := .body, prev := prev, run := run }
      descOut := ⟨n, 1, c, 0⟩ } }

/-- An encode call on the one-row grid `ps` in its body phase, with `PREV` and `RUN` given. -/
def encAt (c : Byte) (prev : Pixel) (run : BitVec 6) (ps : List (List Byte)) : State :=
  { State.reset with
    active := .enc
    enc := { Enc.reset.start false (Grid.ofPixels ps) with
      regs := { Regs.reset.start with
        cfg := ⟨BitVec.ofNat 32 ps.length, 1, c, 0⟩, st := .body, prev := prev, run := run } } }

/-- An encode call that has just started. -/
def encStart (w h : Word) (c : Byte) (ps : List (List Byte)) : State :=
  { State.reset with
    active := .enc
    enc := { Enc.reset.start false (Grid.ofPixels ps) with
      regs := { Regs.reset.start with cfg := ⟨w, h, c, 1⟩ } } }

/-- An encode call of `n` pixels of 3 channels in its body phase, whose pixels follow one by one: so far `ps`,
all scanned, the last of them `prev`. -/
def streamAt (n : Word) (st : Status) (ps : List (List Byte)) (prev : Pixel) (agenda : List Event) : State :=
  { State.reset with
    active := .enc
    agenda := agenda
    enc := { Enc.reset.start true (Grid.ofPixels ps) with
      regs := { Regs.reset.start with
        cfg := ⟨n, 1, 3, 0⟩, st := st, prev := prev, pxi := BitVec.ofNat 64 ps.length } } }

/-- A decode call on a whole file in its header phase. -/
def fileAt (headerRead : Bool) (file : List Byte) : State :=
  { State.reset with dec := { Dec.reset.start false file with headerRead := headerRead } }

/-- The zero pixel every call starts from. -/
def zeroPixel : Pixel := ⟨0, 0, 0, 255⟩

/-- V1's file. -/
def fileV1 : List Byte :=
  [0x71, 0x6F, 0x69, 0x66, 0, 0, 0, 1, 0, 0, 0, 1, 3, 1, 0xFE, 0xFF, 0, 0, 0, 0, 0, 0, 0, 0, 0, 1]

/-- The first cell's bytes, `POS`, `RUN` and `ERR` of the decoder after a step. -/
def decOut : Result → Option (List Byte × Count × BitVec 6 × BitVec 4)
  | .next t => some (t.dec.pixOut.readBytes 0 4, t.dec.pos, t.dec.regs.run, t.dec.regs.err)
  | .fault _ => none
  | .refused _ => none

/-- The bytes emitted so far, `PREV`, `RUN` and `ERR` of the encoder after a step. -/
def encOut : Result → Option (List Byte × Pixel × BitVec 6 × BitVec 4)
  | .next t =>
      some (t.enc.byteOut.readBytes 0 t.enc.outLen, t.enc.regs.prev, t.enc.regs.run, t.enc.regs.err)
  | .fault _ => none
  | .refused _ => none

/-- The decoder's descriptor, status and one cache slot after a step. -/
def decRegs (i : Slot) : Result → Option (Cfg × Status × Pixel)
  | .next t => some (t.dec.regs.cfg, t.dec.regs.st, t.dec.regs.cache[i])
  | .fault _ => none
  | .refused _ => none

/-! ### Well-formed terms (R40), each check refusing an ill-formed one -/

theorem test_wellFormed_diff :
    (Instr.diff (-2) 1 0).wellFormed = true ∧ (Instr.diff (-3) 0 0).wellFormed = false
      ∧ (Instr.diff 2 0 0).wellFormed = false ∧ (Instr.diff 0 (-3) 0).wellFormed = false
      ∧ (Instr.diff 0 2 0).wellFormed = false ∧ (Instr.diff 0 0 (-3)).wellFormed = false
      ∧ (Instr.diff 0 0 2).wellFormed = false := by decide

theorem test_wellFormed_luma :
    (Instr.luma (-32) 7 (-8)).wellFormed = true ∧ (Instr.luma (-33) 0 0).wellFormed = false
      ∧ (Instr.luma 32 0 0).wellFormed = false ∧ (Instr.luma 0 (-9) 0).wellFormed = false
      ∧ (Instr.luma 0 8 0).wellFormed = false ∧ (Instr.luma 0 0 (-9)).wellFormed = false
      ∧ (Instr.luma 0 0 8).wellFormed = false := by decide

theorem test_wellFormed_run :
    (Instr.run 1).wellFormed = true ∧ (Instr.run 62).wellFormed = true
      ∧ (Instr.run 0).wellFormed = false ∧ (Instr.run 63).wellFormed = false := by decide

/-! ### Words written out from the formats (R38, R43) -/

theorem test_decode_index : decodeRecord [0b00_110101] = .ok (.index 53, []) := by rfl
theorem test_decode_diff : decodeRecord [0b01_01_11_00] = .ok (.diff (-1) 1 (-2), []) := by rfl
theorem test_decode_luma : decodeRecord [0b10_101011, 0b0110_0010] = .ok (.luma 11 (-2) (-6), []) := by rfl
theorem test_decode_run : decodeRecord [0b11_100101] = .ok (.run 38, []) := by rfl

theorem test_decode_rgb :
    decodeRecord [0b11111110, 0x0A, 0x14, 0x1E, 0xC0] = .ok (.rgb 10 20 30, [0xC0]) := by rfl

theorem test_decode_rgba :
    decodeRecord [0b11111111, 0x28, 0x32, 0x2D, 0xFF] = .ok (.rgba 40 50 45 255, []) := by rfl

theorem test_decode_header :
    decodeHeader [0x71, 0x6F, 0x69, 0x66, 0, 0, 0, 3, 0, 0, 0, 2, 4, 0] = .ok (.header 3 2 4 0) := by rfl

theorem test_decode_trailer : decodeTrailer [0, 0, 0, 0, 0, 0, 0, 1] = .ok .trailer := by rfl

theorem test_decode_short :
    decodeRecord [] = .error .noTag ∧ decodeRecord [0x80] = .error (.shortRecord 0x80)
      ∧ decodeRecord [0xFE, 1, 2] = .error (.shortRecord 0xFE)
      ∧ decodeRecord [0xFF, 1, 2, 3] = .error (.shortRecord 0xFF)
      ∧ decodeHeader [0x71, 0x6F, 0x69, 0x66] = .error .shortHeader
      ∧ decodeTrailer [0, 0, 1] = .error .shortTrailer := ⟨rfl, rfl, rfl, rfl, rfl, rfl⟩

/-- The words of spec/opcode_table.json, with the operands zero. -/
def tableRows : List (Nat × Nat × Instr) :=
  [(8, 0x00, .index 0), (8, 0x40, .diff (-2) (-2) (-2)), (16, 0x80, .luma (-32) (-8) (-8)),
    (8, 0xC0, .run 1), (32, 0xFE, .rgb 0 0 0), (40, 0xFF, .rgba 0 0 0 0),
    (112, 0x716F6966, .header 0 0 0 0), (32, 0x716F6966, .header 0 0 0 0), (64, 1, .trailer),
    (16, 1, .trailer), (16, 0x6280, .luma (-32) (-2) (-6)), (32, 0x1E140AFE, .rgb 10 20 30)]

theorem test_table_words_decode : ∀ x ∈ tableRows, decodeTableWord x.1 x.2.1 = some x.2.2 := by decide

theorem test_table_words_run : ∀ x ∈ tableRows,
    decOut (step (State.reset.withFetchWord x.1 x.2.1))
      = decOut (exec x.2.2 (State.reset.withFetchWord x.1 x.2.1)) := by decide

/-! ### One step of each instruction, in the decoder and in the encoder -/

/-- V18: a slot never written, 4 channels. -/
theorem test_index_decoded : decOut (step (decAt 4 1 ⟨9, 9, 9, 9⟩ 0 [0x07])) = some ([0, 0, 0, 255], 1, 0, 0) := by
  decide

/-- V11: slot 53 still holds its initial value. -/
theorem test_index_encoded :
    encOut (step (encAt 3 ⟨255, 255, 255, 255⟩ 0 [[0, 0, 0]])) = some ([0x35], zeroPixel, 0, 0) := by decide

/-- V16: DIFF wraps on decode; the second cell of the second row of the table. -/
theorem test_diff_decoded :
    decOut (step (decAt 3 1 zeroPixel 0 [0x40])) = some ([254, 254, 254, 0], 1, 0, 0)
      ∧ decOut (step (decAt 3 1 ⟨255, 255, 255, 255⟩ 0 [0x7F])) = some ([0, 0, 0, 0], 1, 0, 0) := by decide

/-- P2, step 2: the open run is flushed, then DIFF. -/
theorem test_diff_encoded :
    encOut (step (encAt 3 ⟨10, 20, 30, 255⟩ 1 [[11, 19, 30]]))
      = some ([0xC0, 0x76], ⟨11, 19, 30, 255⟩, 0, 0) := by decide

/-- V17: LUMA wraps on decode. -/
theorem test_luma_decoded :
    decOut (step (decAt 3 1 ⟨250, 250, 250, 255⟩ 0 [0xBF, 0xFF])) = some ([32, 25, 32, 0], 2, 0, 0) := by
  decide

/-- V10: the lower extreme, and one past the range, which is a literal. -/
theorem test_luma_encoded :
    encOut (step (encAt 3 ⟨100, 100, 100, 255⟩ 0 [[60, 68, 60]])) = some ([0x80, 0x00], ⟨60, 68, 60, 255⟩, 0, 0)
      ∧ encOut (step (encAt 3 ⟨100, 100, 100, 255⟩ 0 [[100, 100, 91]]))
          = some ([0xFE, 0x64, 0x64, 0x5B], ⟨100, 100, 91, 255⟩, 0, 0) := by decide

/-- V21: `RUN` gets the field, not the count. -/
theorem test_run_decoded :
    decOut (step (decAt 3 1 zeroPixel 0 [0xC1])) = some ([0, 0, 0, 0], 1, 1, 0) := by decide

/-- P4, step 62: a 63rd equal pixel flushes 62 and restarts the count. -/
theorem test_run_encoded :
    encOut (step (encAt 3 zeroPixel 62 [[0, 0, 0]])) = some ([0xFD], zeroPixel, 1, 0) := by decide

/-- V1, with the cache slot of its end state. -/
theorem test_rgb_decoded :
    decOut (step (decAt 3 1 zeroPixel 0 [0xFE, 0xFF, 0, 0])) = some ([255, 0, 0, 0], 4, 0, 0)
      ∧ decRegs 50 (step (decAt 3 1 zeroPixel 0 [0xFE, 0xFF, 0, 0]))
          = some (⟨1, 1, 3, 0⟩, .body, ⟨255, 0, 0, 255⟩) := by decide

/-- V11: no wrap on encode. -/
theorem test_rgb_encoded :
    encOut (step (encAt 3 ⟨255, 255, 255, 255⟩ 0 [[0, 0, 1]])) = some ([0xFE, 0, 0, 1], ⟨0, 0, 1, 255⟩, 0, 0) := by
  decide

/-- V20: the tag of the other channel count, checked before the length. -/
theorem test_rgba_decoded :
    decOut (step (decAt 3 1 zeroPixel 0 [0xFF])) = some ([0, 0, 0, 0], 0, 0, 7)
      ∧ decOut (step (decAt 4 1 zeroPixel 0 [0xFF, 1, 2, 3, 4])) = some ([1, 2, 3, 4], 5, 0, 0) := by decide

/-- V13: transparent black as the first pixel. -/
theorem test_rgba_encoded :
    encOut (step (encAt 4 zeroPixel 0 [[0, 0, 0, 0]])) = some ([0xFF, 0, 0, 0, 0], ⟨0, 0, 0, 0⟩, 0, 0) := by
  decide

/-- V25: V1's header loads the descriptor; with colorspace 2 it is `BadHeader`. -/
theorem test_header_decoded :
    decRegs 0 (step (fileAt false fileV1)) = some (⟨1, 1, 3, 1⟩, .header, zeroPixel)
      ∧ decOut (step (fileAt false (fileV1.set 13 2))) = some ([0, 0, 0, 0], 0, 0, 6) := by decide

/-- R88's example. -/
theorem test_header_encoded :
    encOut (step (encStart 1 1 3 [[255, 0, 0]]))
      = some ([0x71, 0x6F, 0x69, 0x66, 0, 0, 0, 1, 0, 0, 0, 1, 3, 1], zeroPixel, 0, 0) := by decide

/-- V25: V1's file with its last byte 00, and V1's file. -/
theorem test_trailer_decoded :
    decOut (step (fileAt true (fileV1.set 25 0))) = some ([0, 0, 0, 0], 0, 0, 4)
      ∧ decRegs 0 (step (fileAt true fileV1)) = some (⟨0, 0, 0, 0⟩, .body, zeroPixel) := by decide

/-- R89: the trailer's bytes. -/
theorem test_trailer_encoded :
    encOut (exec .trailer (encAt 3 zeroPixel 0 [])) = some ([0, 0, 0, 0, 0, 0, 0, 1], zeroPixel, 0, 0) := by
  decide

/-! ### Primitives and errors -/

/-- V7. -/
theorem test_hash :
    [(⟨0, 0, 0, 255⟩ : Pixel), ⟨0, 0, 0, 0⟩, ⟨255, 255, 255, 255⟩, ⟨255, 0, 0, 255⟩, ⟨10, 20, 30, 255⟩,
        ⟨200, 100, 50, 255⟩, ⟨64, 0, 0, 255⟩, ⟨1, 1, 1, 0⟩, ⟨1, 2, 3, 4⟩, ⟨100, 100, 100, 255⟩,
        ⟨40, 50, 45, 255⟩].map pixelHash
      = [53, 0, 38, 50, 9, 31, 53, 15, 14, 17, 34] := by decide

/-- V22, cell 3: the refresh of a run continuation writes the slot of `PREV`. -/
def refreshState : State :=
  { decAt 3 5 zeroPixel 1 [0x35] with
    dec := { (decAt 3 5 zeroPixel 1 [0x35]).dec with
      regs := (decAt 3 5 zeroPixel 1 [0x35]).dec.regs.update ⟨64, 0, 0, 255⟩ } }

theorem test_run_refresh :
    refreshState.dec.regs.cache[(53 : Slot)] = ⟨64, 0, 0, 255⟩
      ∧ decOut (step refreshState) = some ([0, 0, 0, 0], 0, 0, 0)
      ∧ decRegs 53 (step refreshState) = some (⟨5, 1, 3, 0⟩, .body, zeroPixel) := by decide

/-- V26: the errors of an encode call, with no byte emitted. -/
theorem test_encode_errors :
    [encStart 1 1 2 [[1, 2]], encStart 0 1 3 [], encStart 0 0 7 [], encStart 2 1 3 [[1, 2, 3]]].map
        (fun s => encOut (step s))
      = [some ([], zeroPixel, 0, 1), some ([], zeroPixel, 0, 2), some ([], zeroPixel, 0, 1),
        some ([], zeroPixel, 0, 2)] := by decide

/-- V25: a file of 13 bytes, and a wrong magic before a wrong field. -/
theorem test_file_errors :
    decOut (step (fileAt false (fileV1.take 13))) = some ([0, 0, 0, 0], 0, 0, 5)
      ∧ decOut (step (fileAt false ((fileV1.set 3 0x67).set 12 9))) = some ([0, 0, 0, 0], 0, 0, 3)
      ∧ decOut (step (fileAt true (fileV1.take 21))) = some ([0, 0, 0, 0], 0, 0, 5) := by decide

/-- How many pixels an encoder has been given, and its status, after a step. -/
def encPorts : Result → Option (List Nat × Status)
  | .next t => some (t.enc.pixIn.chans, t.enc.regs.st)
  | .fault _ => none
  | .refused _ => none

/-- R117, U5: without its next pixel the encoder stays in BODY; a pixel handed over joins the grid, the last
one too; one beyond `N` does not. -/
theorem test_streamed_pixels :
    encPorts (step (streamAt 2 .body [[1, 2, 3]] ⟨1, 2, 3, 255⟩ [])) = some ([3], .body)
      ∧ encPorts (step (streamAt 2 .body [[1, 2, 3]] ⟨1, 2, 3, 255⟩ [.host (.pixel ⟨4, 5, 6, 7⟩)]))
          = some ([3, 3], .body)
      ∧ encPorts (step (streamAt 1 .body [[1, 2, 3]] ⟨1, 2, 3, 255⟩ [.host (.pixel ⟨4, 5, 6, 7⟩)]))
          = some ([3], .body) := by decide

/-- A decode call of a 1 x 1 grid in DONE, and the descriptor of the next call about to be written. -/
def doneState : State :=
  { decAt 3 1 zeroPixel 0 [] with
    dec := { (decAt 3 1 zeroPixel 0 []).dec with regs := (decAt 3 1 zeroPixel 0 []).dec.regs.setSt .done }
    agenda := [.host (.writeCfg .dec ⟨7, 7, 4, 0⟩)] }

/-- R114: `desc_out` keeps the descriptor of the finished call. -/
theorem test_desc_out :
    doneState.dec.result = .ok (⟨1, 1, 3, 0⟩, [[0, 0, 0]])
      ∧ ∃ t, step doneState = .next t ∧ t.dec.regs.cfg = ⟨7, 7, 4, 0⟩
        ∧ t.dec.result = .ok (⟨1, 1, 3, 0⟩, [[0, 0, 0]]) := ⟨by decide, _, rfl, rfl, by decide⟩

/-! ### Witnesses: the hypotheses of each statement can be met, at the ends of their ranges -/

theorem witness_RecordsDecodeAsEncoded :
    (Instr.luma (-32) 7 (-8)).isRecord = true ∧ (Instr.luma (-32) 7 (-8)).wellFormed = true := by decide

theorem witness_DecodedBytesAreTheirEncoding :
    decodeRecord [0xFF, 1, 2, 3, 4, 0xC0] = .ok (.rgba 1 2 3 4, [0xC0]) := by rfl

theorem witness_ContainerItemsDecodeAsEncoded :
    decodeHeader fileV1 = .ok (.header 1 1 3 1) ∧ decodeTrailer (fileV1.drop 18) = .ok .trailer := ⟨rfl, rfl⟩

theorem witness_EveryTagSelectsOneRecordKind :
    (0x3F : Byte).toNat = (63 : Slot).val ∧ (0x40 ≤ (0x40 : Byte).toNat ∧ (0x7F : Byte).toNat ≤ 0x7F)
      ∧ (0x80 ≤ (0x80 : Byte).toNat ∧ (0xBF : Byte).toNat ≤ 0xBF)
      ∧ (0xC0 ≤ (0xC0 : Byte).toNat ∧ (0xFD : Byte).toNat ≤ 0xFD) := by decide

theorem witness_RecordLengthComesFromTheTag :
    decodeRecord (0xBF :: [0xFF]) = .ok (.luma 31 7 7, []) ∧ decodeRecord (0xC0 :: []) = .ok (.run 1, [])
      ∧ decodeRecord (0xFE :: [1, 2, 3]) = .ok (.rgb 1 2 3, [])
      ∧ decodeRecord (0xFF :: [1, 2, 3, 4]) = .ok (.rgba 1 2 3 4, []) := ⟨rfl, rfl, rfl, rfl⟩

theorem witness_UpdateWritesOneSlot : (0 : Slot) ≠ pixelHash zeroPixel := by decide

theorem witness_FreshCacheHoldsTheZeroPixel : Regs.reset.start.cache[(53 : Slot)] = ⟨0, 0, 0, 255⟩ := by decide

theorem witness_DecoderLiteralsComplete :
    ((decAt 3 1 zeroPixel 0 []).active = .dec ∧ (decAt 3 1 zeroPixel 0 []).dec.regs.cfg.c = 3)
      ∧ ((decAt 4 1 zeroPixel 0 []).active = .dec ∧ (decAt 4 1 zeroPixel 0 []).dec.regs.cfg.c = 4) := by decide

theorem witness_DecoderIndexAndRunComplete :
    (decAt 3 1 zeroPixel 0 []).active = .dec ∧ 1 ≤ 62 ∧ 62 ≤ 62 := by decide

theorem witness_DecoderHeaderLoadsDescriptor :
    (fileAt false fileV1).active = .dec
      ∧ ((1 : Word) ≠ 0 ∧ (0xFFFFFFFF : Word) ≠ 0 ∧ ((4 : Byte) = 3 ∨ (4 : Byte) = 4)
        ∧ ((1 : Byte) = 0 ∨ (1 : Byte) = 1))
      ∧ ¬ ((1 : Word) ≠ 0 ∧ (1 : Word) ≠ 0 ∧ ((3 : Byte) = 3 ∨ (3 : Byte) = 4)
        ∧ ((2 : Byte) = 0 ∨ (2 : Byte) = 1)) := by decide

/-- Also of DecoderDeltasComplete, whose one hypothesis is the active engine. -/
theorem witness_DecoderTrailerBeginsTheBody :
    (fileAt true fileV1).active = .dec ∧ (decAt 3 1 zeroPixel 0 []).active = .dec := by decide

theorem witness_EncoderRecordsComplete :
    (encAt 3 zeroPixel 0 [[1, 2, 3]]).active = .enc
      ∧ (encAt 3 zeroPixel 0 [[1, 2, 3]]).enc.pixel = some ⟨1, 2, 3, 255⟩ := by decide

/-- Also of EncoderContainerItemsComplete, whose one hypothesis is the active engine. -/
theorem witness_EncoderRunFlushCompletes :
    (encAt 3 zeroPixel 62 []).active = .enc ∧ 1 ≤ 62 ∧ 62 ≤ 62 := by decide

/-- A decoder ready for a record, by each of the tags of the record steps. -/
theorem witness_decReady (c : Byte) (body : List Byte) : decReady (decAt c 1 zeroPixel 0 body) := by
  refine ⟨rfl, rfl, rfl, ?_, rfl⟩
  show (0 : Count) ≠ (1 : Word).setWidth 64 * (1 : Word).setWidth 64
  decide

theorem witness_StepRunsTheDecodedRecord :
    decReady (decAt 3 1 zeroPixel 0 [0xC0])
      ∧ decodeRecord (decAt 3 1 zeroPixel 0 [0xC0]).dec.fetchRecord = .ok (.run 1, [])
      ∧ { decAt 3 1 zeroPixel 0 [0xC0] with agenda := [.run .dec] }.agenda = .run .dec :: [] :=
  ⟨witness_decReady _ _, rfl, rfl⟩

theorem witness_StepRunsTheContainerItem :
    ((fileAt false fileV1).agenda = [] ∧ (fileAt false fileV1).active = .dec
        ∧ (fileAt false fileV1).dec.regs.st = .header ∧ (fileAt false fileV1).dec.bodyOnly = false
        ∧ (fileAt false fileV1).dec.headerRead = false
        ∧ decodeHeader (fileAt false fileV1).dec.fetchHeader = .ok (.header 1 1 3 1))
      ∧ ((fileAt true fileV1).dec.headerRead = true ∧ 22 ≤ (fileAt true fileV1).dec.len.toNat
        ∧ decodeTrailer (fileAt true fileV1).dec.fetchTrailer = .ok .trailer)
      ∧ ((encStart 1 1 3 [[255, 0, 0]]).agenda = [] ∧ (encStart 1 1 3 [[255, 0, 0]]).active = .enc
        ∧ (encStart 1 1 3 [[255, 0, 0]]).enc.regs.st = .header
        ∧ (encStart 1 1 3 [[255, 0, 0]]).enc.check = none)
      ∧ (∃ s : State, s.agenda = [] ∧ s.active = .enc ∧ s.enc.regs.st = .trailer) :=
  ⟨⟨rfl, rfl, rfl, rfl, rfl, rfl⟩, ⟨rfl, by decide, rfl⟩, ⟨rfl, rfl, rfl, by decide⟩,
    { State.reset with active := .enc, enc := { Enc.reset with regs := { Regs.reset with st := .trailer } } },
    rfl, rfl, rfl⟩

theorem witness_RgbRecordStep :
    (∀ c body, decReady (decAt c 1 zeroPixel 0 body))
      ∧ (decAt 3 1 zeroPixel 0 [0xFE, 1, 2, 3]).dec.fetch 0 = 0xFE
      ∧ (decAt 3 1 zeroPixel 0 [0xFE, 1, 2, 3]).dec.has 4
      ∧ (decAt 3 1 zeroPixel 0 [0xFE, 1, 2]).dec.fetch 0 = 0xFE
      ∧ ¬ (decAt 3 1 zeroPixel 0 [0xFE, 1, 2]).dec.has 4
      ∧ (decAt 4 1 zeroPixel 0 [0xFE]).dec.fetch 0 = 0xFE
      ∧ (decAt 4 1 zeroPixel 0 [0xFE]).dec.has 1 := by
  refine ⟨witness_decReady, ?_⟩
  unfold Dec.has
  decide

theorem witness_RgbaRecordStep :
    (∀ c body, decReady (decAt c 1 zeroPixel 0 body))
      ∧ (decAt 4 1 zeroPixel 0 [0xFF, 1, 2, 3, 4]).dec.fetch 0 = 0xFF
      ∧ (decAt 4 1 zeroPixel 0 [0xFF, 1, 2, 3, 4]).dec.has 5
      ∧ (decAt 4 1 zeroPixel 0 [0xFF, 1, 2, 3]).dec.fetch 0 = 0xFF
      ∧ ¬ (decAt 4 1 zeroPixel 0 [0xFF, 1, 2, 3]).dec.has 5
      ∧ (decAt 3 1 zeroPixel 0 [0xFF]).dec.fetch 0 = 0xFF
      ∧ (decAt 3 1 zeroPixel 0 [0xFF]).dec.has 1 := by
  refine ⟨witness_decReady, ?_⟩
  unfold Dec.has
  decide

theorem witness_IndexRecordStep :
    decReady (decAt 3 1 zeroPixel 0 [0x3F]) ∧ (decAt 3 1 zeroPixel 0 [0x3F]).dec.has 1
      ∧ ((decAt 3 1 zeroPixel 0 [0x3F]).dec.fetch 0).toNat = (63 : Slot).val := by
  refine ⟨witness_decReady _ _, ?_⟩
  unfold Dec.has
  decide

theorem witness_DiffRecordStep :
    (∀ body, decReady (decAt 3 1 zeroPixel 0 body)) ∧ (decAt 3 1 zeroPixel 0 [0x40]).dec.has 1
      ∧ 0x40 ≤ ((decAt 3 1 zeroPixel 0 [0x40]).dec.fetch 0).toNat
      ∧ (decAt 3 1 zeroPixel 0 [0x7F]).dec.has 1
      ∧ ((decAt 3 1 zeroPixel 0 [0x7F]).dec.fetch 0).toNat = 0x7F := by
  refine ⟨witness_decReady _, ?_⟩
  unfold Dec.has
  decide

theorem witness_LumaRecordStep :
    (∀ body, decReady (decAt 3 1 zeroPixel 0 body)) ∧ (decAt 3 1 zeroPixel 0 [0xBF, 0xFF]).dec.has 2
      ∧ ((decAt 3 1 zeroPixel 0 [0xBF, 0xFF]).dec.fetch 0).toNat = 0xBF
      ∧ (decAt 3 1 zeroPixel 0 [0x80]).dec.has 1 ∧ ¬ (decAt 3 1 zeroPixel 0 [0x80]).dec.has 2
      ∧ ((decAt 3 1 zeroPixel 0 [0x80]).dec.fetch 0).toNat = 0x80 := by
  refine ⟨witness_decReady _, ?_⟩
  unfold Dec.has
  decide

theorem witness_RunRecordStep :
    (∀ body, decReady (decAt 3 1 zeroPixel 0 body)) ∧ (decAt 3 1 zeroPixel 0 [0xFD]).dec.has 1
      ∧ ((decAt 3 1 zeroPixel 0 [0xFD]).dec.fetch 0).toNat = 0xFD
      ∧ ((decAt 3 1 zeroPixel 0 [0xC0]).dec.fetch 0).toNat = 0xC0 := by
  refine ⟨witness_decReady _, ?_⟩
  unfold Dec.has
  decide

theorem witness_RunContinuationStep :
    (decAt 3 1 zeroPixel 61 []).agenda = [] ∧ (decAt 3 1 zeroPixel 61 []).active = .dec
      ∧ (decAt 3 1 zeroPixel 61 []).dec.regs.st = .body
      ∧ (decAt 3 1 zeroPixel 61 []).dec.regs.pxi ≠ (decAt 3 1 zeroPixel 61 []).dec.regs.cfg.n
      ∧ (decAt 3 1 zeroPixel 61 []).dec.regs.run ≠ 0 := by decide

theorem witness_ShortBodyIsTruncated :
    (∀ c body, decReady (decAt c 1 zeroPixel 0 body)) ∧ ¬ (decAt 3 1 zeroPixel 0 []).dec.has 1
      ∧ ((decAt 3 1 zeroPixel 0 [0xFE, 1, 2]).dec.has 1 ∧ ¬ (decAt 3 1 zeroPixel 0 [0xFE, 1, 2]).dec.has 4)
      ∧ ((decAt 4 1 zeroPixel 0 [0xFF]).dec.has 1 ∧ ¬ (decAt 4 1 zeroPixel 0 [0xFF]).dec.has 5)
      ∧ ((decAt 3 1 zeroPixel 0 [0xBF]).dec.has 1 ∧ ¬ (decAt 3 1 zeroPixel 0 [0xBF]).dec.has 2) := by
  refine ⟨witness_decReady, ?_⟩
  unfold Dec.has
  decide

/-- A file that differs in its header and its trailer only. -/
theorem witness_RecordsReadOnlyTheBody :
    ∀ x, 14 ≤ x → x < 18 →
      (Memory.ofBytes ((fileV1.set 0 9).set 25 9)).read x = (fileAt true fileV1).dec.fileIn.read x := by
  intro x h1 h2
  obtain rfl | rfl | rfl | rfl : x = 14 ∨ x = 15 ∨ x = 16 ∨ x = 17 := by omega
  all_goals decide

theorem witness_FullGridEndsTheDecode :
    (decAt 3 0 zeroPixel 0 []).agenda = [] ∧ (decAt 3 0 zeroPixel 0 []).active = .dec
      ∧ (decAt 3 0 zeroPixel 0 []).dec.regs.st = .body
      ∧ (decAt 3 0 zeroPixel 0 []).dec.regs.pxi = (decAt 3 0 zeroPixel 0 []).dec.regs.cfg.n := by decide

/-- The header phase, before the header is read, with the words a file's bytes 4 to 11 give. -/
theorem witness_HeaderChecksComeInOrder :
    ((fileAt false fileV1).agenda = [] ∧ (fileAt false fileV1).active = .dec
        ∧ (fileAt false fileV1).dec.regs.st = .header ∧ (fileAt false fileV1).dec.bodyOnly = false
        ∧ (fileAt false fileV1).dec.headerRead = false
        ∧ (1 : Word).toNat = ((fileAt false fileV1).dec.fileIn.read 4).toNat * 2 ^ 24
            + ((fileAt false fileV1).dec.fileIn.read 5).toNat * 2 ^ 16
            + ((fileAt false fileV1).dec.fileIn.read 6).toNat * 2 ^ 8
            + ((fileAt false fileV1).dec.fileIn.read 7).toNat
        ∧ 14 ≤ (fileAt false (fileV1.take 14)).dec.len.toNat
        ∧ (fileAt false (fileV1.take 14)).dec.fileIn.readBytes 0 4 = [0x71, 0x6F, 0x69, 0x66])
      ∧ (fileAt false (fileV1.take 13)).dec.len.toNat < 14
      ∧ (fileAt false (fileV1.set 3 0x67)).dec.fileIn.readBytes 0 4 ≠ [0x71, 0x6F, 0x69, 0x66] := by decide

theorem witness_TrailerIsCheckedBeforeTheBody :
    ((fileAt true fileV1).agenda = [] ∧ (fileAt true fileV1).active = .dec
        ∧ (fileAt true fileV1).dec.regs.st = .header ∧ (fileAt true fileV1).dec.bodyOnly = false
        ∧ (fileAt true fileV1).dec.headerRead = true)
      ∧ (fileAt true (fileV1.take 21)).dec.len.toNat < 22
      ∧ (22 ≤ (fileAt true (fileV1.take 22)).dec.len.toNat
        ∧ (fileAt true (fileV1.take 22)).dec.fileIn.readBytes
            ((fileAt true (fileV1.take 22)).dec.len.toNat - 8) 8 ≠ [0, 0, 0, 0, 0, 0, 0, 1])
      ∧ (22 ≤ (fileAt true fileV1).dec.len.toNat
        ∧ (fileAt true fileV1).dec.fileIn.readBytes
            ((fileAt true fileV1).dec.len.toNat - 8) 8 = [0, 0, 0, 0, 0, 0, 0, 1]) := by decide

/-- The start of a body-only call under the descriptor given. -/
def bodyStart (d : Cfg) : State :=
  { State.reset with dec := { Dec.reset.start true [] with regs := { Regs.reset.start with cfg := d } } }

theorem witness_BodyOnlyEntryChecksTheDescriptor :
    (∀ d, (bodyStart d).agenda = [] ∧ (bodyStart d).active = .dec ∧ (bodyStart d).dec.regs.st = .header
        ∧ (bodyStart d).dec.bodyOnly = true)
      ∧ ¬ ((bodyStart ⟨0, 0, 5, 0⟩).dec.regs.cfg.c = 3 ∨ (bodyStart ⟨0, 0, 5, 0⟩).dec.regs.cfg.c = 4)
      ∧ ((bodyStart ⟨0, 1, 3, 0⟩).dec.regs.cfg.c = 3 ∧ (bodyStart ⟨0, 1, 3, 0⟩).dec.regs.cfg.w = 0)
      ∧ ((bodyStart ⟨1, 1, 4, 0⟩).dec.regs.cfg.c = 4 ∧ (bodyStart ⟨1, 1, 4, 0⟩).dec.regs.cfg.w ≠ 0
        ∧ (bodyStart ⟨1, 1, 4, 0⟩).dec.regs.cfg.h ≠ 0) :=
  ⟨fun _ => ⟨rfl, rfl, rfl, rfl⟩, by decide, by decide, by decide⟩

theorem witness_EncodeChecksComeInOrder :
    (∀ w h c ps, (encStart w h c ps).agenda = [] ∧ (encStart w h c ps).active = .enc
        ∧ (encStart w h c ps).enc.regs.st = .header)
      ∧ ¬ ((encStart 1 1 2 []).enc.regs.cfg.c = 3 ∨ (encStart 1 1 2 []).enc.regs.cfg.c = 4)
      ∧ ((encStart 0 1 3 []).enc.regs.cfg.c = 3 ∧ (encStart 0 1 3 []).enc.regs.cfg.w = 0)
      ∧ (encStart 2 1 3 [[1, 2, 3]]).enc.pixIn.chans.length ≠ 2 * 1
      ∧ (4 ∈ (encStart 1 1 3 [[1, 2, 3, 4]]).enc.pixIn.chans ∧ 4 ≠ (3 : Byte).toNat)
      ∧ ((encStart 1 1 4 [[1, 2, 3, 4]]).enc.pixIn.chans.length = 1 * 1
        ∧ ∀ k ∈ (encStart 1 1 4 [[1, 2, 3, 4]]).enc.pixIn.chans, k = (4 : Byte).toNat)
      ∧ ((streamAt 1 .header [] zeroPixel []).enc.regs.st = .header
        ∧ (streamAt 1 .header [] zeroPixel []).enc.streamed = true) :=
  ⟨fun _ _ _ _ => ⟨rfl, rfl, rfl⟩, by decide, by decide, by decide, by decide, by decide, rfl, rfl⟩

theorem witness_EqualPixelJoinsTheRun :
    encReady (encAt 3 zeroPixel 0 [[0, 0, 0]]) zeroPixel
      ∧ (encAt 3 zeroPixel 0 [[0, 0, 0]]).enc.regs.run.toNat ≤ 62
      ∧ (encAt 3 zeroPixel 0 [[0, 0, 0]]).enc.regs.run ≠ 62
      ∧ encReady (encAt 3 zeroPixel 61 [[0, 0, 0]]) zeroPixel
      ∧ (encAt 3 zeroPixel 61 [[0, 0, 0]]).enc.regs.prev = zeroPixel
      ∧ (encAt 3 zeroPixel 61 [[0, 0, 0]]).enc.regs.run.toNat ≤ 62
      ∧ (encAt 3 zeroPixel 61 [[0, 0, 0]]).enc.regs.run ≠ 62
      ∧ encReady (encAt 3 zeroPixel 62 [[0, 0, 0]]) zeroPixel
      ∧ (encAt 3 zeroPixel 62 [[0, 0, 0]]).enc.regs.run.toNat ≤ 62
      ∧ (encAt 3 zeroPixel 62 [[0, 0, 0]]).enc.regs.run = 62 := by
  unfold encReady
  decide

theorem witness_CachedPixelIsEmittedAsIndex :
    encReady (encAt 3 ⟨9, 9, 9, 255⟩ 1 [[0, 0, 0]]) zeroPixel
      ∧ zeroPixel ≠ (encAt 3 ⟨9, 9, 9, 255⟩ 1 [[0, 0, 0]]).enc.regs.prev
      ∧ (encAt 3 ⟨9, 9, 9, 255⟩ 1 [[0, 0, 0]]).enc.regs.cache[pixelHash zeroPixel] = zeroPixel := by
  unfold encReady
  decide

/-- Deltas -2, 1 and 0 from (100,100,100). -/
theorem witness_SmallDeltasAreEmittedAsDiff :
    encReady (encAt 3 ⟨100, 100, 100, 255⟩ 1 [[98, 101, 100]]) ⟨98, 101, 100, 255⟩
      ∧ (⟨98, 101, 100, 255⟩ : Pixel) ≠ ⟨100, 100, 100, 255⟩
      ∧ (encAt 3 ⟨100, 100, 100, 255⟩ 1 [[98, 101, 100]]).enc.regs.cache[pixelHash ⟨98, 101, 100, 255⟩]
          ≠ ⟨98, 101, 100, 255⟩
      ∧ (-2 : Int) = ((98 : Byte).toNat : Int) - (100 : Byte).toNat
      ∧ (1 : Int) = ((101 : Byte).toNat : Int) - (100 : Byte).toNat := by
  unfold encReady
  decide

/-- V10: the green delta 31 and the relative deltas 7 from (100,100,100). -/
theorem witness_LumaDeltasAreEmittedAsLuma :
    encReady (encAt 3 ⟨100, 100, 100, 255⟩ 0 [[138, 131, 138]]) ⟨138, 131, 138, 255⟩
      ∧ (encAt 3 ⟨100, 100, 100, 255⟩ 0 [[138, 131, 138]]).enc.regs.cache[pixelHash ⟨138, 131, 138, 255⟩]
          ≠ ⟨138, 131, 138, 255⟩
      ∧ (38 : Int) = ((138 : Byte).toNat : Int) - (100 : Byte).toNat
      ∧ (31 : Int) = ((131 : Byte).toNat : Int) - (100 : Byte).toNat
      ∧ ¬ ((-2 : Int) ≤ 38 ∧ (38 : Int) ≤ 1) ∧ (38 : Int) - 31 ≤ 7 := by
  unfold encReady
  decide

/-- V10, one past the range, with 3 channels; and a change of alpha alone, with 4. -/
theorem witness_OtherPixelsAreEmittedAsLiterals :
    (encReady (encAt 3 ⟨100, 100, 100, 255⟩ 0 [[108, 100, 100]]) ⟨108, 100, 100, 255⟩
      ∧ (encAt 3 ⟨100, 100, 100, 255⟩ 0 [[108, 100, 100]]).enc.regs.cache[pixelHash ⟨108, 100, 100, 255⟩]
          ≠ ⟨108, 100, 100, 255⟩
      ∧ (8 : Int) = ((108 : Byte).toNat : Int) - (100 : Byte).toNat ∧ ¬ (8 : Int) - 0 ≤ 7)
    ∧ (encReady (encAt 4 ⟨5, 5, 5, 255⟩ 0 [[5, 5, 5, 254]]) ⟨5, 5, 5, 254⟩
      ∧ (encAt 4 ⟨5, 5, 5, 255⟩ 0 [[5, 5, 5, 254]]).enc.regs.cache[pixelHash ⟨5, 5, 5, 254⟩] ≠ ⟨5, 5, 5, 254⟩
      ∧ (254 : Byte) ≠ (encAt 4 ⟨5, 5, 5, 255⟩ 0 [[5, 5, 5, 254]]).enc.regs.prev.a) := by
  unfold encReady
  decide

theorem witness_EndOfScanFlushesTheRun :
    (encAt 3 zeroPixel 62 []).agenda = [] ∧ (encAt 3 zeroPixel 62 []).active = .enc
      ∧ (encAt 3 zeroPixel 62 []).enc.regs.st = .body
      ∧ (encAt 3 zeroPixel 62 []).enc.regs.pxi = (encAt 3 zeroPixel 62 []).enc.regs.cfg.n := by decide

theorem witness_SelectedRecordIsExact :
    (⟨1, 1, 1, 255⟩ : Pixel) ≠ (encAt 3 zeroPixel 0 []).enc.regs.prev
      ∧ (encAt 3 zeroPixel 0 []).enc.regs.cfg.c = 3 ∧ (encAt 4 zeroPixel 0 []).enc.regs.cfg.c = 4
      ∧ selectRecord ⟨1, 1, 1, 255⟩ (encAt 3 zeroPixel 0 []).enc.regs = .diff 1 1 1
      ∧ selectRecord ⟨9, 9, 9, 255⟩ (encAt 3 zeroPixel 0 []).enc.regs = .luma 9 0 0 := by decide

theorem witness_ErrorEntryWritesOnlyStatusAndCode :
    (decAt 3 1 zeroPixel 0 []).active = .dec ∧ (encAt 3 zeroPixel 0 []).active = .enc := by decide

theorem witness_DecoderBodyStepIsTotal :
    (decAt 3 1 zeroPixel 0 []).agenda = [] ∧ (decAt 3 1 zeroPixel 0 []).active = .dec
      ∧ (decAt 3 1 zeroPixel 0 []).dec.regs.st = .body
      ∧ (decAt 3 1 zeroPixel 0 []).dec.regs.pxi ≠ (decAt 3 1 zeroPixel 0 []).dec.regs.cfg.n := by decide

/-- Both engines ended, one in each way, and the agenda a move each of them reacts to. -/
def endedState (agenda : List Event) : State :=
  { State.reset with
    agenda := agenda
    enc := { Enc.reset with regs := { Regs.reset with st := .done } }
    dec := { Dec.reset with regs := { Regs.reset with st := .error, err := 5 } } }

/-- A step with nothing to do, a descriptor written, a start of each kind and a reset. -/
theorem witness_EndedCallsWaitForTheHost :
    (∀ agenda, (endedState agenda).enc.regs.st = .done ∧ (endedState agenda).dec.regs.st = .error)
      ∧ (∃ t, step (endedState []) = .next t)
      ∧ (∃ t, step (endedState [.host (.writeCfg .dec ⟨1, 1, 3, 0⟩)]) = .next t
        ∧ t.dec.regs.cfg = ⟨1, 1, 3, 0⟩)
      ∧ (∃ t, step (endedState [.host (.writeCfg .enc ⟨1, 1, 3, 0⟩)]) = .next t
        ∧ t.enc.regs.cfg = ⟨1, 1, 3, 0⟩)
      ∧ ∀ m ∈ [HostMove.reset, .startDec [1], .startBody [1], .startEnc [], .startStream],
          ∃ t, step (endedState [.host m]) = .next t :=
  ⟨fun _ => ⟨rfl, rfl⟩, ⟨_, rfl⟩, ⟨_, rfl, rfl⟩, ⟨_, rfl, rfl⟩, fun _ _ => ⟨_, rfl⟩⟩

theorem witness_StatusMovesAlongTheCall :
    (∃ t, step (encStart 1 1 3 [[255, 0, 0]]) = .next t ∧ t.enc.regs.st = .body)
      ∧ ∀ later, (encStart 1 1 3 [[255, 0, 0]]).agenda ≠ .host .reset :: later :=
  ⟨⟨_, rfl, rfl⟩, fun _ h => nomatch h⟩

theorem witness_ResetIdlesBothEngines : (endedState [.host .reset]).agenda = .host .reset :: [] := rfl

/-- Of each clause of StartInitialisesTheEngine, for both entries of the decoder. -/
theorem witness_StartInitialisesTheEngine :
    (endedState [.host (.startBody [1])]).agenda = .host (if true then .startBody [1] else .startDec [1]) :: []
      ∧ (endedState [.host (.startDec [1])]).agenda
          = .host (if false then .startBody [1] else .startDec [1]) :: []
      ∧ (endedState []).dec.regs.st = .error ∧ ([1] : List Byte).length < 2 ^ 64
      ∧ (endedState [.host (.startEnc [[1, 2, 3]])]).agenda = .host (.startEnc [[1, 2, 3]]) :: []
      ∧ (endedState []).enc.regs.st = .done
      ∧ ([[1, 2, 3]] : List (List Byte))[0]? = some [1, 2, 3] ∧ ([1, 2, 3] : List Byte).length ≤ 4
      ∧ (endedState [.host .startStream]).agenda = .host .startStream :: []
      ∧ (∀ st, st = .header ∨ st = .body → (streamAt 1 st [] zeroPixel [.host (.pixel zeroPixel)]).agenda
          = .host (.pixel zeroPixel) :: []
        ∧ (streamAt 1 st [] zeroPixel [.host (.pixel zeroPixel)]).enc.regs.st.inCall = true
        ∧ (streamAt 1 st [] zeroPixel [.host (.pixel zeroPixel)]).enc.streamed = true
        ∧ (streamAt 1 st [] zeroPixel [.host (.pixel zeroPixel)]).enc.pixIn.chans.length
          < (streamAt 1 st [] zeroPixel [.host (.pixel zeroPixel)]).enc.regs.cfg.n.toNat) := by
  refine ⟨rfl, rfl, rfl, by decide, rfl, rfl, rfl, by decide, rfl, ?_⟩
  rintro st (rfl | rfl) <;> exact ⟨rfl, rfl, rfl, by decide⟩

/-- Each move in each engine's call: among them a pixel of a call handed over at once, and one too many. -/
theorem witness_CallsInProgressIgnoreTheHost :
    (∀ m ∈ [HostMove.startEnc [], .startStream, .pixel zeroPixel, .writeCfg .enc ⟨1, 1, 3, 0⟩],
        { encAt 3 zeroPixel 0 [] with agenda := [.host m] }.enc.regs.st.inCall = true
          ∧ { encAt 3 zeroPixel 0 [] with agenda := [.host m] }.enc.streamed = false)
      ∧ ((streamAt 1 .body [[0, 0, 0]] zeroPixel [.host (.pixel zeroPixel)]).enc.streamed = true
        ∧ (streamAt 1 .body [[0, 0, 0]] zeroPixel [.host (.pixel zeroPixel)]).enc.regs.cfg.n.toNat
          ≤ (streamAt 1 .body [[0, 0, 0]] zeroPixel [.host (.pixel zeroPixel)]).enc.pixIn.chans.length)
      ∧ ∀ m ∈ [HostMove.startDec [], .startBody [], .writeCfg .dec ⟨1, 1, 3, 0⟩],
        { decAt 3 1 zeroPixel 0 [] with agenda := [.host m] }.dec.regs.st.inCall = true := by decide

theorem witness_RecordsLeaveControlStateAlone : (Instr.rgb 1 2 3).isRecord = true := by decide

theorem witness_DescriptorIsFixedDuringACall :
    (∃ t, step (encAt 3 zeroPixel 0 []) = .next t)
      ∧ (∀ later, (encAt 3 zeroPixel 0 []).agenda ≠ .host .reset :: later)
      ∧ (encAt 3 zeroPixel 0 []).enc.regs.st.inCall = true
      ∧ (decAt 3 1 zeroPixel 0 []).dec.regs.st = .body :=
  ⟨⟨_, rfl⟩, fun _ h => (nomatch h), rfl, rfl⟩

/-- A scan of one pixel at its start, with the HEADER written, beside a decode at its start: the invariant
holds. -/
def scanState : State :=
  { State.reset with
    active := .enc
    enc := { Enc.reset.start false (Grid.ofPixels [[255, 0, 0]]) with
      regs := { Regs.reset.start with cfg := ⟨1, 1, 3, 0⟩, st := .body }
      byteOut := Memory.ofBytes (encode (.header 1 1 3 0))
      outLen := 14 }
    dec := (decAt 3 1 zeroPixel 0 [0xC0]).dec }

theorem scanState_enc_inv : scanState.enc.inv :=
  ⟨by decide, by decide, by unfold Regs.errAgrees; decide, fun h => (nomatch h),
    fun _ => ⟨⟨by unfold Cfg.legal; decide, by unfold Enc.counted; decide, by decide, by decide, by decide,
      by decide, by unfold Regs.lockStep; decide, by unfold Regs.alphaFixed; decide⟩,
      by unfold Enc.sizeBounds; decide⟩,
    fun h => (nomatch h)⟩

theorem scanState_dec_inv : scanState.dec.inv :=
  ⟨by decide, by decide, by unfold Regs.errAgrees; decide, fun h => (nomatch h),
    fun _ => ⟨by unfold Cfg.legal; decide, rfl, by decide, by decide, by decide,
      by unfold Regs.alphaFixed; decide, fun h => (nomatch h)⟩,
    fun h => (nomatch h)⟩

theorem witness_EveryStepKeepsTheInvariant : scanState.inv ∧ ∃ t, step scanState = .next t :=
  ⟨⟨scanState_enc_inv, scanState_dec_inv⟩, _, rfl⟩

/-- The same scan after its one pixel, with the file's 4 body bytes written. -/
def scannedState : State :=
  { scanState with
    enc := { scanState.enc with
      regs := { (scanState.enc.regs.update ⟨255, 0, 0, 255⟩).setPrev ⟨255, 0, 0, 255⟩ with pxi := 1, st := .trailer }
      byteOut := Memory.ofBytes (fileV1.take 18)
      outLen := 18 } }

theorem scannedState_enc_inv : scannedState.enc.inv :=
  ⟨by decide, by decide, by unfold Regs.errAgrees; decide, fun h => (nomatch h), fun h => (nomatch h),
    fun _ => ⟨⟨by unfold Cfg.legal; decide, by unfold Enc.counted; decide, by decide, by decide, by decide,
      by decide, by unfold Regs.lockStep; decide, by unfold Regs.alphaFixed; decide⟩,
      by unfold Enc.sizeBounds; decide, by decide, by decide⟩⟩

theorem witness_FinishedFileHasTheSizeBounds :
    scannedState.inv ∧ scannedState.agenda = [] ∧ scannedState.active = .enc
      ∧ scannedState.enc.regs.st = .trailer :=
  ⟨⟨scannedState_enc_inv, scanState_dec_inv⟩, rfl, rfl, rfl⟩

/-- Two states that agree on one engine only. -/
theorem witness_EnginesDoNotInteract :
    (∃ t t', step { scanState with agenda := [.run .enc] } = .next t
        ∧ step { scanState with agenda := [.run .enc], dec := Dec.reset } = .next t')
      ∧ ∃ t t', step { scanState with agenda := [.run .dec] } = .next t
        ∧ step { scanState with agenda := [.run .dec], enc := Enc.reset } = .next t' :=
  ⟨⟨_, _, rfl, rfl⟩, _, _, rfl, rfl⟩

/-- A descriptor of the same count in another shape and colorspace. -/
theorem witness_ShapeAndColorspaceDoNotReachTheBody :
    (∃ t, step (encAt 3 zeroPixel 0 [[0, 0, 0], [0, 0, 0]]) = .next t)
      ∧ (encAt 3 zeroPixel 0 [[0, 0, 0], [0, 0, 0]]).enc.regs.st = .body
      ∧ Cfg.n ⟨1, 2, 3, 1⟩ = (encAt 3 zeroPixel 0 [[0, 0, 0], [0, 0, 0]]).enc.regs.cfg.n
      ∧ (∃ t, step (decAt 3 2 zeroPixel 0 [0xC0]) = .next t)
      ∧ Cfg.n ⟨1, 2, 3, 1⟩ = (decAt 3 2 zeroPixel 0 [0xC0]).dec.regs.cfg.n :=
  ⟨⟨_, rfl⟩, rfl, by decide, ⟨_, rfl⟩, by decide⟩

/-- A record, one cut short, a literal of the other channel count, an open run and a full grid. -/
theorem witness_PositionOnlyMovesForward :
    (∀ n run body, (decAt 3 n zeroPixel run body).agenda = [] ∧ (decAt 3 n zeroPixel run body).active = .dec
        ∧ (decAt 3 n zeroPixel run body).dec.regs.st = .body)
      ∧ (∃ t, step (decAt 3 1 zeroPixel 0 [0x80, 0x00]) = .next t ∧ t.dec.pos = 2)
      ∧ decodeRecord (decAt 3 1 zeroPixel 0 [0x80, 0x00]).dec.fetchRecord = .ok (.luma (-32) (-8) (-8), [])
      ∧ decodeRecord (decAt 3 1 zeroPixel 0 [0x80]).dec.fetchRecord = .error (.shortRecord 0x80)
      ∧ decodeRecord (decAt 3 1 zeroPixel 0 [0xFF, 1, 2, 3, 4]).dec.fetchRecord = .ok (.rgba 1 2 3 4, [])
      ∧ (decAt 3 1 zeroPixel 61 []).dec.regs.run ≠ 0
      ∧ (decAt 3 0 zeroPixel 0 []).dec.regs.pxi = (decAt 3 0 zeroPixel 0 []).dec.regs.cfg.n :=
  ⟨fun _ _ _ => ⟨rfl, rfl, rfl⟩, ⟨_, rfl, rfl⟩, rfl, rfl, rfl, by decide, by decide⟩

/-- A scan with its pixel handed over, and a streamed one that lacks its next pixel. -/
theorem witness_EncodeCallEndsDone :
    (scanState.inv ∧ scanState.agenda = [] ∧ scanState.active = .enc ∧ scanState.enc.regs.st = .body
        ∧ scanState.enc.pixIn.chans.length = scanState.enc.regs.cfg.n.toNat)
      ∧ ((streamAt 2 .body [[0, 0, 0]] zeroPixel []).agenda = []
        ∧ (streamAt 2 .body [[0, 0, 0]] zeroPixel []).active = .enc
        ∧ (streamAt 2 .body [[0, 0, 0]] zeroPixel []).enc.regs.st = .body
        ∧ (streamAt 2 .body [[0, 0, 0]] zeroPixel []).enc.regs.pxi
          ≠ (streamAt 2 .body [[0, 0, 0]] zeroPixel []).enc.regs.cfg.n
        ∧ (streamAt 2 .body [[0, 0, 0]] zeroPixel []).enc.pixIn.chans.length
          ≤ (streamAt 2 .body [[0, 0, 0]] zeroPixel []).enc.regs.pxi.toNat) :=
  ⟨⟨witness_EveryStepKeepsTheInvariant.1, rfl, rfl, rfl, by decide⟩, rfl, rfl, rfl, by decide, by decide⟩

theorem witness_DecodeCallEnds :
    { scanState with active := .dec }.inv ∧ { scanState with active := .dec }.agenda = []
      ∧ { scanState with active := .dec }.active = .dec
      ∧ { scanState with active := .dec }.dec.regs.st = .body :=
  ⟨witness_EveryStepKeepsTheInvariant.1, rfl, rfl, rfl⟩

/-- The scan above, whose two engines agree: its pixel's record runs in both. -/
theorem witness_DecoderReversesTheSelectedRecord :
    ∃ e d, { scanState with active := .dec }.enc.pixel = some ⟨255, 0, 0, 255⟩
      ∧ scanState.dec.regs.cfg = scanState.enc.regs.cfg ∧ scanState.dec.regs.cfg.c = 3
      ∧ scanState.dec.regs.prev = scanState.enc.regs.prev ∧ scanState.dec.regs.cache = scanState.enc.regs.cache
      ∧ exec (selectRecord ⟨255, 0, 0, 255⟩ scanState.enc.regs) { scanState with active := .dec } = .next d
      ∧ exec (selectRecord ⟨255, 0, 0, 255⟩ scanState.enc.regs) { scanState with active := .enc } = .next e :=
  ⟨_, _, by decide, by decide, by decide, by decide, by decide, rfl, rfl⟩

theorem witness_DecodeOfEncodeReturnsGridAndDescriptor :
    State.reset.enc.regs.st.inCall = false ∧ State.reset.dec.regs.st.inCall = false
      ∧ Cfg.legal ⟨1, 1, 3, 1⟩ ∧ ((1 : Byte) = 0 ∨ (1 : Byte) = 1)
      ∧ ([[255, 0, 0]] : List (List Byte)).length = (Cfg.n ⟨1, 1, 3, 1⟩).toNat
      ∧ (∀ p ∈ ([[255, 0, 0]] : List (List Byte)), p.length = (3 : Byte).toNat)
      ∧ 22 + (Cfg.n ⟨1, 1, 3, 1⟩).toNat * ((3 : Byte).toNat + 1) < 2 ^ 64
      ∧ [[255, 0, 0]] = [(⟨255, 0, 0, 255⟩ : Pixel)].map (channelBytes 3) := by
  unfold Cfg.legal
  decide

end Sys2Proof.Tests
end

section
/-! SUPPORT. What a move of the host does to each engine, and what a step does to the control registers of
each (R19, R22, R112, R113). With them StatusMovesAlongTheCall and DescriptorIsFixedDuringACall are settled. -/

namespace Sys2Proof.Machine

/-! ### A move of the host, engine by engine -/

/-- Everything a move of the host can do to the encoder. -/
theorem hostMove_enc_cases (m : HostMove) (s : State) :
    (hostMove m s).enc = s.enc
    ∨ (m = .reset ∧ (hostMove m s).enc = Enc.reset)
    ∨ (∃ d, m = .writeCfg .enc d ∧ s.enc.regs.st.inCall = false
        ∧ (hostMove m s).enc = { s.enc with regs := s.enc.regs.setCfg d })
    ∨ (∃ streamed g, (m = .startStream ∧ streamed = true ∧ g = ⟨[], []⟩
          ∨ ∃ ps, m = .startEnc ps ∧ streamed = false ∧ g = Grid.ofPixels ps)
        ∧ s.enc.regs.st.inCall = false ∧ (hostMove m s).enc = s.enc.start streamed g)
    ∨ ∃ p, m = .pixel p ∧ (hostMove m s).enc = s.enc.deliver p := by
  cases m with
  | reset => exact .inr (.inl ⟨rfl, rfl⟩)
  | writeCfg e d =>
    cases e with
    | dec => exact .inl (by simp only [hostMove]; split <;> rfl)
    | enc =>
      cases hc : s.enc.regs.st.inCall with
      | true => exact .inl (by simp [hostMove, hc])
      | false => exact .inr (.inr (.inl ⟨d, rfl, rfl, by simp [hostMove, hc]⟩))
  | startEnc ps =>
    cases hc : s.enc.regs.st.inCall with
    | true => exact .inl (by simp [hostMove, hc])
    | false =>
      exact .inr (.inr (.inr (.inl ⟨_, _, .inr ⟨ps, rfl, rfl, rfl⟩, rfl, by simp [hostMove, hc]⟩)))
  | startStream =>
    cases hc : s.enc.regs.st.inCall with
    | true => exact .inl (by simp [hostMove, hc])
    | false =>
      exact .inr (.inr (.inr (.inl ⟨_, _, .inl ⟨rfl, rfl, rfl⟩, rfl, by simp [hostMove, hc]⟩)))
  | pixel p => exact .inr (.inr (.inr (.inr ⟨p, rfl, rfl⟩)))
  | startDec bs => exact .inl (by simp only [hostMove]; split <;> rfl)
  | startBody bs => exact .inl (by simp only [hostMove]; split <;> rfl)

/-- A start of the decoder has no effect during a call or on a sequence too long for `len`, and begins a call
otherwise (R113; log 18). -/
theorem hostMove_start_dec (s : State) (bodyOnly : Bool) (bs : List Byte) :
    (hostMove (if bodyOnly then .startBody bs else .startDec bs) s).dec = s.dec
    ∨ (fitsLen bs = true ∧ s.dec.regs.st.inCall = false
        ∧ (hostMove (if bodyOnly then .startBody bs else .startDec bs) s).dec = s.dec.start bodyOnly bs) := by
  cases hc : s.dec.regs.st.inCall with
  | true => exact .inl (by cases bodyOnly <;> simp [hostMove, hc])
  | false =>
    cases hf : fitsLen bs with
    | false => exact .inl (by cases bodyOnly <;> simp [hostMove, hf])
    | true => exact .inr ⟨rfl, rfl, by cases bodyOnly <;> simp [hostMove, hc, hf]⟩

/-- Everything a move of the host can do to the decoder. -/
theorem hostMove_dec_cases (m : HostMove) (s : State) :
    (hostMove m s).dec = s.dec
    ∨ (m = .reset ∧ (hostMove m s).dec = Dec.reset)
    ∨ (∃ d, m = .writeCfg .dec d ∧ s.dec.regs.st.inCall = false
        ∧ (hostMove m s).dec = { s.dec with regs := s.dec.regs.setCfg d })
    ∨ ∃ bodyOnly bs, m = (if bodyOnly then .startBody bs else .startDec bs) ∧ fitsLen bs = true
        ∧ s.dec.regs.st.inCall = false ∧ (hostMove m s).dec = s.dec.start bodyOnly bs := by
  cases m with
  | reset => exact .inr (.inl ⟨rfl, rfl⟩)
  | writeCfg e d =>
    cases e with
    | enc => exact .inl (by simp only [hostMove]; split <;> rfl)
    | dec =>
      cases hc : s.dec.regs.st.inCall with
      | true => exact .inl (by simp [hostMove, hc])
      | false => exact .inr (.inr (.inl ⟨d, rfl, rfl, by simp [hostMove, hc]⟩))
  | startEnc ps => exact .inl (by simp only [hostMove]; split <;> rfl)
  | startStream => exact .inl (by simp only [hostMove]; split <;> rfl)
  | pixel p => exact .inl rfl
  | startDec bs => exact (hostMove_start_dec s false bs).imp_right fun h => .inr (.inr ⟨false, bs, rfl, h⟩)
  | startBody bs => exact (hostMove_start_dec s true bs).imp_right fun h => .inr (.inr ⟨true, bs, rfl, h⟩)

/-! ### Status and descriptor -/

/-- `ST` may stay, or move along the phases of a call, from a call in progress to ERROR, or from no call
to HEADER (R22). -/
def Status.mayBecome (a b : Status) : Prop :=
  b = a ∨ (a = .header ∧ b = .body) ∨ (a = .body ∧ b = .trailer) ∨ (a = .trailer ∧ b = .done)
    ∨ (a.inCall = true ∧ b = .error) ∨ (a.inCall = false ∧ b = .header)

theorem Status.mayBecome_refl (a : Status) : a.mayBecome a := .inl rfl

theorem Status.mayBecome_error {a : Status} (h : a.inCall = true) : a.mayBecome .error :=
  .inr (.inr (.inr (.inr (.inl ⟨h, rfl⟩))))

theorem Status.mayBecome_header {a : Status} (h : a.inCall = false) : a.mayBecome .header :=
  .inr (.inr (.inr (.inr (.inr ⟨h, rfl⟩))))

/-- A step of the encoder moves `ST` along the call and leaves `CFG` alone. -/
theorem encStep_control {s t : State} (he : s.active = .enc) (h : encStep s = .next t) :
    s.enc.regs.st.mayBecome t.enc.regs.st ∧ t.enc.regs.cfg = s.enc.regs.cfg := by
  have effect : ∀ {p bs run upd}, encEffect s t p bs run upd →
      s.enc.regs.st.mayBecome t.enc.regs.st ∧ t.enc.regs.cfg = s.enc.regs.cfg := by
    rintro p bs run upd ⟨_, _, _, _, _, _, _, ⟨hcfg, hst, _⟩, _⟩
    exact ⟨.inl hst, hcfg⟩
  rcases encStep_cases he h with ⟨_, rfl⟩ | ⟨k, hs, _, rfl⟩ | ⟨hs, _, _, rfl⟩ | ⟨hs, _, hw, _⟩
    | ⟨_, _, _, rfl⟩ | ⟨_, _, _, hf | hf, _⟩ | ⟨_, _, _, _, _, _, hf, _⟩ | ⟨hs, rfl⟩
  · exact ⟨Status.mayBecome_refl _, rfl⟩
  · rw [raise_enc k s he]
    exact ⟨Status.mayBecome_error (by rw [hs]; rfl), rfl⟩
  · exact ⟨.inr (.inl ⟨hs, rfl⟩), rfl⟩
  · obtain ⟨_, _, _, hregs, _⟩ := hw
    rw [hregs]
    exact ⟨.inr (.inr (.inl ⟨hs, rfl⟩)), rfl⟩
  · exact ⟨Status.mayBecome_refl _, rfl⟩
  · exact effect hf.2
  · exact effect hf.2
  · exact effect hf
  · exact ⟨.inr (.inr (.inr (.inl ⟨hs, rfl⟩))), rfl⟩

/-- A step of the decoder moves `ST` along the call and leaves `CFG` alone but in HEADER, which loads it. -/
theorem decStep_control {s t : State} (hd : s.active = .dec) (h : decStep s = .next t) :
    s.dec.regs.st.mayBecome t.dec.regs.st
      ∧ (s.dec.regs.st ≠ .header → t.dec.regs.cfg = s.dec.regs.cfg) := by
  rcases decStep_cases hd h with ⟨_, rfl⟩ | ⟨k, hc, rfl⟩ | ⟨_, _, _, _, hs, _, _, _, _, rfl⟩
    | ⟨hs, _, _, rfl⟩ | ⟨hs, _, rfl⟩ | ⟨_, _, _, rfl⟩ | ⟨_, _, _, _, _, _, _, _, _, _, _, hf, _⟩ | ⟨hs, rfl⟩
  · exact ⟨Status.mayBecome_refl _, fun _ => rfl⟩
  · rw [raise_dec k s hd]
    exact ⟨Status.mayBecome_error hc, fun _ => rfl⟩
  · exact ⟨Status.mayBecome_refl _, fun hn => absurd hs hn⟩
  · exact ⟨.inr (.inl ⟨hs, rfl⟩), fun _ => rfl⟩
  · exact ⟨.inr (.inr (.inl ⟨hs, rfl⟩)), fun _ => rfl⟩
  · exact ⟨Status.mayBecome_refl _, fun _ => rfl⟩
  · obtain ⟨_, _, _, _, _, _, _, ⟨hcfg, hst, _⟩, _⟩ := hf
    exact ⟨.inl hst, fun _ => hcfg⟩
  · exact ⟨.inr (.inr (.inr (.inl ⟨hs, rfl⟩))), fun _ => rfl⟩

/-- A move of the host other than reset starts a call or leaves `ST` of the encoder, and leaves `CFG` alone
during a call. -/
theorem hostMove_enc_control {m : HostMove} (s : State) (hm : m ≠ .reset) :
    s.enc.regs.st.mayBecome (hostMove m s).enc.regs.st
      ∧ (s.enc.regs.st.inCall = true → (hostMove m s).enc.regs.cfg = s.enc.regs.cfg) := by
  rcases hostMove_enc_cases m s with h | ⟨h, _⟩ | ⟨d, _, hc, h⟩ | ⟨o, g, _, hc, h⟩ | ⟨p, _, h⟩
  · simp [h, Status.mayBecome_refl]
  · exact absurd h hm
  · simp [h, hc, Status.mayBecome_refl]
  · simp [h, hc, Status.mayBecome_header]
  · simp [h, Status.mayBecome_refl]

/-- The same of the decoder. -/
theorem hostMove_dec_control {m : HostMove} (s : State) (hm : m ≠ .reset) :
    s.dec.regs.st.mayBecome (hostMove m s).dec.regs.st
      ∧ (s.dec.regs.st.inCall = true → (hostMove m s).dec.regs.cfg = s.dec.regs.cfg) := by
  rcases hostMove_dec_cases m s with h | ⟨h, _⟩ | ⟨d, _, hc, h⟩ | ⟨o, bs, _, _, hc, h⟩
  · simp [h, Status.mayBecome_refl]
  · exact absurd h hm
  · simp [h, hc, Status.mayBecome_refl]
  · simp [h, hc, Status.mayBecome_header]

/-- A step that is no reset, whoever takes it, moves `ST` of the encoder along its call and leaves `CFG` alone
during it. -/
theorem step_enc_control {s t : State} (h : step s = .next t)
    (hr : ∀ later, s.agenda ≠ .host .reset :: later) :
    s.enc.regs.st.mayBecome t.enc.regs.st
      ∧ (s.enc.regs.st.inCall = true → t.enc.regs.cfg = s.enc.regs.cfg) := by
  rcases step_cases h with ⟨s', he, _, ha, hs, _⟩ | ⟨s', he, _, ha, hs, _⟩ | ⟨m, later, hm, rfl⟩
  · rw [← he]
    exact (encStep_control ha hs).imp_right fun hcfg _ => hcfg
  · rw [(decStep_frame ha hs).1, he]
    exact ⟨Status.mayBecome_refl _, fun _ => rfl⟩
  · exact hostMove_enc_control { s with agenda := later } fun e => hr later (e ▸ hm)

/-- The same of the decoder, whose HEADER phase loads `CFG`. -/
theorem step_dec_control {s t : State} (h : step s = .next t)
    (hr : ∀ later, s.agenda ≠ .host .reset :: later) :
    s.dec.regs.st.mayBecome t.dec.regs.st
      ∧ (s.dec.regs.st.inCall = true → s.dec.regs.st ≠ .header → t.dec.regs.cfg = s.dec.regs.cfg) := by
  rcases step_cases h with ⟨s', _, hd, ha, hs, _⟩ | ⟨s', _, hd, ha, hs, _⟩ | ⟨m, later, hm, rfl⟩
  · rw [(encStep_frame ha hs).1, hd]
    exact ⟨Status.mayBecome_refl _, fun _ _ => rfl⟩
  · rw [← hd]
    exact (decStep_control ha hs).imp_right fun hcfg _ => hcfg
  · exact (hostMove_dec_control { s with agenda := later } fun e => hr later (e ▸ hm)).imp_right
      fun hcfg hc _ => hcfg hc

/-- Settles O45: each engine by the cases of its own steps and of the host's moves. -/
theorem statusMovesAlongTheCall : Obligations.StatusMovesAlongTheCall := by
  unfold Obligations.StatusMovesAlongTheCall
  rintro s t h hr a b (⟨rfl, rfl⟩ | ⟨rfl, rfl⟩)
  · exact (step_enc_control h hr).1
  · exact (step_dec_control h hr).1

/-- Settles O50: only the decoder's HEADER phase and a host write outside a call write `CFG`. -/
theorem descriptorIsFixedDuringACall : Obligations.DescriptorIsFixedDuringACall := by
  unfold Obligations.DescriptorIsFixedDuringACall
  intro s t h hr
  refine ⟨(step_enc_control h hr).2, ?_⟩
  rintro (hs | hs) <;> exact (step_dec_control h hr).2 (by rw [hs]; rfl) (by rw [hs]; decide)

end Sys2Proof.Machine
end

section
/-! SUPPORT. A step of an engine as a function of that engine alone (R13, R36). With it EnginesDoNotInteract is
settled. -/

namespace Sys2Proof.Machine

/-! ### The encoder -/

/-- In every state whose encoder is `e` and is to move, `x` leaves the encoder `e'` and changes nothing
else. -/
def EncActs (e e' : Enc) (x : State → Result) : Prop :=
  ∀ s : State, s.active = .enc → s.enc = e → x s = .next { s with enc := e' }

theorem EncActs.of_eq {e e' : Enc} {x y : State → Result} (hy : EncActs e e' y)
    (h : ∀ s : State, s.active = .enc → s.enc = e → x s = y s) : EncActs e e' x :=
  fun s ha he => (h s ha he).trans (hy s ha he)

theorem encActs_next (e : Enc) : EncActs e e .next := by
  rintro s _ rfl
  rfl

theorem encActs_encNext (e : Enc) (f : Enc → Enc) : EncActs e (f e) (State.encNext f) := by
  rintro s _ rfl
  rfl

theorem encActs_raise (e : Enc) (k : ErrKind) :
    EncActs e { e with regs := e.regs.raise k } (fun s => .next (s.raise k)) := by
  rintro s ha rfl
  exact congrArg _ (raise_enc k s ha)

theorem EncActs.andThen {e e' e'' : Enc} {x y : State → Result} (hx : EncActs e e' x)
    (hy : EncActs e' e'' y) : EncActs e e'' (fun s => andThen (x s) y) := by
  intro s ha he
  simp only [hx s ha he, andThen_next]
  exact hy { s with enc := e' } ha rfl

/-- Emitting an item depends on the encoder alone. -/
theorem exec_encActs (i : Instr) (e : Enc) : ∃ e', EncActs e e' (exec i) := by
  cases i with
  | index i => exact ⟨_, fun s ha he => by rw [exec_index_enc i s ha, he]⟩
  | diff dr dg db => exact ⟨_, fun s ha he => by rw [exec_diff_enc dr dg db s ha, he]⟩
  | luma dg drDg dbDg => exact ⟨_, fun s ha he => by rw [exec_luma_enc dg drDg dbDg s ha, he]⟩
  | run n => exact ⟨_, fun s ha he => by rw [exec_run_enc n s ha, he]⟩
  | rgb r g b => exact ⟨_, fun s ha he => by rw [exec_rgb_enc r g b s ha, he]⟩
  | rgba r g b a => exact ⟨_, fun s ha he => by rw [exec_rgba_enc r g b a s ha, he]⟩
  | header w h c cs => exact ⟨_, fun s ha he => by rw [exec_header_enc w h c cs s ha, he]⟩
  | trailer => exact ⟨_, fun s ha he => by rw [exec_trailer_enc s ha, he]⟩

/-- The step of a pixel depends on the encoder alone, whichever of its four shapes it has (R56 to R58). -/
theorem encPixelStep_encActs (p : Pixel) (e : Enc) : ∃ e', EncActs e e' (encPixelStep p) := by
  obtain ⟨flushed, hflush⟩ := exec_encActs (.run e.regs.run.toNat) e
  by_cases hp : p = e.regs.prev
  · by_cases hr : e.regs.run.toNat = Config.runMax
    · exact ⟨_, (hflush.andThen (encActs_encNext flushed _)).of_eq fun s _ he => by
        rw [encPixelStep, he, if_pos hp, if_pos hr]; rfl⟩
    · exact ⟨_, (encActs_encNext e _).of_eq fun s _ he => by
        rw [encPixelStep, he, if_pos hp, if_neg hr]; rfl⟩
  · by_cases hr : e.regs.run = 0
    · obtain ⟨e', hrecord⟩ := exec_encActs (selectRecord p e.regs) e
      exact ⟨e', hrecord.of_eq fun s _ he => by
        rw [encPixelStep, he, if_neg hp, if_neg (not_not.2 hr)]⟩
    · obtain ⟨e', hrecord⟩ := exec_encActs (selectRecord p e.regs) flushed
      exact ⟨e', (hflush.andThen hrecord).of_eq fun s _ he => by
        rw [encPixelStep, he, if_neg hp, if_pos hr]⟩

/-- The end of scan depends on the encoder alone (R65). -/
theorem endOfScan_encActs (e : Enc) : ∃ e', EncActs e e' endOfScan := by
  by_cases hr : e.regs.run = 0
  · exact ⟨_, ((encActs_next e).andThen (encActs_encNext e _)).of_eq fun s _ he => by
      rw [endOfScan, he, if_neg (not_not.2 hr)]⟩
  · obtain ⟨flushed, hflush⟩ := exec_encActs (.run e.regs.run.toNat) e
    exact ⟨_, (hflush.andThen (encActs_encNext flushed _)).of_eq fun s _ he => by
      rw [endOfScan, he, if_pos hr]⟩

/-- A step of the encoder depends on the encoder alone and touches nothing else. -/
theorem encStep_encActs (e : Enc) : ∃ e', EncActs e e' encStep := by
  cases hs : e.regs.st with
  | idle => exact ⟨e, (encActs_next e).of_eq fun s _ he => by simp only [encStep, he, hs]⟩
  | done => exact ⟨e, (encActs_next e).of_eq fun s _ he => by simp only [encStep, he, hs]⟩
  | error => exact ⟨e, (encActs_next e).of_eq fun s _ he => by simp only [encStep, he, hs]⟩
  | trailer =>
    obtain ⟨e', h⟩ := exec_encActs .trailer e
    exact ⟨e', h.of_eq fun s _ he => by simp only [encStep, he, hs]⟩
  | header =>
    cases hk : e.check with
    | some k => exact ⟨_, (encActs_raise e k).of_eq fun s _ he => by simp only [encStep, he, hs, hk]⟩
    | none =>
      obtain ⟨e', h⟩ := exec_encActs (.header e.regs.cfg.w e.regs.cfg.h e.regs.cfg.c e.regs.cfg.cs) e
      exact ⟨e', h.of_eq fun s _ he => by simp only [encStep, he, hs, hk]⟩
  | body =>
    by_cases hn : e.regs.pxi = e.regs.cfg.n
    · obtain ⟨e', h⟩ := endOfScan_encActs e
      exact ⟨e', h.of_eq fun s _ he => by simp only [encStep, he, hs, if_pos hn]⟩
    · cases hq : e.pixel with
      | none => exact ⟨e, (encActs_next e).of_eq fun s _ he => by simp only [encStep, he, hs, if_neg hn, hq]⟩
      | some p =>
        obtain ⟨e', h⟩ := encPixelStep_encActs p e
        exact ⟨e', h.of_eq fun s _ he => by simp only [encStep, he, hs, if_neg hn, hq]⟩

/-! ### The decoder -/

/-- In every state whose decoder is `d` and is to move, `x` leaves the decoder `d'` and changes nothing
else. -/
def DecActs (d d' : Dec) (x : State → Result) : Prop :=
  ∀ s : State, s.active = .dec → s.dec = d → x s = .next { s with dec := d' }

theorem DecActs.of_eq {d d' : Dec} {x y : State → Result} (hy : DecActs d d' y)
    (h : ∀ s : State, s.active = .dec → s.dec = d → x s = y s) : DecActs d d' x :=
  fun s ha hd => (h s ha hd).trans (hy s ha hd)

theorem decActs_next (d : Dec) : DecActs d d .next := by
  rintro s _ rfl
  rfl

theorem decActs_decNext (d : Dec) (f : Dec → Dec) : DecActs d (f d) (State.decNext f) := by
  rintro s _ rfl
  rfl

theorem decActs_raise (d : Dec) (k : ErrKind) :
    DecActs d { d with regs := d.regs.raise k } (fun s => .next (s.raise k)) := by
  rintro s ha rfl
  exact congrArg _ (raise_dec k s ha)

/-- Executing an item depends on the decoder alone. -/
theorem exec_decActs (i : Instr) (d : Dec) : ∃ d', DecActs d d' (exec i) := by
  have raises : ∀ k, (∀ s : State, s.active = .dec → s.dec = d → exec i s = .next (s.raise k)) →
      ∃ d', DecActs d d' (exec i) := fun k h => ⟨_, (decActs_raise d k).of_eq h⟩
  cases i with
  | index i => exact ⟨_, fun s ha hd => by rw [exec_index_dec i s ha, hd]⟩
  | diff dr dg db => exact ⟨_, fun s ha hd => by rw [exec_diff_dec dr dg db s ha, hd]⟩
  | luma dg drDg dbDg => exact ⟨_, fun s ha hd => by rw [exec_luma_dec dg drDg dbDg s ha, hd]⟩
  | run n => exact ⟨_, fun s ha hd => by rw [exec_run_dec n s ha, hd]⟩
  | rgb r g b =>
    by_cases hc : d.regs.cfg.c = 3
    · exact ⟨_, fun s ha hd => by rw [exec_rgb_dec r g b s ha (by rw [hd, hc]), hd]⟩
    · exact raises _ fun s ha hd => exec_rgb_dec_mismatch r g b s ha (by rwa [hd])
  | rgba r g b a =>
    by_cases hc : d.regs.cfg.c = 4
    · exact ⟨_, fun s ha hd => by rw [exec_rgba_dec r g b a s ha (by rw [hd, hc]), hd]⟩
    · exact raises _ fun s ha hd => exec_rgba_dec_mismatch r g b a s ha (by rwa [hd])
  | header w h c cs =>
    by_cases hl : headerLegal w h c cs = true
    · exact ⟨_, fun s ha hd => by rw [exec_header_dec w h c cs s ha hl, hd]⟩
    · exact raises _ fun s ha _ => exec_header_dec_illegal w h c cs s ha hl
  | trailer => exact ⟨_, fun s ha hd => by rw [exec_trailer_dec s ha, hd]⟩

/-- Executing what was found, or raising the error it stands for, depends on the decoder alone. -/
theorem execOrRaise_decActs (x : Except DecodeError Instr) (d : Dec) :
    ∃ d', DecActs d d' (execOrRaise x) := by
  cases x with
  | ok i => exact exec_decActs i d
  | error e =>
    exact ⟨_, (decActs_raise d (errorOf d.regs.cfg.c e)).of_eq fun s _ hd => by
      simp only [execOrRaise, hd]⟩

/-- The unwrapping of a container, and the checks of the body-only entry, depend on the decoder alone. -/
theorem decHeaderStep_decActs (d : Dec) : ∃ d', DecActs d d' decHeaderStep := by
  cases ho : d.bodyOnly with
  | true =>
    cases hk : d.checkBodyOnly with
    | some k =>
      exact ⟨_, (decActs_raise d k).of_eq fun s _ hd => by simp only [decHeaderStep, hd, ho, hk, if_true]⟩
    | none =>
      exact ⟨_, (decActs_decNext d _).of_eq fun s _ hd => by
        simp only [decHeaderStep, hd, ho, hk, if_true]; rfl⟩
  | false =>
    cases hr : d.headerRead with
    | true =>
      obtain ⟨d', h⟩ := execOrRaise_decActs d.nextTrailer d
      exact ⟨d', h.of_eq fun s _ hd => by simp [decHeaderStep, hd, ho, hr]⟩
    | false =>
      obtain ⟨d', h⟩ := execOrRaise_decActs (decodeHeader d.fetchHeader) d
      exact ⟨d', h.of_eq fun s _ hd => by simp [decHeaderStep, hd, ho, hr]⟩

/-- A step of the body phase depends on the decoder alone. -/
theorem decBodyStep_decActs (d : Dec) : ∃ d', DecActs d d' decBodyStep := by
  by_cases hn : d.regs.pxi = d.regs.cfg.n
  · exact ⟨_, (decActs_decNext d _).of_eq fun s _ hd => by rw [decBodyStep, hd, if_pos hn]⟩
  · by_cases hr : d.regs.run = 0
    · obtain ⟨d', h⟩ := execOrRaise_decActs d.nextRecord d
      exact ⟨d', h.of_eq fun s _ hd => by rw [decBodyStep, hd, if_neg hn, if_neg (not_not.2 hr)]⟩
    · exact ⟨_, (decActs_decNext d _).of_eq fun s _ hd => by rw [decBodyStep, hd, if_neg hn, if_pos hr]⟩

/-- A step of the decoder depends on the decoder alone and touches nothing else. -/
theorem decStep_decActs (d : Dec) : ∃ d', DecActs d d' decStep := by
  cases hs : d.regs.st with
  | idle => exact ⟨d, (decActs_next d).of_eq fun s _ hd => by simp only [decStep, hd, hs]⟩
  | done => exact ⟨d, (decActs_next d).of_eq fun s _ hd => by simp only [decStep, hd, hs]⟩
  | error => exact ⟨d, (decActs_next d).of_eq fun s _ hd => by simp only [decStep, hd, hs]⟩
  | header =>
    obtain ⟨d', h⟩ := decHeaderStep_decActs d
    exact ⟨d', h.of_eq fun s _ hd => by simp only [decStep, hd, hs]⟩
  | body =>
    obtain ⟨d', h⟩ := decBodyStep_decActs d
    exact ⟨d', h.of_eq fun s _ hd => by simp only [decStep, hd, hs]⟩
  | trailer => exact ⟨_, (decActs_decNext d _).of_eq fun s _ hd => by simp only [decStep, hd, hs]; rfl⟩

/-! ### Steps the agenda gives -/

/-- A step of the encoder that the agenda asks for. -/
theorem step_run_enc {s : State} {e' : Enc} {later : List Event} (ha : s.agenda = .run .enc :: later)
    (h : EncActs s.enc e' encStep) :
    step s = .next { s with enc := e', active := .enc, agenda := later } :=
  (step_run s .enc later ha).trans (h { s with active := .enc, agenda := later } rfl rfl)

/-- A step of the decoder that the agenda asks for. -/
theorem step_run_dec {s : State} {d' : Dec} {later : List Event} (ha : s.agenda = .run .dec :: later)
    (h : DecActs s.dec d' decStep) :
    step s = .next { s with dec := d', active := .dec, agenda := later } :=
  (step_run s .dec later ha).trans (h { s with active := .dec, agenda := later } rfl rfl)

/-- Settles O54: both states take the same engine to the same engine, and keep the other one. -/
theorem enginesDoNotInteract : Obligations.EnginesDoNotInteract := by
  unfold Obligations.EnginesDoNotInteract
  constructor
  · intro s s' t t' later later' ha ha' he h h'
    obtain ⟨e', hacts⟩ := encStep_encActs s.enc
    cases (step_run_enc ha hacts).symm.trans h
    cases (step_run_enc ha' (he ▸ hacts)).symm.trans h'
    exact ⟨rfl, rfl⟩
  · intro s s' t t' later later' ha ha' hd h h'
    obtain ⟨d', hacts⟩ := decStep_decActs s.dec
    cases (step_run_dec ha hacts).symm.trans h
    cases (step_run_dec ha' (hd ▸ hacts)).symm.trans h'
    exact ⟨rfl, rfl⟩

end Sys2Proof.Machine
end

section
/-! SUPPORT. How far a step moves `POS` (R18, R41, R74). With it PositionOnlyMovesForward is settled. -/

namespace Sys2Proof

theorem Instr.size_pos (i : Instr) : 0 < i.size := by
  cases i <;> exact Nat.succ_pos _

namespace Machine

theorem Dec.bodyLen_le_len (d : Dec) : d.bodyLen ≤ d.len.toNat := by
  unfold Dec.bodyLen
  split
  · exact le_rfl
  · exact Nat.sub_le _ _

/-- `POS` does not wrap on a record that fits the body. -/
theorem Dec.advance_pos_toNat {d : Dec} {n : Nat} (h : d.has n) :
    (d.advance n).pos.toNat = d.pos.toNat + n := by
  have hfits : d.pos.toNat + n < 2 ^ 64 := h.trans_lt (d.bodyLen_le_len.trans_lt d.len.isLt)
  have hn : n % 2 ^ 64 = n := Nat.mod_eq_of_lt (by omega)
  rw [Dec.advance_pos, BitVec.toNat_add, BitVec.toNat_ofNat, hn, Nat.mod_eq_of_lt hfits]

/-- A record found at `POS` fits the rest of the body (R74). -/
theorem has_size_of_decodeRecord {d : Dec} {i : Instr} {rest : List Byte}
    (h : decodeRecord d.fetchRecord = .ok (i, rest)) : d.has i.size := by
  have hlen := (decodeRecord_ok h).2
  have hpos := i.size_pos
  rw [length_fetchRecord] at hlen
  unfold Dec.has
  omega

@[simp] theorem raise_dec_pos (k : ErrKind) (s : State) : (s.raise k).dec.pos = s.dec.pos := by
  cases h : s.active <;> simp [State.raise, h]

/-- A step that needs no record leaves `POS`. -/
theorem decStep_pos_of_no_record {s t : State} (hd : s.active = .dec)
    (hn : s.dec.regs.pxi = s.dec.regs.cfg.n ∨ s.dec.regs.run ≠ 0) (h : decStep s = .next t) :
    t.dec.pos = s.dec.pos := by
  rcases decStep_cases hd h with ⟨_, rfl⟩ | ⟨_, _, rfl⟩ | ⟨_, _, _, _, _, _, _, _, _, rfl⟩
    | ⟨_, _, _, rfl⟩ | ⟨_, _, rfl⟩ | ⟨_, _, _, rfl⟩ | ⟨_, hp, hr, _⟩ | ⟨_, rfl⟩
  · rfl
  · exact raise_dec_pos _ s
  · rfl
  · rfl
  · rfl
  · rfl
  · exact (hn.elim hp (· hr)).elim
  · rfl

/-- A record executed at `POS` is rejected, or moves `POS` by its length. -/
theorem exec_record_pos {s t : State} {i : Instr} {rest : List Byte} (ha : s.active = .dec)
    (hi : decodeRecord s.dec.fetchRecord = .ok (i, rest)) (h : exec i s = .next t) :
    t = s.raise .malformedStream
      ∨ t.dec.pos.toNat = s.dec.pos.toNat + i.size ∧ t.dec.pos.toNat ≤ s.dec.bodyLen := by
  rcases exec_record_dec i s ha (decodeRecord_ok hi).1 with hm | ⟨u, p, run, upd, hu, heff, _⟩
  · exact .inl (Host.Outcome.next.inj (h.symm.trans hm))
  · cases h.symm.trans hu
    have hfits := has_size_of_decodeRecord hi
    obtain ⟨_, _, _, _, _, _, _, _, hpos, _⟩ := heff
    have hmoved : t.dec.pos.toNat = s.dec.pos.toNat + i.size := by
      rw [hpos]
      exact Dec.advance_pos_toNat hfits
    exact .inr ⟨hmoved, hmoved.trans_le hfits⟩

/-- Settles O56: a body step runs on without a record, raises an error, or executes the record at `POS`. -/
theorem positionOnlyMovesForward : Obligations.PositionOnlyMovesForward := by
  unfold Obligations.PositionOnlyMovesForward
  intro s t hag ha hb h
  refine ⟨fun hn => ?_, fun hn hr => ⟨fun e he => ?_, fun i rest hi => ?_⟩⟩
  · rw [step_dec s hag ha (by rw [hb]; rfl)] at h
    exact decStep_pos_of_no_record ha hn h
  · cases (step_raises ⟨hag, ha, hb, hn, hr⟩ he).symm.trans h
    exact raise_dec_pos _ s
  · rw [step_runs ⟨hag, ha, hb, hn, hr⟩ hi] at h
    exact (exec_record_pos ha hi h).imp_left fun hm => ⟨hm, by rw [hm, raise_dec_pos]⟩

end Machine

end Sys2Proof
end

section
/-! SUPPORT. The reset state of each engine meets its invariant (R26, R112). With it ResetMeetsTheInvariant is
settled. -/

namespace Sys2Proof.Machine

/-- In IDLE with `ERR` clear, the invariant asks for canonical memories alone. -/
theorem Enc.inv_of_idle {e : Enc} (hs : e.regs.st = .idle) (he : e.regs.err = 0)
    (hp : e.pixIn.mem.wf = true) (hb : e.byteOut.wf = true) : e.inv := by
  simp [Enc.inv, Regs.errAgrees, hs, he, hp, hb]

theorem Dec.inv_of_idle {d : Dec} (hs : d.regs.st = .idle) (he : d.regs.err = 0)
    (hf : d.fileIn.wf = true) (hp : d.pixOut.wf = true) : d.inv := by
  simp [Dec.inv, Regs.errAgrees, hs, he, hf, hp]

theorem Enc.reset_inv : Enc.reset.inv := Enc.inv_of_idle rfl rfl rfl rfl

theorem Dec.reset_inv : Dec.reset.inv := Dec.inv_of_idle rfl rfl rfl rfl

/-- Settles O51: after reset each engine is IDLE with `ERR` clear and its memories are empty. -/
theorem resetMeetsTheInvariant : Obligations.ResetMeetsTheInvariant := ⟨Enc.reset_inv, Dec.reset_inv⟩

end Sys2Proof.Machine
end

section
/-! SUPPORT. What the decoder fetches lies in the body (R33, R74, R95). With it RecordsReadOnlyTheBody is settled. -/

namespace Sys2Proof.Machine

/-- The bytes fetched as a record are bytes of the body; there are none once `POS` is past its end. -/
theorem fetchRecord_of_body_eq (d : Dec) (m : Memory)
    (h : ∀ x, d.bodyOff ≤ x → x < d.bodyOff + d.bodyLen → m.read x = d.fileIn.read x) :
    Dec.fetchRecord { d with fileIn := m } = d.fetchRecord := by
  refine Memory.readBytes_congr d.fileIn m d.fetchAddr (min 5 (d.bodyLen - d.pos.toNat)) ?_
  intro x hfrom hto
  unfold Dec.fetchAddr at hfrom hto
  exact h x (by omega) (by omega)

/-- Settles O28: the record is decoded from the bytes fetched, and these are bytes of the body. -/
theorem recordsReadOnlyTheBody : Obligations.RecordsReadOnlyTheBody := by
  unfold Obligations.RecordsReadOnlyTheBody
  intro d m h
  unfold Dec.nextRecord
  rw [fetchRecord_of_body_eq d m h]

end Sys2Proof.Machine
end

section
/-! SUPPORT. The item decoders against the encoder: which record each range of tags selects (R39), and that
decoding and encoding undo each other (R38 to R43). With these the six statements on the encoding are settled. -/

namespace Sys2Proof

/-! ### The record that each range of tags selects -/

/-- The DIFF whose tag is `t` (R38, R40). -/
def diffOf (t : Byte) : Instr :=
  .diff ((bits t 5 4 : Int) - 2) ((bits t 3 2 : Int) - 2) ((bits t 1 0 : Int) - 2)

/-- The LUMA whose two bytes are `t` and `b` (R38, R40). -/
def lumaOf (t b : Byte) : Instr :=
  .luma ((bits t 5 0 : Int) - 32) ((bits b 7 4 : Int) - 8) ((bits b 3 0 : Int) - 8)

/-- The six ranges of R39 are all the tags there are. -/
theorem tag_cases (t : Byte) :
    t = 0xFF ∨ t = 0xFE ∨ t.toNat ≤ 0x3F ∨ (0x40 ≤ t.toNat ∧ t.toNat ≤ 0x7F)
      ∨ (0x80 ≤ t.toNat ∧ t.toNat ≤ 0xBF) ∨ (0xC0 ≤ t.toNat ∧ t.toNat ≤ 0xFD) := by
  bv_omega

theorem ne_literal_of_le {t : Byte} (h : t.toNat ≤ 0xFD) : t ≠ 0xFF ∧ t ≠ 0xFE := by
  bv_omega

theorem decodeRecord_rgbaTag (r g b a : Byte) (rest : List Byte) :
    decodeRecord (0xFF :: r :: g :: b :: a :: rest) = .ok (.rgba r g b a, rest) := rfl

theorem decodeRecord_rgbTag (r g b : Byte) (rest : List Byte) :
    decodeRecord (0xFE :: r :: g :: b :: rest) = .ok (.rgb r g b, rest) := rfl

theorem decodeRecord_indexTag {t : Byte} (h : t.toNat ≤ 0x3F) (rest : List Byte) :
    decodeRecord (t :: rest) = .ok (.index (Fin.ofNat 64 t.toNat), rest) := by
  obtain ⟨hFF, hFE⟩ := ne_literal_of_le (t := t) (by omega)
  have htop : bits t 7 6 = 0 := by rw [bits_76]; omega
  have hfield : bits t 5 0 = t.toNat := by rw [bits_50]; omega
  simp only [decodeRecord]
  rw [if_neg hFF, if_neg hFE, if_pos htop, hfield]

theorem decodeRecord_diffTag {t : Byte} (h : 0x40 ≤ t.toNat ∧ t.toNat ≤ 0x7F) (rest : List Byte) :
    decodeRecord (t :: rest) = .ok (diffOf t, rest) := by
  obtain ⟨hFF, hFE⟩ := ne_literal_of_le (t := t) (by omega)
  have htop : bits t 7 6 = 1 := by rw [bits_76]; omega
  simp only [decodeRecord]
  rw [if_neg hFF, if_neg hFE, if_neg (by omega), if_pos htop, diffOf]

theorem decodeRecord_lumaTag {t : Byte} (h : 0x80 ≤ t.toNat ∧ t.toNat ≤ 0xBF) (b : Byte)
    (rest : List Byte) : decodeRecord (t :: b :: rest) = .ok (lumaOf t b, rest) := by
  obtain ⟨hFF, hFE⟩ := ne_literal_of_le (t := t) (by omega)
  have htop : bits t 7 6 = 2 := by rw [bits_76]; omega
  simp only [decodeRecord]
  rw [if_neg hFF, if_neg hFE, if_neg (by omega), if_neg (by omega), if_pos htop, lumaOf]

theorem decodeRecord_lumaTag_short {t : Byte} (h : 0x80 ≤ t.toNat ∧ t.toNat ≤ 0xBF) :
    decodeRecord [t] = .error (.shortRecord t) := by
  obtain ⟨hFF, hFE⟩ := ne_literal_of_le (t := t) (by omega)
  have htop : bits t 7 6 = 2 := by rw [bits_76]; omega
  simp only [decodeRecord]
  rw [if_neg hFF, if_neg hFE, if_neg (by omega), if_neg (by omega), if_pos htop]

theorem decodeRecord_runTag {t : Byte} (h : 0xC0 ≤ t.toNat ∧ t.toNat ≤ 0xFD) (rest : List Byte) :
    decodeRecord (t :: rest) = .ok (.run (t.toNat - 0xC0 + 1), rest) := by
  obtain ⟨hFF, hFE⟩ := ne_literal_of_le h.2
  have htop : bits t 7 6 = 3 := by rw [bits_76]; omega
  have hfield : bits t 5 0 = t.toNat - 0xC0 := by rw [bits_50]; omega
  simp only [decodeRecord]
  rw [if_neg hFF, if_neg hFE, if_neg (by omega), if_neg (by omega), if_neg (by omega), hfield]

/-- With four bytes after it, every tag has its whole record. -/
theorem decodeRecord_isOk (t b1 b2 b3 b4 : Byte) (rest : List Byte) :
    ∃ i rest', decodeRecord (t :: b1 :: b2 :: b3 :: b4 :: rest) = .ok (i, rest') := by
  rcases tag_cases t with rfl | rfl | ht | ht | ht | ht
  · exact ⟨_, _, decodeRecord_rgbaTag b1 b2 b3 b4 rest⟩
  · exact ⟨_, _, decodeRecord_rgbTag b1 b2 b3 (b4 :: rest)⟩
  · exact ⟨_, _, decodeRecord_indexTag ht _⟩
  · exact ⟨_, _, decodeRecord_diffTag ht _⟩
  · exact ⟨_, _, decodeRecord_lumaTag ht b1 _⟩
  · exact ⟨_, _, decodeRecord_runTag ht _⟩

/-- Two readings of the same bytes read the same record. -/
theorem record_unique {bs rest rest' : List Byte} {i j : Instr}
    (hi : decodeRecord bs = .ok (i, rest)) (hj : decodeRecord bs = .ok (j, rest')) : i = j := by
  cases hi.symm.trans hj
  rfl

/-! ### A record's bytes give the record back -/

theorem toNat_ofInt_byte {x : Int} (h0 : 0 ≤ x) (h : x < 256) : ((BitVec.ofInt 8 x).toNat : Int) = x := by
  rw [BitVec.toNat_ofInt]
  omega

theorem decodeRecord_encode_index (k : Slot) (rest : List Byte) :
    decodeRecord (encode (.index k) ++ rest) = .ok (.index k, rest) := by
  have hk := k.isLt
  have htag : (BitVec.ofNat 8 k.val).toNat = k.val := by
    rw [BitVec.toNat_ofNat]
    omega
  have hdec := decodeRecord_indexTag (t := BitVec.ofNat 8 k.val) (by omega) rest
  rwa [htag, Fin.ofNat_val_eq_self] at hdec

theorem decodeRecord_encode_diff {dr dg db : Int} (hr : -2 ≤ dr ∧ dr ≤ 1) (hg : -2 ≤ dg ∧ dg ≤ 1)
    (hb : -2 ≤ db ∧ db ≤ 1) (rest : List Byte) :
    decodeRecord (encode (.diff dr dg db) ++ rest) = .ok (.diff dr dg db, rest) := by
  have htag := toNat_ofInt_byte (x := 0x40 + (dr + 2) * 16 + (dg + 2) * 4 + (db + 2)) (by omega) (by omega)
  simp only [encode, List.cons_append, List.nil_append]
  rw [decodeRecord_diffTag (by omega), diffOf, bits_54, bits_32, bits_10]
  congr 3 <;> omega

theorem decodeRecord_encode_luma {dg drDg dbDg : Int} (hg : -32 ≤ dg ∧ dg ≤ 31)
    (hr : -8 ≤ drDg ∧ drDg ≤ 7) (hb : -8 ≤ dbDg ∧ dbDg ≤ 7) (rest : List Byte) :
    decodeRecord (encode (.luma dg drDg dbDg) ++ rest) = .ok (.luma dg drDg dbDg, rest) := by
  have htag := toNat_ofInt_byte (x := 0x80 + dg + 32) (by omega) (by omega)
  have hbyte := toNat_ofInt_byte (x := (drDg + 8) * 16 + (dbDg + 8)) (by omega) (by omega)
  simp only [encode, List.cons_append, List.nil_append]
  rw [decodeRecord_lumaTag (by omega), lumaOf, bits_50, bits_74, bits_30]
  congr 3 <;> omega

theorem decodeRecord_encode_run {n : Nat} (h : 1 ≤ n ∧ n ≤ 62) (rest : List Byte) :
    decodeRecord (encode (.run n) ++ rest) = .ok (.run n, rest) := by
  have htag : (BitVec.ofNat 8 (0xC0 + n - 1)).toNat = 0xC0 + n - 1 := by
    rw [BitVec.toNat_ofNat]
    omega
  simp only [encode, List.cons_append, List.nil_append]
  rw [decodeRecord_runTag (by omega), htag]
  congr 3
  omega

/-- Settles O1: each record's tag lies in the range of its kind, and the fields cut from it are its operands. -/
theorem recordsDecodeAsEncoded : Obligations.RecordsDecodeAsEncoded := by
  unfold Obligations.RecordsDecodeAsEncoded
  intro i rest hrec hwf
  cases i with
  | index k => exact decodeRecord_encode_index k rest
  | diff dr dg db =>
    obtain ⟨hr, hg, hb⟩ := (wellFormed_diff dr dg db).1 hwf
    exact decodeRecord_encode_diff hr hg hb rest
  | luma dg drDg dbDg =>
    obtain ⟨hg, hr, hb⟩ := (wellFormed_luma dg drDg dbDg).1 hwf
    exact decodeRecord_encode_luma hg hr hb rest
  | run n => exact decodeRecord_encode_run ((wellFormed_run n).1 hwf) rest
  | rgb r g b => exact decodeRecord_rgbTag r g b rest
  | rgba r g b a => exact decodeRecord_rgbaTag r g b a rest
  | header w h c cs => cases hrec
  | trailer => cases hrec

/-! ### The record read from bytes has those bytes as its encoding -/

theorem ofInt_eq_byte {x : Int} {b : Byte} (h : x = b.toNat) : BitVec.ofInt 8 x = b := by
  rw [h, BitVec.ofInt_natCast, BitVec.ofNat_toNat, BitVec.setWidth_eq]

theorem encode_indexTag {t : Byte} (h : t.toNat ≤ 0x3F) : encode (.index (Fin.ofNat 64 t.toNat)) = [t] := by
  simp only [encode, List.cons.injEq, and_true, Fin.val_ofNat]
  bv_omega

theorem encode_diffOf {t : Byte} (h : 0x40 ≤ t.toNat ∧ t.toNat ≤ 0x7F) : encode (diffOf t) = [t] := by
  simp only [diffOf, encode, bits_54, bits_32, bits_10, List.cons.injEq, and_true]
  exact ofInt_eq_byte (by omega)

theorem wellFormed_diffOf (t : Byte) : (diffOf t).wellFormed = true := by
  rw [diffOf, wellFormed_diff, bits_54, bits_32, bits_10]
  omega

theorem encode_lumaOf {t : Byte} (h : 0x80 ≤ t.toNat ∧ t.toNat ≤ 0xBF) (b : Byte) :
    encode (lumaOf t b) = [t, b] := by
  have hb := b.isLt
  simp only [lumaOf, encode, bits_50, bits_74, bits_30, List.cons.injEq, and_true]
  exact ⟨ofInt_eq_byte (by omega), ofInt_eq_byte (by omega)⟩

theorem wellFormed_lumaOf (t b : Byte) : (lumaOf t b).wellFormed = true := by
  have hb := b.isLt
  rw [lumaOf, wellFormed_luma, bits_50, bits_74, bits_30]
  omega

theorem encode_runTag {t : Byte} (h : 0xC0 ≤ t.toNat ∧ t.toNat ≤ 0xFD) :
    encode (.run (t.toNat - 0xC0 + 1)) = [t] := by
  simp only [encode, List.cons.injEq, and_true]
  bv_omega

theorem decodeRecord_rgbaTag_ok {bs rest : List Byte} {i : Instr}
    (h : decodeRecord (0xFF :: bs) = .ok (i, rest)) :
    ∃ r g b a, i = .rgba r g b a ∧ bs = r :: g :: b :: a :: rest := by
  match bs, h with
  | r :: g :: b :: a :: bs, h =>
    cases (decodeRecord_rgbaTag r g b a bs).symm.trans h
    exact ⟨r, g, b, a, rfl, rfl⟩

theorem decodeRecord_rgbTag_ok {bs rest : List Byte} {i : Instr}
    (h : decodeRecord (0xFE :: bs) = .ok (i, rest)) :
    ∃ r g b, i = .rgb r g b ∧ bs = r :: g :: b :: rest := by
  match bs, h with
  | r :: g :: b :: bs, h =>
    cases (decodeRecord_rgbTag r g b bs).symm.trans h
    exact ⟨r, g, b, rfl, rfl⟩

theorem decodeRecord_lumaTag_ok {t : Byte} (ht : 0x80 ≤ t.toNat ∧ t.toNat ≤ 0xBF)
    {bs rest : List Byte} {i : Instr} (h : decodeRecord (t :: bs) = .ok (i, rest)) :
    ∃ b, i = lumaOf t b ∧ bs = b :: rest := by
  match bs, h with
  | [], h => cases (decodeRecord_lumaTag_short ht).symm.trans h
  | b :: bs, h =>
    cases (decodeRecord_lumaTag ht b bs).symm.trans h
    exact ⟨b, rfl, rfl⟩

/-- Settles O2, by the ranges of the tag: in each, the record read is well-formed and its encoding is the bytes
read. -/
theorem decodedBytesAreTheirEncoding : Obligations.DecodedBytesAreTheirEncoding := by
  unfold Obligations.DecodedBytesAreTheirEncoding
  rintro (_ | ⟨t, bs⟩) i rest h
  · cases h
  rcases tag_cases t with rfl | rfl | ht | ht | ht | ht
  · obtain ⟨r, g, b, a, rfl, rfl⟩ := decodeRecord_rgbaTag_ok h
    exact ⟨rfl, rfl, rfl⟩
  · obtain ⟨r, g, b, rfl, rfl⟩ := decodeRecord_rgbTag_ok h
    exact ⟨rfl, rfl, rfl⟩
  · cases (decodeRecord_indexTag ht bs).symm.trans h
    exact ⟨by rw [encode_indexTag ht]; rfl, rfl, rfl⟩
  · cases (decodeRecord_diffTag ht bs).symm.trans h
    exact ⟨by rw [encode_diffOf ht]; rfl, rfl, wellFormed_diffOf t⟩
  · obtain ⟨b, rfl, rfl⟩ := decodeRecord_lumaTag_ok ht h
    exact ⟨by rw [encode_lumaOf ht]; rfl, rfl, wellFormed_lumaOf t b⟩
  · cases (decodeRecord_runTag ht bs).symm.trans h
    exact ⟨by rw [encode_runTag ht]; rfl, rfl, (wellFormed_run _).2 (by omega)⟩

/-! ### What the tag alone decides -/

/-- Settles O4: a record is read, and within each range it is the one that range selects. -/
theorem everyTagSelectsOneRecordKind : Obligations.EveryTagSelectsOneRecordKind := by
  unfold Obligations.EveryTagSelectsOneRecordKind
  intro t b1 b2 b3 b4 rest
  obtain ⟨i, rest', h⟩ := decodeRecord_isOk t b1 b2 b3 b4 rest
  refine ⟨i, rest', h, ?_, ?_, ?_, ?_, ?_, ?_⟩
  · rintro rfl
    exact record_unique h (decodeRecord_rgbaTag b1 b2 b3 b4 _)
  · rintro rfl
    exact record_unique h (decodeRecord_rgbTag b1 b2 b3 _)
  · intro k hk
    have hi := record_unique h (decodeRecord_indexTag (by omega) _)
    rwa [hk, Fin.ofNat_val_eq_self] at hi
  · exact fun ht => ⟨_, _, _, record_unique h (decodeRecord_diffTag ht _)⟩
  · exact fun ht => ⟨_, _, _, record_unique h (decodeRecord_lumaTag ht b1 _)⟩
  · exact fun ht => record_unique h (decodeRecord_runTag ht _)

theorem tagLength_eq (t : Byte) :
    tagLength t = if t = 0xFF then 5 else if t = 0xFE then 4
      else if 0x80 ≤ t.toNat ∧ t.toNat ≤ 0xBF then 2 else 1 := by
  have hluma : bits t 7 6 = 2 ↔ 0x80 ≤ t.toNat ∧ t.toNat ≤ 0xBF := by
    rw [bits_76]
    omega
  simp only [tagLength, hluma]

theorem tagLength_of_le {t : Byte} (h : t.toNat ≤ 0xFD) :
    tagLength t = if 0x80 ≤ t.toNat ∧ t.toNat ≤ 0xBF then 2 else 1 := by
  obtain ⟨hFF, hFE⟩ := ne_literal_of_le h
  rw [tagLength_eq, if_neg hFF, if_neg hFE]

/-- The record read is as long as its tag says. -/
theorem size_eq_tagLength {t : Byte} {bs rest : List Byte} {i : Instr}
    (h : decodeRecord (t :: bs) = .ok (i, rest)) : i.size = tagLength t := by
  rcases tag_cases t with rfl | rfl | ht | ht | ht | ht
  · obtain ⟨r, g, b, a, rfl, rfl⟩ := decodeRecord_rgbaTag_ok h
    rfl
  · obtain ⟨r, g, b, rfl, rfl⟩ := decodeRecord_rgbTag_ok h
    rfl
  · cases (decodeRecord_indexTag ht bs).symm.trans h
    rw [tagLength_of_le (by omega), if_neg (by omega)]
    rfl
  · cases (decodeRecord_diffTag ht bs).symm.trans h
    rw [tagLength_of_le (by omega), if_neg (by omega)]
    rfl
  · obtain ⟨b, rfl, rfl⟩ := decodeRecord_lumaTag_ok ht h
    rw [tagLength_of_le (by omega), if_pos ht]
    rfl
  · cases (decodeRecord_runTag ht bs).symm.trans h
    rw [tagLength_of_le ht.2, if_neg (by omega)]
    rfl

/-- Settles O5: a record consumes its size, which is the length that its tag gives. -/
theorem recordLengthComesFromTheTag : Obligations.RecordLengthComesFromTheTag := by
  unfold Obligations.RecordLengthComesFromTheTag
  intro t bs i rest h
  exact ⟨(Machine.decodeRecord_ok h).2, (size_eq_tagLength h).trans (tagLength_eq t)⟩

/-! ### The container items -/

theorem be32_unbe32_of_length {bs : List Byte} (h : 4 ≤ bs.length) : be32 (unbe32 bs) = bs.take 4 := by
  match bs, h with
  | b0 :: b1 :: b2 :: b3 :: rest, _ => exact be32_unbe32 b0 b1 b2 b3 rest

theorem decodeHeader_encode (w h : Word) (c cs : Byte) (rest : List Byte) :
    decodeHeader (encode (.header w h c cs) ++ rest) = .ok (.header w h c cs) := by
  have hw : unbe32 ((encode (.header w h c cs) ++ rest).drop 4) = w := unbe32_be32 w _
  have hh : unbe32 ((encode (.header w h c cs) ++ rest).drop 8) = h := unbe32_be32 h _
  unfold decodeHeader
  rw [hw, hh]
  rfl

/-- The 14 bytes at the start of a file, by the fields of R43. -/
theorem take_headerBytes {bs : List Byte} (h : 14 ≤ bs.length) :
    bs.take 14 = bs.take 4 ++ (bs.drop 4).take 4 ++ (bs.drop 8).take 4 ++ [bs.getD 12 0, bs.getD 13 0] := by
  rw [List.getD_eq_getElem _ _ (by omega), List.getD_eq_getElem _ _ (by omega)]
  rw [← List.take_add, ← List.take_add, List.append_cons, List.take_append_getElem, List.take_append_getElem]

/-- What is read as a HEADER. -/
theorem decodeHeader_ok {bs : List Byte} {i : Instr} (h : decodeHeader bs = .ok i) :
    14 ≤ bs.length ∧ bs.take 4 = magic
      ∧ i = .header (unbe32 (bs.drop 4)) (unbe32 (bs.drop 8)) (bs.getD 12 0) (bs.getD 13 0) := by
  unfold decodeHeader at h
  split at h
  · cases h
  next hlen =>
    split at h
    · cases h
    next hmagic =>
      cases h
      exact ⟨Nat.le_of_not_lt hlen, not_not.1 hmagic, rfl⟩

theorem take_of_decodeHeader {bs : List Byte} {i : Instr} (h : decodeHeader bs = .ok i) :
    bs.take 14 = encode i := by
  obtain ⟨hlen, hmagic, rfl⟩ := decodeHeader_ok h
  rw [take_headerBytes hlen, hmagic, encode, be32_unbe32_of_length (by rw [List.length_drop]; omega),
    be32_unbe32_of_length (by rw [List.length_drop]; omega)]

theorem decodeTrailer_ok {bs : List Byte} {i : Instr} (h : decodeTrailer bs = .ok i) :
    bs.take 8 = trailerImage ∧ i = .trailer := by
  unfold decodeTrailer at h
  split at h
  · cases h
  · split at h
    · cases h
    next himage =>
      cases h
      exact ⟨not_not.1 himage, rfl⟩

/-- Settles O3: the fields laid out by R43 are read back from their places, and those places are the whole of
the 14 and the 8 bytes. -/
theorem containerItemsDecodeAsEncoded : Obligations.ContainerItemsDecodeAsEncoded := by
  unfold Obligations.ContainerItemsDecodeAsEncoded
  refine ⟨decodeHeader_encode, fun bs i h => ⟨?_, take_of_decodeHeader h⟩, fun rest => rfl, fun bs i h => ?_⟩
  · obtain ⟨_, _, hi⟩ := decodeHeader_ok h
    exact ⟨_, _, _, _, hi⟩
  · obtain ⟨himage, rfl⟩ := decodeTrailer_ok h
    exact ⟨rfl, himage⟩

/-- Settles O6, by running the decoders on the words. -/
theorem sampleWordsDecode : Obligations.SampleWordsDecode :=
  ⟨rfl, rfl, rfl, rfl, rfl, rfl, rfl, rfl, rfl⟩

end Sys2Proof
end

section
/-! SUPPORT. The hash, the cache update and the start cache (R46 to R48, R52). With these the three statements on
them are settled. -/

namespace Sys2Proof.Machine

/-! ### The hash -/

theorem channelSum_le (p : Pixel) :
    p.r.toNat * 3 + p.g.toNat * 5 + p.b.toNat * 7 + p.a.toNat * 11 ≤ 6630 := by
  have hr := p.r.isLt
  have hg := p.g.isLt
  have hb := p.b.isLt
  have ha := p.a.isLt
  omega

/-- The alpha of a 3-channel call adds the constant 2805 (R47). -/
theorem pixelHash_opaque (r g b : Byte) :
    (pixelHash ⟨r, g, b, 255⟩).val = (r.toNat * 3 + g.toNat * 5 + b.toNat * 7 + 2805) % 64 :=
  pixelHash_val ⟨r, g, b, 255⟩

/-- Settles O7: the formula is the model's own, and 2805 is 53 modulo 64. -/
theorem hashIsTheWeightedChannelSum : Obligations.HashIsTheWeightedChannelSum := by
  unfold Obligations.HashIsTheWeightedChannelSum
  refine ⟨fun p => ⟨pixelHash_val p, channelSum_le p⟩, by decide, fun r g b => ⟨pixelHash_opaque r g b, ?_⟩⟩
  rw [pixelHash_opaque]
  omega

/-! ### The cache -/

/-- Settles O8, by what `Update` does to each slot. -/
theorem updateWritesOneSlot : Obligations.UpdateWritesOneSlot := by
  unfold Obligations.UpdateWritesOneSlot
  intro r p
  refine ⟨?_, fun j hj => ?_, rfl⟩
  · rw [update_cacheAfter r p, if_pos ⟨rfl, rfl⟩]
  · rw [update_cacheAfter r p, if_neg fun h => hj h.2]

theorem Regs.start_cache_getElem (r : Regs) (i : Slot) : r.start.cache[i] = ⟨0, 0, 0, 255⟩ := by
  simp

theorem pixelHash_zero : pixelHash ⟨0, 0, 0, 255⟩ = 53 := by
  decide

/-- A pixel that stands in its own slot is found there first (R56, R59). -/
theorem selectRecord_of_hit {p : Pixel} {r : Regs} (h : r.cache[pixelHash p] = p) :
    selectRecord p r = .index (pixelHash p) := by
  rw [selectRecord, if_pos h]

/-- Settles O9: every slot of a start holds the zero pixel, whose slot is 53. -/
theorem freshCacheHoldsTheZeroPixel : Obligations.FreshCacheHoldsTheZeroPixel := by
  unfold Obligations.FreshCacheHoldsTheZeroPixel
  refine ⟨fun r i => ⟨r.start_cache_getElem i, ?_⟩, fun r h => ?_⟩
  · rw [r.start_cache_getElem i, pixelHash_zero]
    exact eq_comm
  · rw [selectRecord_of_hit (by rw [pixelHash_zero]; exact h), pixelHash_zero]

end Sys2Proof.Machine
end

section
/-! SUPPORT. The decoder's execution of the record that the encoder selects (R51, R56, R127). With it
DecoderReversesTheSelectedRecord is settled. -/

namespace Sys2Proof.Machine

/-! ### The selected record, executed -/

/-- The chain looks at `PREV`, the cache and the descriptor alone. -/
theorem selectRecord_congr {r r' : Regs} (p : Pixel) (hprev : r.prev = r'.prev) (hcache : r.cache = r'.cache)
    (hcfg : r.cfg = r'.cfg) : selectRecord p r = selectRecord p r' := by
  simp only [selectRecord, hprev, hcache, hcfg]

/-- The pixel at `PXI` is one the host handed over, opaque in a 3-channel call (R54, R117). -/
theorem Enc.pixel_some {e : Enc} {p : Pixel} (h : e.pixel = some p) :
    e.regs.pxi.toNat < e.pixIn.chans.length ∧ (e.regs.cfg.c = 3 → p.a = 255) := by
  simp only [Enc.pixel] at h
  split at h
  next hlt =>
    cases h
    exact ⟨hlt, fun hc => if_pos hc⟩
  next => cases h

/-- Adding the encoder's delta gives the channel back (R127). -/
theorem addDelta_delta (old new : Byte) : addDelta old (delta new old) = new :=
  addDelta_exact old new _ (by rw [delta_eq]; omega)

theorem diffPixel_delta {p prev : Pixel} (ha : p.a = prev.a) :
    diffPixel prev (delta p.r prev.r) (delta p.g prev.g) (delta p.b prev.b) = p := by
  simp only [diffPixel, addDelta_delta, ← ha]

theorem lumaPixel_delta {p prev : Pixel} (ha : p.a = prev.a) :
    lumaPixel prev (delta p.g prev.g) (delta p.r prev.r - delta p.g prev.g)
      (delta p.b prev.b - delta p.g prev.g) = p := by
  simp only [lumaPixel, sub_add_cancel, addDelta_delta, ← ha]

/-- Away from its own slot, the record that the decoder's registers select for `p` produces `p` and writes the
cache (R76, R77, R79, R80). -/
theorem exec_select_dec_of_miss {p : Pixel} {s : State} (h : s.active = .dec)
    (hc : s.dec.regs.cfg.c = 3 ∨ s.dec.regs.cfg.c = 4) (hp : s.dec.regs.cfg.c = 3 → p.a = 255)
    (hmiss : s.dec.regs.cache[pixelHash p] ≠ p) :
    ∃ n, exec (selectRecord p s.dec.regs) s = .next { s with dec := s.dec.newPixel n p } := by
  rw [selectRecord, if_neg hmiss]
  split
  next hdiff => exact ⟨1, by rw [exec_diff_dec _ _ _ s h, diffPixel_delta hdiff.1]⟩
  next =>
    split
    next hluma => exact ⟨2, by rw [exec_luma_dec _ _ _ s h, lumaPixel_delta hluma.1]⟩
    next =>
      split
      next h3 => exact ⟨4, by rw [exec_rgb_dec _ _ _ s h h3, ← hp h3]⟩
      next h3 => exact ⟨5, exec_rgba_dec _ _ _ _ s h (hc.resolve_left h3)⟩

/-- What the decoder does on that record: it produces `p`, and only INDEX leaves the cache (R49, R51). -/
theorem exec_select_dec {p : Pixel} {s : State} (h : s.active = .dec)
    (hc : s.dec.regs.cfg.c = 3 ∨ s.dec.regs.cfg.c = 4) (hp : s.dec.regs.cfg.c = 3 → p.a = 255) :
    ∃ t n updates, exec (selectRecord p s.dec.regs) s = .next t
      ∧ decEffect s t p n s.dec.regs.run updates
      ∧ (updates = false ↔ s.dec.regs.cache[pixelHash p] = p) := by
  by_cases hit : s.dec.regs.cache[pixelHash p] = p
  · refine ⟨_, 1, false, by rw [selectRecord_of_hit hit]; exact exec_index_dec _ s h, ?_, by simpa using hit⟩
    rw [hit]
    exact ⟨rfl, rfl, rfl, rfl, cacheAfter_of_eq _ rfl, rfl, rfl, sameControl_refl _, rfl, rfl, rfl, rfl, rfl, rfl,
      stores_writeBytes _ _ _⟩
  · obtain ⟨n, hn⟩ := exec_select_dec_of_miss h hc hp hit
    exact ⟨_, n, true, hn, newPixel_effect s n p, by simpa using hit⟩

/-- Two caches after the same update of the same cache are the same. -/
theorem cache_eq_of_cacheAfter {r₁ r₁' r₂ r₂' : Regs} {updates : Bool} {p : Pixel}
    (h : r₁.cache = r₂.cache) (h₁ : cacheAfter r₁ r₁' updates p) (h₂ : cacheAfter r₂ r₂' updates p) :
    r₁'.cache = r₂'.cache := by
  apply Vector.ext
  intro j hj
  exact (h₁ ⟨j, hj⟩).trans (h ▸ (h₂ ⟨j, hj⟩).symm)

/-- Settles O59: both engines take the same record as an effect of the same pixel on the same cache. -/
theorem decoderReversesTheSelectedRecord : Obligations.DecoderReversesTheSelectedRecord := by
  unfold Obligations.DecoderReversesTheSelectedRecord
  intro s e d p ha hpix _ hc hcfg hprev hcache hd he
  obtain ⟨u, he', hu⟩ := exec_select_enc p { s with active := .enc } rfl hpix
  cases he'.symm.trans he
  rw [← selectRecord_congr p hprev hcache hcfg] at hd
  obtain ⟨t, n, v, hd', hv, hv'⟩ :=
    exec_select_dec ha hc fun h3 => (Enc.pixel_some hpix).2 (by rwa [← hcfg])
  cases hd'.symm.trans hd
  have huv : v = u := by
    rw [hcache, ← hu] at hv'
    exact Bool.eq_iff_iff.2 (by simpa using not_congr hv')
  subst huv
  obtain ⟨_, _, _, hdprev, hdcache, _, _, ⟨_, hdst, _⟩, _, _, _, _, _, _, hcell⟩ := hv
  obtain ⟨_, _, _, heprev, hecache, _⟩ :=
    record_effect { s with active := .enc } (selectRecord p s.enc.regs) v p
  exact ⟨hdprev, heprev, cache_eq_of_cacheAfter hcache hdcache hecache, hdst, hcell⟩

end Sys2Proof.Machine
end

section
/-! SUPPORT. What an effect of an engine keeps of the invariant (R14 to R17, R23, R51, R70), then that every step
of an engine and every move of the host keeps it. With it EveryStepKeepsTheInvariant is settled. -/

namespace Sys2Proof.Machine

/-! ### Registers -/

theorem Regs.errAgrees_raise (k : ErrKind) (r : Regs) : (r.raise k).errAgrees :=
  iff_of_true rfl (raise_code_ne_zero k)

/-- Between two statuses that are not ERROR, `ERR` stays 0. -/
theorem Regs.errAgrees_of_st {r r' : Regs} (h : r.errAgrees) (hs : r.st ≠ .error) (hs' : r'.st ≠ .error)
    (he : r'.err = r.err) : r'.errAgrees := by
  unfold Regs.errAgrees at *
  rw [he, ← h]
  exact iff_of_false hs' hs

theorem Regs.errAgrees_of_sameControl {r r' : Regs} (h : r.errAgrees) (hsame : sameControl r r') :
    r'.errAgrees := by
  obtain ⟨_, hst, herr⟩ := hsame
  unfold Regs.errAgrees
  rw [hst, herr]
  exact h

theorem Regs.fresh_start (r : Regs) : r.start.fresh := ⟨rfl, rfl, rfl, rfl⟩

/-- In the start cache the start pixel stands in every slot (R52). -/
theorem Regs.lockStep_of_fresh {r : Regs} (h : r.fresh) : r.lockStep := by
  obtain ⟨hprev, hcache, _, _⟩ := h
  simp [Regs.lockStep, hprev, hcache]

theorem Regs.alphaFixed_of_fresh {r : Regs} (h : r.fresh) : r.alphaFixed := by
  obtain ⟨hprev, hcache, _, _⟩ := h
  simp [Regs.alphaFixed, hprev, hcache]

theorem Regs.alphaFixed_after {r r' : Regs} {updates : Bool} {p : Pixel} (h : r.alphaFixed)
    (hcfg : r'.cfg = r.cfg) (hprev : r'.prev = p) (hcache : cacheAfter r r' updates p)
    (hp : r.cfg.c = 3 → p.a = 255) : r'.alphaFixed := by
  intro hc
  rw [hcfg] at hc
  refine ⟨by rw [hprev, hp hc], fun j => ?_⟩
  rw [hcache j]
  split
  · exact hp hc
  · exact (h hc).2 j

/-- `PREV` stands in its own slot when the slot was written, or held the pixel already (R49, R51). -/
theorem Regs.lockStep_after {r r' : Regs} {updates : Bool} {p : Pixel} (hprev : r'.prev = p)
    (hcache : cacheAfter r r' updates p) (hit : updates = false → r.cache[pixelHash p] = p) :
    r'.lockStep := by
  subst hprev
  refine (hcache _).trans ?_
  cases updates with
  | true => exact if_pos ⟨rfl, rfl⟩
  | false => exact (if_neg (by simp)).trans (hit rfl)

/-- `PXI` does not wrap below a bound of its own width (R17). -/
theorem toNat_add_one_of_lt {x n : Count} (h : x.toNat < n.toNat) : (x + 1).toNat = x.toNat + 1 := by
  bv_omega

/-! ### The decoder -/

/-- Outside a call the invariant asks for canonical memories and for `ERR` alone. -/
theorem Dec.inv_of_ended {d : Dec} (hs : d.regs.st.inCall = false) (hf : d.fileIn.wf = true)
    (hp : d.pixOut.wf = true) (he : d.regs.errAgrees) : d.inv := by
  refine ⟨hf, hp, he, fun h => ?_, fun h => ?_, fun h => ?_⟩ <;> simp [h, Status.inCall] at hs

theorem Dec.inv_of_body {d : Dec} (hs : d.regs.st = .body) (hf : d.fileIn.wf = true)
    (hp : d.pixOut.wf = true) (he : d.regs.errAgrees) (h : d.producing) : d.inv := by
  simp [Dec.inv, hs, hf, hp, he, h]

/-- A cell leaves the decoder producing (R73, R75). -/
theorem Dec.producing_after {s t : State} {p : Pixel} {n : Nat} {run : BitVec 6} {updates : Bool}
    (h : s.dec.producing) (heff : decEffect s t p n run updates) (hpxi : s.dec.regs.pxi ≠ s.dec.regs.cfg.n)
    (hfits : s.dec.has n) (hrun : run.toNat ≤ 61)
    (hp : s.dec.regs.cfg.c = 3 → s.dec.regs.alphaFixed → p.a = 255) : t.dec.producing := by
  obtain ⟨hlegal, hdesc, _, hle, _, halpha, hlen⟩ := h
  obtain ⟨_, _, _, hprev, hcache, hrun', hpxi', ⟨hcfg, _, _⟩, hpos, _, hlen', hbody, _, hdesc', _⟩ := heff
  have hbodyLen : t.dec.bodyLen = s.dec.bodyLen := by simp only [Dec.bodyLen, hbody, hlen']
  have hpos' : t.dec.pos.toNat = s.dec.pos.toNat + n :=
    (congrArg BitVec.toNat hpos).trans (Dec.advance_pos_toNat hfits)
  refine ⟨by rwa [hcfg], by rw [hdesc', hdesc, hcfg], by rwa [hrun'], ?_, ?_,
    Regs.alphaFixed_after halpha hcfg hprev hcache fun hc => hp hc halpha, by rwa [hbody, hlen']⟩
  · rw [hpxi', hcfg]
    bv_omega
  · rw [hpos', hbodyLen]
    exact hfits

/-- A cell of the body keeps the invariant. -/
theorem Dec.inv_after {s t : State} {p : Pixel} {n : Nat} {run : BitVec 6} {updates : Bool}
    (h : s.dec.inv) (hs : s.dec.regs.st = .body) (heff : decEffect s t p n run updates)
    (hpxi : s.dec.regs.pxi ≠ s.dec.regs.cfg.n) (hfits : s.dec.has n) (hrun : run.toNat ≤ 61)
    (hp : s.dec.regs.cfg.c = 3 → s.dec.regs.alphaFixed → p.a = 255)
    (hw : s.dec.pixOut.wf = true → t.dec.pixOut.wf = true) : t.dec.inv := by
  obtain ⟨hfile, hpix, herr, _, hbody, _⟩ := h
  have hproducing := Dec.producing_after (hbody hs) heff hpxi hfits hrun hp
  obtain ⟨_, _, _, _, _, _, _, hsame, _, hfile', _⟩ := heff
  obtain ⟨_, hst, _⟩ := id hsame
  exact Dec.inv_of_body (hst.trans hs) (by rwa [hfile']) (hw hpix) (Regs.errAgrees_of_sameControl herr hsame)
    hproducing

/-- A step of the decoder keeps its invariant. -/
theorem decStep_inv {s t : State} (hd : s.active = .dec) (h : decStep s = .next t) (hinv : s.dec.inv) :
    t.dec.inv := by
  obtain ⟨hfile, hpix, herr, hheader, hbody, _⟩ := id hinv
  rcases decStep_cases hd h with ⟨_, rfl⟩ | ⟨k, _, rfl⟩ | ⟨w, hh, c, cs, hs, _, _, hlen, hl, rfl⟩
    | ⟨hs, desc, hdesc, rfl⟩ | ⟨hs, hn, rfl⟩ | ⟨hs, hn, hr, rfl⟩
    | ⟨hs, hn, _, i, rest, p, run, upd, _, hfits, _, heff, hw, hrun, hp⟩ | ⟨hs, rfl⟩
  · exact hinv
  · rw [raise_dec k s hd]
    exact Dec.inv_of_ended rfl hfile hpix (Regs.errAgrees_raise k _)
  · obtain ⟨hw0, hh0, hc, _⟩ := (headerLegal_iff w hh c cs).1 hl
    obtain ⟨hfresh, hpos, _⟩ := hheader hs
    exact ⟨hfile, hpix, herr, fun _ => ⟨hfresh, hpos, fun _ => ⟨⟨hc, hw0, hh0⟩, rfl, hlen⟩⟩,
      fun e => absurd (hs.symm.trans e) (by decide), fun e => absurd (hs.symm.trans e) (by decide)⟩
  · obtain ⟨hfresh, hpos, hread⟩ := hheader hs
    obtain ⟨hlegal, hdesc', hlen⟩ : s.dec.regs.cfg.legal ∧ desc = s.dec.regs.cfg
        ∧ (s.dec.bodyOnly = false → 22 ≤ s.dec.len.toNat) := by
      rcases hdesc with ⟨_, hr, hlen, rfl⟩ | ⟨ho, hlegal, rfl⟩
      · obtain ⟨hlegal, hdesc, _⟩ := hread hr
        exact ⟨hlegal, hdesc, fun _ => hlen⟩
      · exact ⟨hlegal, rfl, by simp [ho]⟩
    have halpha := Regs.alphaFixed_of_fresh hfresh
    obtain ⟨_, _, hrun, hpxi⟩ := hfresh
    exact Dec.inv_of_body rfl hfile hpix (Regs.errAgrees_of_st herr (by simp [hs]) (by simp) rfl)
      ⟨hlegal, hdesc', by simp [hrun], by simp [hpxi, BitVec.le_def], by simp [hpos], halpha, hlen⟩
  · refine ⟨hfile, hpix, Regs.errAgrees_of_st herr (by simp [hs]) (by simp) rfl, ?_, ?_,
      fun _ => ⟨hbody hs, hn⟩⟩ <;> simp
  · obtain ⟨_, _, hrun, _, hpos, _⟩ := hbody hs
    exact Dec.inv_after hinv hs (continueRun_effect s) hn hpos (by bv_omega) (fun hc ha => (ha hc).1)
      (Memory.wf_writeBytes _ _ _)
  · exact Dec.inv_after hinv hs heff hn hfits hrun hp hw
  · exact Dec.inv_of_ended rfl hfile hpix (Regs.errAgrees_of_st herr (by simp [hs]) (by simp) rfl)

/-- A move of the host keeps the decoder's invariant. -/
theorem hostMove_dec_inv (m : HostMove) {s : State} (h : s.dec.inv) : (hostMove m s).dec.inv := by
  obtain ⟨hfile, hpix, herr, _⟩ := id h
  rcases hostMove_dec_cases m s with he | ⟨_, he⟩ | ⟨d, _, hc, he⟩ | ⟨o, bs, _, _, _, he⟩
  · rwa [he]
  · rw [he]
    exact Dec.reset_inv
  · rw [he]
    exact Dec.inv_of_ended hc hfile hpix herr
  · rw [he]
    refine ⟨Memory.wf_ofBytes bs, Memory.wf_nil, by simp [Regs.errAgrees],
      fun _ => ⟨Regs.fresh_start _, rfl, by simp⟩, ?_, ?_⟩ <;> simp

/-! ### The encoder -/

/-- Outside a call the invariant asks for canonical memories and for `ERR` alone. -/
theorem Enc.inv_of_ended {e : Enc} (hs : e.regs.st.inCall = false) (hp : e.pixIn.mem.wf = true)
    (hb : e.byteOut.wf = true) (he : e.regs.errAgrees) : e.inv := by
  refine ⟨hp, hb, he, fun h => ?_, fun h => ?_, fun h => ?_⟩ <;> simp [h, Status.inCall] at hs

theorem Enc.inv_of_body {e : Enc} (hs : e.regs.st = .body) (hp : e.pixIn.mem.wf = true)
    (hb : e.byteOut.wf = true) (he : e.regs.errAgrees) (hscan : e.scanning) (hsize : e.sizeBounds) : e.inv := by
  simp [Enc.inv, hs, hp, hb, he, hscan, hsize]

/-- How many records are owed for the open run: the flush it will take. -/
theorem length_flushBytes (run : BitVec 6) : (flushBytes run).length = if run = 0 then 0 else 1 := by
  unfold flushBytes
  split <;> rfl

/-- A run of at most 62 pixels is owed a RUN record. -/
theorem run_le_length_flushBytes {run : BitVec 6} (h : run.toNat ≤ 62) :
    run.toNat ≤ 62 * (flushBytes run).length := by
  rw [length_flushBytes]
  split
  next hr => simp [hr]
  next => exact h

/-- The size bounds over `k` pixels that emit `n` bytes, the flush of each open run counted as owed (R70). -/
theorem Enc.sizeBounds_after {e e' : Enc} {k n : Nat} (h : e.sizeBounds) (hcfg : e'.regs.cfg = e.regs.cfg)
    (hpxi : e'.regs.pxi.toNat = e.regs.pxi.toNat + k) (hlen : e'.outLen = e.outLen + n)
    (hmost : n + (flushBytes e'.regs.run).length
      ≤ (flushBytes e.regs.run).length + k * (e.regs.cfg.c.toNat + 1))
    (hleast : e.regs.run.toNat + k ≤ 62 * n + e'.regs.run.toNat) : e'.sizeBounds := by
  unfold Enc.sizeBounds at *
  rw [← length_flushBytes] at *
  obtain ⟨hhead, hupper, hlower⟩ := h
  rw [hcfg, hpxi, hlen, Nat.add_mul]
  omega

/-- What a record of the chain costs: one byte at least, and in a legal call at most `C + 1` (R63, R64, R70). -/
theorem size_selectRecord (p : Pixel) {r : Regs} (h : r.cfg.legal) :
    (selectRecord p r).size ≤ r.cfg.c.toNat + 1 := by
  obtain ⟨hc, _⟩ := h
  have hc3 : 3 ≤ r.cfg.c.toNat := by rcases hc with hc | hc <;> simp [hc]
  unfold selectRecord
  split
  next => simp only [Instr.size]; omega
  next =>
    split
    next => simp only [Instr.size]; omega
    next =>
      split
      next => simp only [Instr.size]; omega
      next =>
        split
        next => simp only [Instr.size]; omega
        next hn => simp [Instr.size, hc.resolve_left hn]

theorem length_encode (i : Instr) : (encode i).length = i.size := by
  cases i <;> rfl

/-- A pixel consumed leaves the encoder scanning (R17, R51, R117). -/
theorem Enc.scanning_after {s t : State} {p : Pixel} {bs : List Byte} {run : BitVec 6} {updates : Bool}
    (h : s.enc.scanning) (heff : encEffect s t p bs run updates) (hpix : s.enc.pixel = some p)
    (hit : updates = false → s.enc.regs.cache[pixelHash p] = p) (hrun : run.toNat ≤ 62)
    (hrunPxi : run.toNat ≤ s.enc.regs.pxi.toNat + 1) :
    t.enc.regs.pxi.toNat = s.enc.regs.pxi.toNat + 1 ∧ t.enc.scanning := by
  obtain ⟨hlegal, hcounted, hwhole, _, _, _, _, halpha⟩ := h
  obtain ⟨_, _, _, hprev, hcache, hrun', hpxi, ⟨hcfg, _, _⟩, hpixIn, hstreamed, _⟩ := heff
  obtain ⟨hlt, hp⟩ := Enc.pixel_some hpix
  have hnext : t.enc.regs.pxi.toNat = s.enc.regs.pxi.toNat + 1 := by
    rw [hpxi, toNat_add_one_of_lt (hlt.trans_le hcounted.1)]
  refine ⟨hnext, by rwa [hcfg], ?_, by rwa [hstreamed, hpixIn, hcfg], by rwa [hrun'], by rwa [hrun', hnext],
    by rw [hnext, hpixIn]; exact hlt, Regs.lockStep_after hprev hcache hit,
    Regs.alphaFixed_after halpha hcfg hprev hcache hp⟩
  unfold Enc.counted
  rw [hpixIn, hcfg]
  exact hcounted

/-- A pixel consumed keeps the invariant when its bytes keep the size bounds. -/
theorem Enc.inv_after {s t : State} {p : Pixel} {bs : List Byte} {run : BitVec 6} {updates : Bool}
    (h : s.enc.inv) (hs : s.enc.regs.st = .body) (heff : encEffect s t p bs run updates)
    (hpix : s.enc.pixel = some p) (hit : updates = false → s.enc.regs.cache[pixelHash p] = p)
    (hw : s.enc.byteOut.wf = true → t.enc.byteOut.wf = true) (hrun : run.toNat ≤ 62)
    (hrunPxi : run.toNat ≤ s.enc.regs.pxi.toNat + 1)
    (hmost : bs.length + (flushBytes run).length
      ≤ (flushBytes s.enc.regs.run).length + (s.enc.regs.cfg.c.toNat + 1))
    (hleast : s.enc.regs.run.toNat + 1 ≤ 62 * bs.length + run.toNat) : t.enc.inv := by
  obtain ⟨hmem, hout, herr, _, hbody, _⟩ := h
  obtain ⟨hscan, hsize⟩ := hbody hs
  obtain ⟨hnext, hscan'⟩ := Enc.scanning_after hscan heff hpix hit hrun hrunPxi
  obtain ⟨_, _, _, _, _, hrun', _, hsame, hpixIn, _, hlen, _⟩ := heff
  obtain ⟨hcfg, hst, _⟩ := id hsame
  exact Enc.inv_of_body (hst.trans hs) (by rwa [hpixIn]) (hw hout) (Regs.errAgrees_of_sameControl herr hsame)
    hscan' (Enc.sizeBounds_after (k := 1) hsize hcfg hnext hlen (by rwa [hrun', Nat.one_mul]) (by rwa [hrun']))

/-- The checks passed, the scan begins (R88, R90). -/
theorem Enc.inv_of_header_written {e : Enc} (h : e.inv) (hs : e.regs.st = .header) (hlegal : e.regs.cfg.legal)
    (hgrid : e.streamed = false → e.gridFits = true) (w hh : Word) (c cs : Byte) :
    (({ e with regs := { e.regs with st := .body } } : Enc).emit (encode (.header w hh c cs))).inv := by
  obtain ⟨hmem, hout, herr, hheader, _, _⟩ := h
  obtain ⟨hfresh, hlen, hstream⟩ := hheader hs
  have hwhole : e.streamed = false → e.counted ∧ e.pixIn.chans.length = e.regs.cfg.n.toNat := by
    intro hf
    have hfits := hgrid hf
    simp only [Enc.gridFits, Bool.and_eq_true, decide_eq_true_eq, List.all_eq_true] at hfits
    exact ⟨⟨hfits.1.le, hfits.2⟩, hfits.1⟩
  have hcounted : e.counted := by
    cases hb : e.streamed with
    | false => exact (hwhole hb).1
    | true => exact hstream hb hlegal
  have hlock := Regs.lockStep_of_fresh hfresh
  have halpha := Regs.alphaFixed_of_fresh hfresh
  obtain ⟨_, _, hrun, hpxi⟩ := hfresh
  refine Enc.inv_of_body rfl hmem (Memory.wf_writeBytes _ _ _ hout)
    (Regs.errAgrees_of_st herr (by simp [hs]) (by simp) rfl)
    ⟨hlegal, hcounted, fun hf => (hwhole hf).2, ?_, ?_, ?_, hlock, halpha⟩ ?_
  · simp [hrun]
  · simp [hrun]
  · simp [hpxi]
  · simp [Enc.sizeBounds, hlen, hrun, hpxi, length_encode, Instr.size]

/-- The end of scan keeps the invariant (R65): the flush pays what the open run owed. -/
theorem Enc.inv_of_scan_ended {s t : State} (h : s.enc.inv) (hs : s.enc.regs.st = .body)
    (hn : s.enc.regs.pxi = s.enc.regs.cfg.n) (hwrites : encWrites s t (flushBytes s.enc.regs.run) 0 .trailer)
    (hw : s.enc.byteOut.wf = true → t.enc.byteOut.wf = true) : t.enc.inv := by
  obtain ⟨hmem, hout, herr, _, hbody, _⟩ := h
  obtain ⟨⟨hlegal, hcounted, hwhole, hrun, _, hpxi, hlock, halpha⟩, hsize⟩ := hbody hs
  obtain ⟨_, _, _, hregs, hpixIn, hstreamed, hlen, _⟩ := hwrites
  have hsize' : t.enc.sizeBounds :=
    Enc.sizeBounds_after (k := 0) hsize (by rw [hregs]) (by rw [hregs]; rfl) hlen (by simp [hregs, flushBytes])
      (by simpa [hregs] using run_le_length_flushBytes hrun)
  have hscan : t.enc.scanning := by
    unfold Enc.scanning Enc.counted
    rw [hregs, hpixIn, hstreamed]
    exact ⟨hlegal, hcounted, hwhole, by simp, by simp, hpxi, hlock, halpha⟩
  refine ⟨by rwa [hpixIn], hw hout, ?_, ?_, ?_, fun _ => ⟨hscan, hsize', by rw [hregs], by rw [hregs]; exact hn⟩⟩
  · exact Regs.errAgrees_of_st herr (by simp [hs]) (by simp [hregs]) (by rw [hregs])
  · simp [hregs]
  · simp [hregs]

/-- A pixel that joins the run emits nothing and is held back (R57). -/
theorem Enc.inv_of_absorbed {s t : State} (h : s.enc.inv) (hs : s.enc.regs.st = .body)
    (hr : s.enc.regs.run ≠ 62) (heff : encEffect s t s.enc.regs.prev [] (s.enc.regs.run + 1) false)
    (hpix : s.enc.pixel = some s.enc.regs.prev) (hw : s.enc.byteOut.wf = true → t.enc.byteOut.wf = true) :
    t.enc.inv := by
  obtain ⟨_, _, _, _, hbody, _⟩ := id h
  obtain ⟨⟨_, _, _, hrun, hrunPxi, _, hlock, _⟩, _⟩ := hbody hs
  have hnext : (s.enc.regs.run + 1).toNat = s.enc.regs.run.toNat + 1 := by bv_omega
  refine Enc.inv_after h hs heff hpix (fun _ => hlock) hw (by bv_omega) (by omega) ?_ ?_
  · rw [length_flushBytes (s.enc.regs.run + 1), List.length_nil]
    split <;> omega
  · rw [hnext, List.length_nil]
    omega

/-- A full run is flushed, and the pixel opens the next one (R57, R58 (b)). -/
theorem Enc.inv_of_run_restarted {s t : State} (h : s.enc.inv) (hs : s.enc.regs.st = .body)
    (hr : s.enc.regs.run = 62) (heff : encEffect s t s.enc.regs.prev [0xFD] 1 false)
    (hpix : s.enc.pixel = some s.enc.regs.prev) (hw : s.enc.byteOut.wf = true → t.enc.byteOut.wf = true) :
    t.enc.inv := by
  obtain ⟨_, _, _, _, hbody, _⟩ := id h
  obtain ⟨⟨_, _, _, _, _, _, hlock, _⟩, _⟩ := hbody hs
  refine Enc.inv_after h hs heff hpix (fun _ => hlock) hw (by decide) (Nat.le_add_left _ _) ?_ ?_
  · rw [hr]
    exact Nat.add_le_add le_rfl (Nat.le_add_left _ _)
  · rw [hr]
    decide

/-- The selected record, with the flush before it, pays for the open run and for its own pixel (R56, R70). -/
theorem Enc.inv_of_record {s t : State} {p : Pixel} {updates : Bool} (h : s.enc.inv)
    (hs : s.enc.regs.st = .body)
    (heff : encEffect s t p (flushBytes s.enc.regs.run ++ encode (selectRecord p s.enc.regs)) 0 updates)
    (hpix : s.enc.pixel = some p) (hit : updates = false → s.enc.regs.cache[pixelHash p] = p)
    (hw : s.enc.byteOut.wf = true → t.enc.byteOut.wf = true) : t.enc.inv := by
  obtain ⟨_, _, _, _, hbody, _⟩ := id h
  obtain ⟨⟨hlegal, _, _, hrun, _⟩, _⟩ := hbody hs
  have hpaid := run_le_length_flushBytes hrun
  have hpos := (selectRecord p s.enc.regs).size_pos
  have hsize := size_selectRecord p hlegal
  refine Enc.inv_after h hs heff hpix hit hw (by decide) (Nat.zero_le _) ?_ ?_
  · rw [List.length_append, length_encode, length_flushBytes 0, if_pos rfl]
    omega
  · rw [List.length_append, length_encode]
    omega

/-- A step of the encoder keeps its invariant. -/
theorem encStep_inv {s t : State} (he : s.active = .enc) (h : encStep s = .next t) (hinv : s.enc.inv) :
    t.enc.inv := by
  obtain ⟨hmem, hout, herr, _⟩ := id hinv
  rcases encStep_cases he h with ⟨_, rfl⟩ | ⟨k, _, _, rfl⟩ | ⟨hs, hlegal, hgrid, rfl⟩ | ⟨hs, hn, hwrites, hw⟩
    | ⟨_, _, _, rfl⟩ | ⟨hs, _, hpix, hjoin, _, hw⟩ | ⟨p, upd, hs, _, hpix, _, heff, hupd, hw⟩ | ⟨hs, rfl⟩
  · exact hinv
  · rw [raise_enc k s he]
    exact Enc.inv_of_ended rfl hmem hout (Regs.errAgrees_raise k _)
  · exact Enc.inv_of_header_written hinv hs hlegal hgrid _ _ _ _
  · exact Enc.inv_of_scan_ended hinv hs hn hwrites hw
  · exact hinv
  · rcases hjoin with ⟨hr, heff⟩ | ⟨hr, heff⟩
    · exact Enc.inv_of_absorbed hinv hs hr heff hpix hw
    · exact Enc.inv_of_run_restarted hinv hs hr heff hpix hw
  · exact Enc.inv_of_record hinv hs heff hpix hupd.1 hw
  · exact Enc.inv_of_ended rfl hmem (Memory.wf_writeBytes _ _ _ hout)
      (Regs.errAgrees_of_st herr (by simp [hs]) (by simp) rfl)

/-- A pixel crosses the port in as many bytes as a legal call has channels (R29). -/
theorem length_channelBytes {d : Cfg} (h : d.legal) (p : Pixel) : (channelBytes d.c p).length = d.c.toNat := by
  obtain ⟨hc | hc, _⟩ := h <;> simp [channelBytes, hc]

/-- The pixel handed over is counted (R100, R117; log 10). -/
theorem Enc.counted_append {e : Enc} (h : e.counted) (hlegal : e.regs.cfg.legal)
    (hlt : e.pixIn.chans.length < e.regs.cfg.n.toNat) (p : Pixel) :
    ({ e with pixIn := e.pixIn.append (channelBytes e.regs.cfg.c p) } : Enc).counted := by
  obtain ⟨_, hchans⟩ := h
  refine ⟨by simpa using hlt, fun k hk => ?_⟩
  simp only [Grid.append_chans, List.mem_append, List.mem_singleton] at hk
  rcases hk with hk | rfl
  · exact hchans k hk
  · exact length_channelBytes hlegal p

theorem Enc.scanning_append {e : Enc} (h : e.scanning) (hs : e.streamed = true)
    (hlt : e.pixIn.chans.length < e.regs.cfg.n.toNat) (p : Pixel) :
    ({ e with pixIn := e.pixIn.append (channelBytes e.regs.cfg.c p) } : Enc).scanning := by
  obtain ⟨hlegal, hcounted, _, hrun, hrunPxi, hpxi, hlock, halpha⟩ := h
  refine ⟨hlegal, Enc.counted_append hcounted hlegal hlt p, by simp [hs], hrun, hrunPxi, ?_, hlock, halpha⟩
  simp only [Grid.append_chans, List.length_append]
  omega

/-- Handing over a pixel keeps the invariant (R117). -/
theorem Enc.deliver_inv {e : Enc} (h : e.inv) (p : Pixel) : (e.deliver p).inv := by
  by_cases htaken : e.regs.st.inCall = true ∧ e.streamed = true ∧ e.pixIn.chans.length < e.regs.cfg.n.toNat
  · obtain ⟨hc, hs, hlt⟩ := htaken
    obtain ⟨hmem, hout, herr, hheader, hbody, htrailer⟩ := h
    rw [Enc.deliver_of e p hc hs hlt]
    refine ⟨Grid.wf_append _ _ hmem, hout, herr, fun hst => ?_, fun hst => ?_, fun hst => ?_⟩
    · obtain ⟨hfresh, hlen, hcounted⟩ := hheader hst
      exact ⟨hfresh, hlen, fun _ hlegal => Enc.counted_append (hcounted hs hlegal) hlegal hlt p⟩
    · obtain ⟨hscan, hsize⟩ := hbody hst
      exact ⟨Enc.scanning_append hscan hs hlt p, hsize⟩
    · obtain ⟨hscan, hrest⟩ := htrailer hst
      exact ⟨Enc.scanning_append hscan hs hlt p, hrest⟩
  · simp only [not_and_or, Bool.not_eq_true, not_lt] at htaken
    rwa [Enc.deliver_ignored e p htaken]

/-- A move of the host keeps the encoder's invariant. -/
theorem hostMove_enc_inv (m : HostMove) {s : State} (h : s.enc.inv) : (hostMove m s).enc.inv := by
  obtain ⟨hmem, hout, herr, _⟩ := id h
  rcases hostMove_enc_cases m s with he | ⟨_, he⟩ | ⟨d, _, hc, he⟩ | ⟨o, g, hg, _, he⟩ | ⟨p, _, he⟩
  · rwa [he]
  · rw [he]
    exact Enc.reset_inv
  · rw [he]
    exact Enc.inv_of_ended hc hmem hout herr
  · rw [he]
    have hgrid : g.mem.wf = true ∧ (o = true → g.chans = []) := by
      rcases hg with ⟨_, _, rfl⟩ | ⟨ps, _, rfl, rfl⟩
      · exact ⟨Memory.wf_nil, fun _ => rfl⟩
      · exact ⟨Grid.wf_ofPixels ps, by simp⟩
    refine ⟨hgrid.1, Memory.wf_nil, by simp [Regs.errAgrees],
      fun _ => ⟨Regs.fresh_start _, rfl, fun ho _ => ?_⟩, ?_, ?_⟩
    · simp [Enc.counted, hgrid.2 ho]
    · simp
    · simp
  · rw [he]
    exact Enc.deliver_inv h p

/-- Settles O52: a step is a step of one engine, which leaves the other, or a move of the host. -/
theorem everyStepKeepsTheInvariant : Obligations.EveryStepKeepsTheInvariant := by
  unfold Obligations.EveryStepKeepsTheInvariant
  rintro s t ⟨henc, hdec⟩ h
  rcases step_cases h with ⟨s', he, hd, ha, hs, _⟩ | ⟨s', he, hd, ha, hs, _⟩ | ⟨m, later, _, rfl⟩
  · exact ⟨encStep_inv ha hs (he ▸ henc), by rw [(encStep_frame ha hs).1, hd]; exact hdec⟩
  · exact ⟨by rw [(decStep_frame ha hs).1, he]; exact henc, decStep_inv ha hs (hd ▸ hdec)⟩
  · exact ⟨hostMove_enc_inv m henc, hostMove_dec_inv m hdec⟩

end Sys2Proof.Machine
end

section
/-! SUPPORT. What `exec` of a record does to the encoder, and the step of a pixel as an equation per case of the
chain of R56. With these the encoder's record and step statements are settled. -/

namespace Sys2Proof.Machine

/-! ### `exec` in the encoder -/

/-- A record of the pixel at `PXI` has the effect of that pixel (R49, R56). -/
theorem recordPixel_effect {s : State} {p : Pixel} (i : Instr) (updates : Bool) (hp : s.enc.pixel = some p) :
    encEffect s { s with enc := s.enc.recordPixel i updates } p (encode i) s.enc.regs.run updates := by
  rw [recordPixel_some i updates hp]
  exact record_effect s i updates p

/-- Settles O15: each arm is the record of the pixel at `PXI`, and only INDEX leaves the cache. -/
theorem encoderRecordsComplete : Obligations.EncoderRecordsComplete := by
  unfold Obligations.EncoderRecordsComplete
  intro s p ha hp
  exact ⟨fun i => ⟨_, exec_index_enc i s ha, recordPixel_effect _ _ hp⟩,
    fun dr dg db => ⟨_, exec_diff_enc dr dg db s ha, recordPixel_effect _ _ hp⟩,
    fun dg drDg dbDg => ⟨_, exec_luma_enc dg drDg dbDg s ha, recordPixel_effect _ _ hp⟩,
    fun r g b => ⟨_, exec_rgb_enc r g b s ha, recordPixel_effect _ _ hp⟩,
    fun r g b a => ⟨_, exec_rgba_enc r g b a s ha, recordPixel_effect _ _ hp⟩⟩

/-- Settles O16: the flush writes its byte and `RUN`, and leaves `ST`. -/
theorem encoderRunFlushCompletes : Obligations.EncoderRunFlushCompletes := by
  unfold Obligations.EncoderRunFlushCompletes
  intro s n ha _ _
  exact ⟨_, exec_run_enc n s ha, emit_writes s _ 0 s.enc.regs.st⟩

/-! ### A pixel that joins the run -/

theorem encPixelStep_absorb {s : State} (hr : s.enc.regs.run ≠ 62) :
    encPixelStep s.enc.regs.prev s = .next { s with enc :=
      { s.enc with regs := (s.enc.regs.setRun (s.enc.regs.run + 1)).nextPixel } } := by
  have hmax : s.enc.regs.run.toNat ≠ Config.runMax := fun e => hr (BitVec.eq_of_toNat_eq e)
  rw [encPixelStep, if_pos rfl, if_neg hmax]
  rfl

theorem encPixelStep_restart {s : State} (ha : s.active = .enc) (hr : s.enc.regs.run = 62) :
    encPixelStep s.enc.regs.prev s = .next { s with enc :=
      ({ s.enc with regs := (s.enc.regs.setRun 1).nextPixel }).emit [0xFD] } := by
  rw [encPixelStep, if_pos rfl, if_pos (by rw [hr]; rfl), exec_run_enc _ _ ha, hr]
  rfl

/-- Settles O34: below 62 the pixel is absorbed; at 62 the full run is flushed first. -/
theorem equalPixelJoinsTheRun : Obligations.EqualPixelJoinsTheRun := by
  unfold Obligations.EqualPixelJoinsTheRun
  intro s p hready hp _
  subst hp
  obtain ⟨_, ha, _⟩ := id hready
  rw [step_encReady hready]
  refine ⟨fun hr => ⟨_, encPixelStep_absorb hr, rfl, rfl, rfl, rfl, cacheAfter_of_eq _ rfl, rfl, rfl,
    sameControl_refl _, rfl, rfl, rfl, stores_nil _ _⟩, fun hr => ⟨_, encPixelStep_restart ha hr, rfl, rfl, rfl,
    rfl, cacheAfter_of_eq _ rfl, rfl, rfl, sameControl_refl _, rfl, rfl, rfl, stores_writeBytes _ _ _⟩⟩

/-! ### A pixel that does not -/

/-- Away from its slot, a pixel's record by the ranges of R61 and R62 in plain arithmetic. -/
theorem selectRecord_of_miss {p : Pixel} {r : Regs} {dr dg db : Int} (hmiss : r.cache[pixelHash p] ≠ p)
    (hr : dr = (p.r.toNat : Int) - r.prev.r.toNat) (hg : dg = (p.g.toNat : Int) - r.prev.g.toNat)
    (hb : db = (p.b.toNat : Int) - r.prev.b.toNat) :
    selectRecord p r =
      if p.a = r.prev.a ∧ -2 ≤ dr ∧ dr ≤ 1 ∧ -2 ≤ dg ∧ dg ≤ 1 ∧ -2 ≤ db ∧ db ≤ 1 then .diff dr dg db
      else if p.a = r.prev.a ∧ -32 ≤ dg ∧ dg ≤ 31 ∧ -8 ≤ dr - dg ∧ dr - dg ≤ 7 ∧ -8 ≤ db - dg ∧ db - dg ≤ 7 then
        .luma dg (dr - dg) (db - dg)
      else if r.cfg.c = 3 then .rgb p.r p.g p.b
      else .rgba p.r p.g p.b p.a := by
  subst hr hg hb
  simp only [selectRecord, if_neg hmiss, inDiff_iff, inLumaDg_iff, inLumaRel_iff, delta_eq, and_assoc]

/-- A step on a pixel that differs from `PREV` flushes the open run and emits the selected record (R56). -/
theorem step_selects {s : State} {p : Pixel} (h : encReady s p) (hp : p ≠ s.enc.regs.prev) :
    ∃ t updates, step s = .next t
      ∧ encEffect s t p (flushBytes s.enc.regs.run ++ encode (selectRecord p s.enc.regs)) 0 updates
      ∧ (updates = false ↔ s.enc.regs.cache[pixelHash p] = p) := by
  obtain ⟨_, ha, _, _, hpix⟩ := id h
  obtain ⟨updates, hstep, hit⟩ := encPixelStep_select ha hpix hp
  exact ⟨_, updates, (step_encReady h).trans hstep, flush_record s p _ updates, hit⟩

/-- Away from its slot the pixel is written to the cache. -/
theorem step_selects_of_miss {s : State} {p : Pixel} {i : Instr} (h : encReady s p) (hp : p ≠ s.enc.regs.prev)
    (hmiss : s.enc.regs.cache[pixelHash p] ≠ p) (hi : selectRecord p s.enc.regs = i) :
    ∃ t, step s = .next t ∧ encEffect s t p (flushBytes s.enc.regs.run ++ encode i) 0 true := by
  obtain ⟨t, updates, hstep, heff, hit⟩ := step_selects h hp
  cases updates with
  | false => exact absurd (hit.1 rfl) hmiss
  | true => exact ⟨t, hstep, hi ▸ heff⟩

/-- Settles O35: the chain asks for the slot first. -/
theorem cachedPixelIsEmittedAsIndex : Obligations.CachedPixelIsEmittedAsIndex := by
  unfold Obligations.CachedPixelIsEmittedAsIndex
  intro s p h hp hit
  obtain ⟨t, updates, hstep, heff, hupd⟩ := step_selects h hp
  rw [selectRecord_of_hit hit, hupd.2 hit] at heff
  exact ⟨t, hstep, heff⟩

/-- Settles O36: the deltas meet the second condition of the chain. -/
theorem smallDeltasAreEmittedAsDiff : Obligations.SmallDeltasAreEmittedAsDiff := by
  unfold Obligations.SmallDeltasAreEmittedAsDiff
  intro s p dr dg db h hp hmiss ha hr hg hb r1 r2 g1 g2 b1 b2
  have hselect := selectRecord_of_miss hmiss hr hg hb
  rw [if_pos ⟨ha, r1, r2, g1, g2, b1, b2⟩] at hselect
  exact step_selects_of_miss h hp hmiss hselect

/-- Settles O37: the deltas miss the second condition of the chain and meet the third. -/
theorem lumaDeltasAreEmittedAsLuma : Obligations.LumaDeltasAreEmittedAsLuma := by
  unfold Obligations.LumaDeltasAreEmittedAsLuma
  intro s p dr dg db h hp hmiss ha hr hg hb hdiff g1 g2 r1 r2 b1 b2
  have hselect := selectRecord_of_miss hmiss hr hg hb
  rw [if_neg fun e => hdiff e.2, if_pos ⟨ha, g1, g2, r1, r2, b1, b2⟩] at hselect
  exact step_selects_of_miss h hp hmiss hselect

/-- Settles O38: what the chain leaves is the literal of the call's channel count. -/
theorem otherPixelsAreEmittedAsLiterals : Obligations.OtherPixelsAreEmittedAsLiterals := by
  unfold Obligations.OtherPixelsAreEmittedAsLiterals
  intro s p dr dg db h hp hmiss hr hg hb hdiff hluma
  have hselect := selectRecord_of_miss hmiss hr hg hb
  rw [if_neg hdiff, if_neg hluma] at hselect
  constructor <;> intro hc
  · rw [if_pos hc] at hselect
    exact step_selects_of_miss h hp hmiss hselect
  · rw [if_neg (by rw [hc]; decide)] at hselect
    exact step_selects_of_miss h hp hmiss hselect

/-! ### The end of the scan and of the call -/

/-- Settles O39: the step at `PXI = N` is the end of the scan. -/
theorem endOfScanFlushesTheRun : Obligations.EndOfScanFlushesTheRun := by
  unfold Obligations.EndOfScanFlushesTheRun
  intro s hag ha hs hn
  obtain ⟨t, hstep, hwrites, _⟩ := endOfScan_writes ha
  refine ⟨t, ?_, hwrites⟩
  rw [step_enc s hag ha (by rw [hs]; rfl), ← hstep]
  simp only [encStep, hs, if_pos hn]

/-- In TRAILER the step writes the trailer (R89). -/
theorem step_enc_trailer {s : State} (hag : s.agenda = []) (ha : s.active = .enc)
    (hs : s.enc.regs.st = .trailer) :
    step s = .next { s with enc :=
      ({ s.enc with regs := { s.enc.regs with st := .done } }).emit trailerImage } := by
  rw [step_enc s hag ha (by rw [hs]; rfl)]
  simp only [encStep, hs]
  exact exec_trailer_enc s ha

/-- Settles O53: the invariant carries the bounds of the scan, and the trailer adds its 8 bytes to the 14 of the
header. -/
theorem finishedFileHasTheSizeBounds : Obligations.FinishedFileHasTheSizeBounds := by
  unfold Obligations.FinishedFileHasTheSizeBounds
  rintro s ⟨⟨_, _, _, _, _, htrailer⟩, _⟩ hag ha hs
  obtain ⟨_, ⟨hhead, hmost, hleast⟩, hrun, hpxi⟩ := htrailer hs
  rw [hrun, hpxi] at hleast
  rw [hpxi] at hmost
  refine ⟨_, s.enc.outLen - 14, step_enc_trailer hag ha hs, rfl, ?_, hleast, le_of_add_le_left hmost⟩
  rw [Enc.emit_outLen]
  have : trailerImage.length = 8 := rfl
  simp only [this]
  omega

end Sys2Proof.Machine
end

section
/-! SUPPORT. A step in BODY under another descriptor of the same channel count and the same `N` (R21, R66, R85).
With it ShapeAndColorspaceDoNotReachTheBody is settled. -/

namespace Sys2Proof.Machine

/-- The state with another descriptor in the encoder. -/
def State.setEncCfg (s : State) (d : Cfg) : State :=
  { s with enc := { s.enc with regs := s.enc.regs.setCfg d } }

/-- The state with another descriptor in the decoder. -/
def State.setDecCfg (s : State) (d : Cfg) : State :=
  { s with dec := { s.dec with regs := s.dec.regs.setCfg d } }

/-! ### The encoder -/

theorem Enc.pixel_setCfg (e : Enc) {d : Cfg} (hc : d.c = e.regs.cfg.c) :
    ({ e with regs := e.regs.setCfg d } : Enc).pixel = e.pixel := by
  simp [Enc.pixel, hc]

/-- Of the descriptor the chain asks for the channel count alone. -/
theorem selectRecord_setCfg (p : Pixel) {r : Regs} {d : Cfg} (hc : d.c = r.cfg.c) :
    selectRecord p (r.setCfg d) = selectRecord p r := by
  simp [selectRecord, hc]

theorem endOfScan_setEncCfg {s t : State} (d : Cfg) (ha : s.active = .enc) (h : endOfScan s = .next t) :
    endOfScan (s.setEncCfg d) = .next (t.setEncCfg d) := by
  have ha' : (s.setEncCfg d).active = .enc := ha
  have hrun : (s.setEncCfg d).enc.regs.run = s.enc.regs.run := rfl
  unfold endOfScan at *
  rw [hrun]
  by_cases hr : s.enc.regs.run = 0
  · rw [if_neg (not_not.2 hr)] at *
    cases h
    rfl
  · rw [if_pos hr] at *
    rw [exec_run_enc _ _ ha] at h
    rw [exec_run_enc _ _ ha']
    cases h
    rfl

theorem encPixelStep_setEncCfg {s t : State} {p : Pixel} {d : Cfg} (ha : s.active = .enc)
    (hpix : s.enc.pixel = some p) (hc : d.c = s.enc.regs.cfg.c) (h : encPixelStep p s = .next t) :
    encPixelStep p (s.setEncCfg d) = .next (t.setEncCfg d) := by
  have ha' : (s.setEncCfg d).active = .enc := ha
  by_cases hp : p = s.enc.regs.prev
  · subst hp
    by_cases hr : s.enc.regs.run = 62
    · cases (encPixelStep_restart ha hr).symm.trans h
      exact encPixelStep_restart ha' hr
    · cases (encPixelStep_absorb hr).symm.trans h
      exact encPixelStep_absorb (s := s.setEncCfg d) hr
  · have hpix' : (s.setEncCfg d).enc.pixel = some p := (Enc.pixel_setCfg s.enc hc).trans hpix
    obtain ⟨u, hstep, hu⟩ := encPixelStep_select ha hpix hp
    obtain ⟨u', hstep', hu'⟩ := encPixelStep_select ha' hpix' hp
    have huu : u' = u := Bool.eq_iff_iff.2 (by simpa using not_congr (hu'.trans hu.symm))
    cases hstep.symm.trans h
    rw [hstep', huu, State.setEncCfg, selectRecord_setCfg p hc]
    cases u <;> rfl

theorem encStep_setEncCfg {s t : State} {d : Cfg} (ha : s.active = .enc) (hs : s.enc.regs.st = .body)
    (hc : d.c = s.enc.regs.cfg.c) (hn : d.n = s.enc.regs.cfg.n) (h : encStep s = .next t) :
    encStep (s.setEncCfg d) = .next (t.setEncCfg d) := by
  have hs' : (s.setEncCfg d).enc.regs.st = .body := hs
  have hcfg' : (s.setEncCfg d).enc.regs.cfg.n = s.enc.regs.cfg.n := hn
  have hpix' : (s.setEncCfg d).enc.pixel = s.enc.pixel := Enc.pixel_setCfg s.enc hc
  have hpxi' : (s.setEncCfg d).enc.regs.pxi = s.enc.regs.pxi := rfl
  simp only [encStep, hs] at h
  simp only [encStep, hs', hcfg', hpix', hpxi']
  by_cases hend : s.enc.regs.pxi = s.enc.regs.cfg.n
  · rw [if_pos hend] at *
    exact endOfScan_setEncCfg d ha h
  · rw [if_neg hend] at *
    cases hpix : s.enc.pixel with
    | none =>
      rw [hpix] at h
      cases h
      rfl
    | some p =>
      rw [hpix] at h
      exact encPixelStep_setEncCfg ha hpix hc h

/-! ### The decoder -/

/-- Taking an error leaves the descriptor (R106). -/
theorem raise_setDecCfg (k : ErrKind) {s : State} (d : Cfg) (ha : s.active = .dec) :
    (s.setDecCfg d).raise k = (s.raise k).setDecCfg d := by
  rw [raise_dec k s ha, raise_dec k (s.setDecCfg d) ha]
  rfl

/-- A record uses the channel count alone: for the literals and for the cell it produces (R73, R82). -/
theorem exec_record_setDecCfg {i : Instr} {s t : State} {d : Cfg} (hi : i.isRecord = true) (ha : s.active = .dec)
    (hc : d.c = s.dec.regs.cfg.c) (h : exec i s = .next t) :
    exec i (s.setDecCfg d) = .next (t.setDecCfg d) := by
  have ha' : (s.setDecCfg d).active = .dec := ha
  obtain ⟨w, hh, c, cs⟩ := d
  subst hc
  cases i with
  | index i =>
    cases (exec_index_dec i s ha).symm.trans h
    exact exec_index_dec i _ ha'
  | diff dr dg db =>
    cases (exec_diff_dec dr dg db s ha).symm.trans h
    exact exec_diff_dec dr dg db _ ha'
  | luma dg drDg dbDg =>
    cases (exec_luma_dec dg drDg dbDg s ha).symm.trans h
    exact exec_luma_dec dg drDg dbDg _ ha'
  | run n =>
    cases (exec_run_dec n s ha).symm.trans h
    exact exec_run_dec n _ ha'
  | rgb r g b =>
    by_cases h3 : s.dec.regs.cfg.c = 3
    · cases (exec_rgb_dec r g b s ha h3).symm.trans h
      exact exec_rgb_dec r g b _ ha' h3
    · cases (exec_rgb_dec_mismatch r g b s ha h3).symm.trans h
      rw [exec_rgb_dec_mismatch r g b _ ha' h3, raise_setDecCfg _ _ ha]
  | rgba r g b a =>
    by_cases h4 : s.dec.regs.cfg.c = 4
    · cases (exec_rgba_dec r g b a s ha h4).symm.trans h
      exact exec_rgba_dec r g b a _ ha' h4
    · cases (exec_rgba_dec_mismatch r g b a s ha h4).symm.trans h
      rw [exec_rgba_dec_mismatch r g b a _ ha' h4, raise_setDecCfg _ _ ha]
  | header w h c cs => cases hi
  | trailer => cases hi

/-- What a decoder finds in the body does not depend on the descriptor. -/
theorem execOrRaise_setDecCfg {s t : State} {d : Cfg} (ha : s.active = .dec) (hc : d.c = s.dec.regs.cfg.c)
    (h : execOrRaise s.dec.nextRecord s = .next t) :
    execOrRaise (s.setDecCfg d).dec.nextRecord (s.setDecCfg d) = .next (t.setDecCfg d) := by
  have hfetch : (s.setDecCfg d).dec.fetchRecord = s.dec.fetchRecord := rfl
  unfold Dec.nextRecord at *
  rw [hfetch]
  cases hx : decodeRecord s.dec.fetchRecord with
  | error e =>
    rw [hx] at h
    cases h
    have hcfg : (s.setDecCfg d).dec.regs.cfg.c = s.dec.regs.cfg.c := hc
    simp only [execOrRaise]
    rw [hcfg, raise_setDecCfg _ d ha]
  | ok x =>
    rw [hx] at h
    exact exec_record_setDecCfg (decodeRecord_ok hx).1 ha hc h

theorem decStep_setDecCfg {s t : State} {d : Cfg} (ha : s.active = .dec) (hs : s.dec.regs.st = .body)
    (hc : d.c = s.dec.regs.cfg.c) (hn : d.n = s.dec.regs.cfg.n) (h : decStep s = .next t) :
    decStep (s.setDecCfg d) = .next (t.setDecCfg d) := by
  have hs' : (s.setDecCfg d).dec.regs.st = .body := hs
  have hcfg' : (s.setDecCfg d).dec.regs.cfg.n = s.dec.regs.cfg.n := hn
  have hpxi' : (s.setDecCfg d).dec.regs.pxi = s.dec.regs.pxi := rfl
  have hrun' : (s.setDecCfg d).dec.regs.run = s.dec.regs.run := rfl
  simp only [decStep, hs, decBodyStep] at h
  simp only [decStep, hs', decBodyStep, hcfg', hpxi', hrun']
  by_cases hend : s.dec.regs.pxi = s.dec.regs.cfg.n
  · rw [if_pos hend] at *
    cases h
    rfl
  · rw [if_neg hend] at *
    by_cases hr : s.dec.regs.run = 0
    · rw [if_neg (not_not.2 hr)] at *
      exact execOrRaise_setDecCfg ha hc h
    · rw [if_pos hr] at *
      cases h
      obtain ⟨w, hh, c, cs⟩ := d
      subst hc
      rfl

/-- Settles O55: each engine's step in BODY commutes with the change of descriptor. -/
theorem shapeAndColorspaceDoNotReachTheBody : Obligations.ShapeAndColorspaceDoNotReachTheBody := by
  unfold Obligations.ShapeAndColorspaceDoNotReachTheBody
  intro s t d hag h
  refine ⟨fun ha hs hc hn => ?_, fun ha hs hc hn => ?_⟩
  · have hcall : s.enc.regs.st.inCall = true := by rw [hs]; rfl
    rw [step_enc s hag ha hcall] at h
    exact (step_enc (s.setEncCfg d) hag ha hcall).trans (encStep_setEncCfg ha hs hc hn h)
  · have hcall : s.dec.regs.st.inCall = true := by rw [hs]; rfl
    rw [step_dec s hag ha hcall] at h
    exact (step_dec (s.setDecCfg d) hag ha hcall).trans (decStep_setDecCfg ha hs hc hn h)

end Sys2Proof.Machine
end

section
/-! SUPPORT. Rows of bytes read back: a whole row, a part of one, and the cells of a grid (log 5). Then what is left
of a body at `POS`, and the record found there (R41, R74). -/

namespace Sys2Proof.Machine

/-! ### Rows of bytes -/

theorem readBytes_of_stores {m m' : Memory} {a : Nat} {bs : List Byte} (h : stores m m' a bs) :
    m'.readBytes a bs.length = bs := by
  rw [Memory.readBytes_eq_iff]
  intro i hi
  rw [h, if_pos (by omega), Nat.add_sub_cancel_left]

/-- A row read up to `n` bytes begins with the row up to `k`. -/
theorem Memory.take_readBytes (m : Memory) (a : Nat) {k n : Nat} (h : k ≤ n) :
    (m.readBytes a n).take k = m.readBytes a k := by
  obtain ⟨j, rfl⟩ := Nat.exists_eq_add_of_le h
  rw [Memory.readBytes_append]
  exact List.take_left' (Memory.length_readBytes m a k)

/-- The two parts of a row of bytes stand one behind the other. -/
theorem Memory.readBytes_parts {m : Memory} {a : Nat} {bs cs : List Byte}
    (h : m.readBytes a (bs ++ cs).length = bs ++ cs) :
    m.readBytes a bs.length = bs ∧ m.readBytes (a + bs.length) cs.length = cs := by
  rw [List.length_append, Memory.readBytes_append] at h
  exact List.append_inj h (Memory.length_readBytes m a bs.length)

/-- A part of the bytes of a space stands where the bytes before it end. -/
theorem Memory.readBytes_ofBytes_part (xs ys zs : List Byte) :
    (Memory.ofBytes (xs ++ ys ++ zs)).readBytes xs.length ys.length = ys := by
  have hall := (Memory.readBytes_parts (Memory.readBytes_writeBytes [] 0 (xs ++ ys ++ zs))).1
  simpa [Memory.ofBytes] using (Memory.readBytes_parts hall).2

/-! ### Cells -/

/-- The `c` channels of pixel `k` in a Grid space (R27, R29; log 5). -/
def Memory.cell (m : Memory) (c : Byte) (k : Nat) : List Byte := m.readBytes (pixelAddr k) c.toNat

/-- Storing one pixel shows it in its cell. -/
theorem cell_of_stores {m m' : Memory} {d : Cfg} {k : Nat} {p : Pixel} (hlegal : d.legal)
    (h : stores m m' (pixelAddr k) (channelBytes d.c p)) : m'.cell d.c k = channelBytes d.c p := by
  unfold Memory.cell
  rw [← length_channelBytes hlegal p]
  exact readBytes_of_stores h

theorem Cfg.legal.channels_le {d : Cfg} (h : d.legal) : d.c.toNat ≤ 4 := by
  obtain ⟨hc | hc, _⟩ := h <;> simp [hc]

/-- Storing one pixel leaves the cells before it. -/
theorem cell_of_stores_below {m m' : Memory} {d : Cfg} {j k : Nat} {bs : List Byte} (hlegal : d.legal)
    (h : stores m m' (pixelAddr k) bs) (hj : j < k) : m'.cell d.c j = m.cell d.c j := by
  have hc := hlegal.channels_le
  refine Memory.readBytes_congr _ _ _ _ fun x _ hx => ?_
  rw [h, if_neg]
  unfold pixelAddr at *
  omega

/-- The pixel at `PXI` is what `pix_in` holds in that cell (R54). -/
theorem Enc.cell_pixel {e : Enc} {p : Pixel} (hlegal : e.regs.cfg.legal) (h : e.pixel = some p) :
    e.pixIn.mem.cell e.regs.cfg.c e.regs.pxi.toNat = channelBytes e.regs.cfg.c p := by
  simp only [Enc.pixel] at h
  split at h
  next =>
    cases h
    obtain ⟨hc | hc, _⟩ := hlegal <;>
      simp [Memory.cell, Memory.readBytes, channelBytes, canonical, hc, Nat.add_assoc]
  next => cases h

theorem cell_ofPixels {c : Byte} {ps : List (List Byte)} {j : Nat} (hc : c.toNat ≤ 4)
    (hlen : ∀ p ∈ ps, p.length = c.toNat) (hj : j < ps.length) : (Grid.ofPixels ps).mem.cell c j = ps[j] := by
  have hp := hlen ps[j] (List.getElem_mem hj)
  have hread := Memory.readBytes_writePixels [] 0 j ps ps[j] (List.getElem?_eq_getElem hj) (by omega)
  rwa [hp, Nat.zero_add] at hread

/-- The cells of a space, read in a row. -/
theorem readPixels_eq_of_cells {m : Memory} {c : Byte} {ps : List (List Byte)} {k : Nat}
    (h : ∀ j (hj : j < ps.length), m.cell c (k + j) = ps[j]) : m.readPixels c.toNat k ps.length = ps := by
  induction ps generalizing k with
  | nil => rfl
  | cons p ps ih =>
    have hfirst : m.readBytes (pixelAddr k) c.toNat = p := h 0 (Nat.succ_pos _)
    rw [List.length_cons, Memory.readPixels, hfirst, ih fun j hj => ?_]
    have hnext := h (j + 1) (Nat.succ_lt_succ hj)
    rwa [show k + (j + 1) = k + 1 + j by omega] at hnext

/-! ### What is left of the body -/

/-- The bytes of the body from `POS` to its end (R18, R27). -/
def Dec.bodyLeft (d : Dec) (bs : List Byte) : Prop :=
  d.pos.toNat + bs.length = d.bodyLen ∧ d.fileIn.readBytes d.fetchAddr bs.length = bs

theorem fetchRecord_of_bodyLeft {d : Dec} {bs : List Byte} (h : d.bodyLeft bs) : d.fetchRecord = bs.take 5 := by
  obtain ⟨hlen, hread⟩ := h
  have hleft : d.bodyLen - d.pos.toNat = bs.length := by omega
  unfold Dec.fetchRecord
  rw [hleft, ← Memory.take_readBytes _ _ (Nat.min_le_right 5 bs.length), hread, List.take_eq_take_iff]
  omega

/-- The longest record is RGBA (R38). -/
theorem size_le_of_isRecord {i : Instr} (h : i.isRecord = true) : i.size ≤ 5 := by
  cases i <;> simp_all [Instr.size, Instr.isRecord]

/-- The record that stands at `POS` is found there. -/
theorem decodeRecord_of_bodyLeft {d : Dec} {i : Instr} {bs : List Byte} (h : d.bodyLeft (encode i ++ bs))
    (hrec : i.isRecord = true) (hwf : i.wellFormed = true) :
    ∃ rest, decodeRecord d.fetchRecord = .ok (i, rest) := by
  have hsize : (encode i).length ≤ 5 := (length_encode i).trans_le (size_le_of_isRecord hrec)
  rw [fetchRecord_of_bodyLeft h, List.take_append, List.take_of_length_le hsize]
  exact ⟨_, recordsDecodeAsEncoded i _ hrec hwf⟩

/-- A cell that consumed `bs` leaves the rest. -/
theorem Dec.bodyLeft_after {s t : State} {p : Pixel} {run : BitVec 6} {updates : Bool} {bs cs : List Byte}
    (h : s.dec.bodyLeft (bs ++ cs)) (heff : decEffect s t p bs.length run updates) : t.dec.bodyLeft cs := by
  obtain ⟨hlen, hread⟩ := h
  obtain ⟨_, _, _, _, _, _, _, _, hpos, hfile, hlen', hbody, _⟩ := heff
  rw [List.length_append] at hlen
  have hfits : s.dec.has bs.length := by
    unfold Dec.has
    omega
  have hpos' : t.dec.pos.toNat = s.dec.pos.toNat + bs.length :=
    (congrArg BitVec.toNat hpos).trans (Dec.advance_pos_toNat hfits)
  have haddr : t.dec.fetchAddr = s.dec.fetchAddr + bs.length := by
    simp only [Dec.fetchAddr, Dec.bodyOff, hbody, hpos', Nat.add_assoc]
  have hbodyLen : t.dec.bodyLen = s.dec.bodyLen := by simp only [Dec.bodyLen, hbody, hlen']
  refine ⟨by rw [hpos', hbodyLen]; omega, ?_⟩
  rw [hfile, haddr]
  exact (Memory.readBytes_parts hread).2

end Sys2Proof.Machine
end

section
/-! SUPPORT. A decoder that follows an encoder (R51, R68): what it has produced, what is left of its body, and that
the records of the open run and of the next pixel take it one pixel behind the encoder to the encoder's place. -/

namespace Sys2Proof.Machine

/-! ### The selected record can be encoded -/

theorem selectRecord_encodable (p : Pixel) (r : Regs) :
    (selectRecord p r).isRecord = true ∧ (selectRecord p r).wellFormed = true := by
  unfold selectRecord
  split
  next => exact ⟨rfl, rfl⟩
  next =>
    split
    next h =>
      obtain ⟨_, hr, hg, hb⟩ := h
      exact ⟨rfl, (wellFormed_diff _ _ _).2 ⟨(inDiff_iff _).1 hr, (inDiff_iff _).1 hg, (inDiff_iff _).1 hb⟩⟩
    next =>
      split
      next h =>
        obtain ⟨_, hg, hr, hb⟩ := h
        exact ⟨rfl, (wellFormed_luma _ _ _).2
          ⟨(inLumaDg_iff _).1 hg, (inLumaRel_iff _).1 hr, (inLumaRel_iff _).1 hb⟩⟩
      next => split <;> exact ⟨rfl, rfl⟩

/-! ### Steps of the decoder -/

/-- With cells left and a run open, the step continues the run (R75). -/
theorem step_continues {s : State} (hag : s.agenda = []) (hd : s.active = .dec) (hs : s.dec.regs.st = .body)
    (hn : s.dec.regs.pxi ≠ s.dec.regs.cfg.n) (hr : s.dec.regs.run ≠ 0) :
    step s = .next { s with dec := s.dec.continueRun } := by
  rw [step_dec s hag hd (by rw [hs]; rfl)]
  simp only [decStep, hs, decBodyStep, if_neg hn, if_pos hr, decNext_eq]

/-- The first cell of a run (R81). -/
theorem exec_run_dec_effect (n : Nat) {s : State} (h : s.active = .dec) :
    ∃ t, exec (.run n) s = .next t
      ∧ decEffect s t s.dec.regs.prev 1 (BitVec.ofNat 6 (n - 1)) false :=
  ⟨_, exec_run_dec n s h, rfl, rfl, rfl, rfl, cacheAfter_of_eq _ rfl, rfl, rfl, sameControl_refl _, rfl, rfl, rfl,
    rfl, rfl, rfl, stores_writeBytes _ _ _⟩

/-- Executing the record its own registers select, a decoder in its body produces the pixel and moves by the
record's bytes (R49, R51). -/
theorem exec_select_dec_length {p : Pixel} {s : State} (h : s.active = .dec) (hs : s.dec.regs.st = .body)
    (hc : s.dec.regs.cfg.c = 3 ∨ s.dec.regs.cfg.c = 4) (hp : s.dec.regs.cfg.c = 3 → p.a = 255) :
    ∃ t updates, exec (selectRecord p s.dec.regs) s = .next t
      ∧ decEffect s t p (encode (selectRecord p s.dec.regs)).length s.dec.regs.run updates
      ∧ (updates = false ↔ s.dec.regs.cache[pixelHash p] = p) := by
  obtain ⟨t, n, updates, hexec, heff, hit⟩ := exec_select_dec h hc hp
  refine ⟨t, updates, hexec, ?_, hit⟩
  obtain ⟨h1, h2, h3, h4, h5, h6, h7, hsame, _, hrest⟩ := heff
  rw [length_encode]
  rcases exec_record_dec _ s h (selectRecord_encodable p s.dec.regs).1 with hraise | ⟨u, _, _, _, hu, heff', _⟩
  · cases hexec.symm.trans hraise
    obtain ⟨_, hst, _⟩ := hsame
    rw [raise_dec _ s h, hs] at hst
    cases hst
  · cases hexec.symm.trans hu
    obtain ⟨_, _, _, _, _, _, _, _, hpos, _⟩ := heff'
    exact ⟨h1, h2, h3, h4, h5, h6, h7, hsame, hpos, hrest⟩

/-! ### Following the encoder -/

theorem ne_of_toNat_lt {x n : Count} (h : x.toNat < n.toNat) : x ≠ n :=
  fun e => absurd (congrArg BitVec.toNat e) h.ne

/-- The pixel at `PXI` is one of the `N` of the call. -/
theorem Enc.pxi_lt_n {e : Enc} {p : Pixel} (hscan : e.scanning) (hpix : e.pixel = some p) :
    e.regs.pxi.toNat < e.regs.cfg.n.toNat := by
  obtain ⟨_, ⟨hle, _⟩, _⟩ := hscan
  exact (Enc.pixel_some hpix).1.trans_le hle

/-- A pixel of the call, consumed, moves `PXI` by one without a wrap (R17). -/
theorem encEffect_pxi {s t : State} {p : Pixel} {bs : List Byte} {run : BitVec 6} {updates : Bool}
    (heff : encEffect s t p bs run updates) (hlt : s.enc.regs.pxi.toNat < s.enc.regs.cfg.n.toNat) :
    t.enc.regs.pxi.toNat = s.enc.regs.pxi.toNat + 1 := by
  obtain ⟨_, _, _, _, _, _, hpxi, _⟩ := heff
  rw [hpxi, toNat_add_one_of_lt hlt]

/-- The cells produced so far are those of the space `g`. -/
def Dec.shows (d : Dec) (g : Memory) : Prop :=
  ∀ j < d.regs.pxi.toNat, d.pixOut.cell d.regs.cfg.c j = g.cell d.regs.cfg.c j

/-- The decoder is to move, in its body phase, with the encoder's descriptor, `PREV` and cache; its cells are those
of the encoder's grid, the pixels it is behind are held back in the encoder's run, and `bs` is left of its body. -/
def Follows (e : Enc) (bs : List Byte) (s : State) : Prop :=
  s.agenda = [] ∧ s.active = .dec ∧ s.dec.regs.st = .body
    ∧ s.dec.regs.cfg = e.regs.cfg ∧ s.dec.descOut = e.regs.cfg
    ∧ s.dec.regs.prev = e.regs.prev ∧ s.dec.regs.cache = e.regs.cache
    ∧ s.dec.bodyLeft bs ∧ s.dec.shows e.pixIn.mem
    ∧ ∀ j, s.dec.regs.pxi.toNat ≤ j → j < e.regs.pxi.toNat →
        e.pixIn.mem.cell e.regs.cfg.c j = channelBytes e.regs.cfg.c e.regs.prev

/-- A cell with the grid's pixel is one cell more that shows the grid. -/
theorem Dec.shows_after {s t : State} {p : Pixel} {n : Nat} {run : BitVec 6} {updates : Bool} {g : Memory}
    (h : s.dec.shows g) (hlegal : s.dec.regs.cfg.legal) (heff : decEffect s t p n run updates)
    (hpxi : t.dec.regs.pxi.toNat = s.dec.regs.pxi.toNat + 1)
    (hcell : g.cell s.dec.regs.cfg.c s.dec.regs.pxi.toNat = channelBytes s.dec.regs.cfg.c p) :
    t.dec.shows g := by
  obtain ⟨_, _, _, _, _, _, _, ⟨hcfg, _, _⟩, _, _, _, _, _, _, hstores⟩ := heff
  intro j hj
  rw [hpxi] at hj
  rw [hcfg]
  rcases Nat.lt_succ_iff_lt_or_eq.1 hj with hlt | rfl
  · rw [cell_of_stores_below hlegal hstores hlt, h j hlt]
  · rw [cell_of_stores hlegal hstores, hcell]

/-- A cell that repeats `PREV` leaves the cache, written or not (R51, R75). -/
theorem cache_eq_of_lockStep {r r' : Regs} {updates : Bool} (h : r.lockStep)
    (hcache : cacheAfter r r' updates r.prev) : r'.cache = r.cache := by
  have hslot : ∀ j : Slot, r'.cache[j] = r.cache[j] := by
    intro j
    rw [hcache j]
    split
    next hj =>
      rw [hj.2]
      exact h.symm
    next => rfl
  exact Vector.ext fun j hj => hslot ⟨j, hj⟩

/-- A cell of a run leaves the decoder following, one pixel on (R75, R81). -/
theorem Follows.cell_of_run {e : Enc} {bs cs : List Byte} {s t : State} {run : BitVec 6} {updates : Bool}
    (h : Follows e (bs ++ cs) s) (hlegal : e.regs.cfg.legal) (hlock : e.regs.lockStep)
    (hbehind : s.dec.regs.pxi.toNat < e.regs.pxi.toNat)
    (heff : decEffect s t s.dec.regs.prev bs.length run updates) :
    Follows e cs t ∧ t.dec.regs.pxi.toNat = s.dec.regs.pxi.toNat + 1 := by
  obtain ⟨hag, hd, hs, hcfg, hdesc, hprev, hcache, hleft, hshows, hheld⟩ := h
  have hlock' : s.dec.regs.lockStep := by
    unfold Regs.lockStep
    simp only [hprev, hcache]
    exact hlock
  have hpxi : t.dec.regs.pxi.toNat = s.dec.regs.pxi.toNat + 1 := by
    obtain ⟨_, _, _, _, _, _, hpxi, _⟩ := heff
    rw [hpxi, toNat_add_one_of_lt hbehind]
  have hcell := hheld _ le_rfl hbehind
  rw [← hcfg, ← hprev] at hcell
  have hshows' := Dec.shows_after hshows (hcfg ▸ hlegal) heff hpxi hcell
  have hleft' := Dec.bodyLeft_after hleft heff
  obtain ⟨_, hact, hagenda, hprev', hcache', _, _, ⟨hcfg', hst, _⟩, _, _, _, _, _, hdesc', _⟩ := heff
  refine ⟨⟨hagenda.trans hag, hact.trans hd, hst.trans hs, hcfg'.trans hcfg, hdesc'.trans hdesc,
    hprev'.trans hprev, (cache_eq_of_lockStep hlock' hcache').trans hcache, hleft', hshows', fun j hj => ?_⟩,
    hpxi⟩
  exact hheld j (by omega)

/-- An open run is continued up to the encoder's place. -/
theorem Follows.run_out {e : Enc} {bs : List Byte} (hlegal : e.regs.cfg.legal) (hlock : e.regs.lockStep)
    (hle : e.regs.pxi.toNat ≤ e.regs.cfg.n.toNat) (k : Nat) {s : State} (h : Follows e bs s)
    (hrun : s.dec.regs.run.toNat = k) (hpxi : s.dec.regs.pxi.toNat + k = e.regs.pxi.toNat) :
    ∃ t, core.run k s = .next t ∧ Follows e bs t ∧ t.dec.regs.run = 0 ∧ t.dec.regs.pxi = e.regs.pxi := by
  induction k generalizing s with
  | zero => exact ⟨s, rfl, h, BitVec.eq_of_toNat_eq hrun, BitVec.eq_of_toNat_eq hpxi⟩
  | succ k ih =>
    obtain ⟨hag, hd, hs, hcfg, _⟩ := id h
    have hn : s.dec.regs.pxi ≠ s.dec.regs.cfg.n := ne_of_toNat_lt (by rw [hcfg]; omega)
    have hr : s.dec.regs.run ≠ 0 := fun e => by
      rw [e] at hrun
      cases hrun
    have heff := continueRun_effect s
    obtain ⟨hnext, hpxi'⟩ := Follows.cell_of_run (bs := []) h hlegal hlock (by omega) heff
    obtain ⟨_, _, _, _, _, hrun', _⟩ := heff
    have hrunNat : (s.dec.regs.run - 1).toNat = k := by bv_omega
    obtain ⟨t, ht, hrest⟩ := ih hnext ((congrArg BitVec.toNat hrun').trans hrunNat) (by omega)
    exact ⟨t, (run_succ k (step_continues hag hd hs hn hr)).trans ht, hrest⟩

/-- The record of the encoder's open run takes the decoder to the encoder's place (R58, R81). -/
theorem Follows.flush {e : Enc} {bs : List Byte} (hlegal : e.regs.cfg.legal) (hlock : e.regs.lockStep)
    (hle : e.regs.pxi.toNat ≤ e.regs.cfg.n.toNat) (hmax : e.regs.run.toNat ≤ 62) {s : State}
    (h : Follows e (flushBytes e.regs.run ++ bs) s) (hrun : s.dec.regs.run = 0)
    (hpxi : s.dec.regs.pxi.toNat + e.regs.run.toNat = e.regs.pxi.toNat) :
    ∃ t, core.run e.regs.run.toNat s = .next t ∧ Follows e bs t ∧ t.dec.regs.run = 0
      ∧ t.dec.regs.pxi = e.regs.pxi := by
  by_cases hr : e.regs.run = 0
  · rw [flushBytes, if_pos hr] at h
    rw [hr] at hpxi ⊢
    exact ⟨s, rfl, h, hrun, BitVec.eq_of_toNat_eq hpxi⟩
  · have hpos : 1 ≤ e.regs.run.toNat := by bv_omega
    have hbytes : flushBytes e.regs.run = encode (.run e.regs.run.toNat) := if_neg hr
    rw [hbytes] at h
    obtain ⟨hag, hd, hs, hcfg, _, _, _, hleft, _⟩ := id h
    obtain ⟨rest, hdec⟩ := decodeRecord_of_bodyLeft hleft rfl ((wellFormed_run _).2 ⟨hpos, hmax⟩)
    obtain ⟨t, hexec, heff⟩ := exec_run_dec_effect e.regs.run.toNat hd
    have hn : s.dec.regs.pxi ≠ s.dec.regs.cfg.n := ne_of_toNat_lt (by rw [hcfg]; omega)
    obtain ⟨hnext, hpxi'⟩ := Follows.cell_of_run h hlegal hlock (by omega) heff
    obtain ⟨_, _, _, _, _, hrun', _⟩ := heff
    have hrunNat : t.dec.regs.run.toNat = e.regs.run.toNat - 1 := by
      rw [hrun', BitVec.toNat_ofNat]
      omega
    obtain ⟨u, hu, hrest⟩ := Follows.run_out hlegal hlock hle _ hnext hrunNat (by omega)
    refine ⟨u, ?_, hrest⟩
    rw [← hu, ← run_succ _ ((step_runs ⟨hag, hd, hs, hn, hrun⟩ hdec).trans hexec), Nat.sub_add_cancel hpos]

/-- A pixel that joins the encoder's run is held back, so the decoder follows as before (R57). -/
theorem Follows.join {s t u : State} {bs cs : List Byte} {run : BitVec 6}
    (h : Follows s.enc bs u) (hscan : s.enc.scanning) (hpix : s.enc.pixel = some s.enc.regs.prev)
    (heff : encEffect s t s.enc.regs.prev cs run false) : Follows t.enc bs u := by
  obtain ⟨hag, hd, hs, hcfg, hdesc, hprev, hcache, hleft, hshows, hheld⟩ := h
  have hpxi := encEffect_pxi heff (Enc.pxi_lt_n hscan hpix)
  obtain ⟨hlegal, _⟩ := hscan
  obtain ⟨_, _, _, hprev', hcache', _, _, ⟨hcfg', _, _⟩, hpixIn, _⟩ := heff
  have hcell := Enc.cell_pixel hlegal hpix
  refine ⟨hag, hd, hs, hcfg.trans hcfg'.symm, hdesc.trans hcfg'.symm, hprev.trans hprev'.symm,
    hcache.trans (Vector.ext fun j hj => ?_), hleft, hpixIn ▸ hshows, fun j hj hlt => ?_⟩
  · exact ((hcache' ⟨j, hj⟩).trans (if_neg (by simp))).symm
  · rw [hpixIn, hcfg', hprev']
    rw [hpxi] at hlt
    rcases Nat.lt_succ_iff_lt_or_eq.1 hlt with hbefore | rfl
    · exact hheld j hj hbefore
    · exact hcell

/-- The encoder's record of a pixel takes a decoder at the encoder's place along with it (R51, R68). -/
theorem Follows.record {s t u : State} {p : Pixel} {bs cs : List Byte} {updates : Bool}
    (h : Follows s.enc (encode (selectRecord p s.enc.regs) ++ bs) u) (hrun : u.dec.regs.run = 0)
    (hplace : u.dec.regs.pxi = s.enc.regs.pxi) (hscan : s.enc.scanning) (hpix : s.enc.pixel = some p)
    (heff : encEffect s t p cs 0 updates) (hit : updates = false ↔ s.enc.regs.cache[pixelHash p] = p) :
    ∃ v, step u = .next v ∧ Follows t.enc bs v ∧ v.dec.regs.run = 0 ∧ v.dec.regs.pxi = t.enc.regs.pxi := by
  obtain ⟨hag, hd, hs, hcfg, hdesc, hprev, hcache, hleft, hshows, _⟩ := h
  have hlt := Enc.pxi_lt_n hscan hpix
  obtain ⟨hlegal, _⟩ := hscan
  have hn : u.dec.regs.pxi ≠ u.dec.regs.cfg.n := ne_of_toNat_lt (by rwa [hplace, hcfg])
  rw [← selectRecord_congr p hprev hcache hcfg] at hleft
  obtain ⟨hrec, hwf⟩ := selectRecord_encodable p u.dec.regs
  obtain ⟨rest, hdec⟩ := decodeRecord_of_bodyLeft hleft hrec hwf
  obtain ⟨v, upd, hexec, heff', hit'⟩ :=
    exec_select_dec_length (p := p) hd hs (hcfg ▸ hlegal.1)
      (hcfg ▸ (Enc.pixel_some hpix).2)
  have hupd : upd = updates := by
    rw [hcache, ← hit] at hit'
    exact Bool.eq_iff_iff.2 (by simpa using not_congr hit')
  subst hupd
  have hpxi : v.dec.regs.pxi.toNat = u.dec.regs.pxi.toNat + 1 := by
    obtain ⟨_, _, _, _, _, _, hpxi, _⟩ := heff'
    rw [hpxi, hplace, toNat_add_one_of_lt hlt]
  have hcell := Enc.cell_pixel hlegal hpix
  rw [← hcfg, ← hplace] at hcell
  have hshows' := Dec.shows_after hshows (hcfg ▸ hlegal) heff' hpxi hcell
  have hleft' := Dec.bodyLeft_after hleft heff'
  obtain ⟨_, _, _, eprev, ecache, _, epxi, ⟨ecfg, _, _⟩, epixIn, _⟩ := heff
  obtain ⟨_, dact, dag, dprev, dcache, drun, dpxi, ⟨dcfg, dst, _⟩, _, _, _, _, _, ddesc, _⟩ := heff'
  have hplace' : v.dec.regs.pxi = t.enc.regs.pxi := by rw [dpxi, epxi, hplace]
  refine ⟨v, (step_runs ⟨hag, hd, hs, hn, hrun⟩ hdec).trans hexec,
    ⟨dag.trans hag, dact.trans hd, dst.trans hs, ?_, ?_, dprev.trans eprev.symm,
      cache_eq_of_cacheAfter hcache dcache ecache, hleft', epixIn ▸ hshows', ?_⟩, drun.trans hrun, hplace'⟩
  · rw [dcfg, hcfg, ecfg]
  · rw [ddesc, hdesc, ecfg]
  · intro j hj hlt
    rw [hplace'] at hj
    exact absurd hj (Nat.not_le.2 hlt)

end Sys2Proof.Machine
end

section
/-! SUPPORT. The scan of an encode call, pixel by pixel (R56, R57, R65): it ends in TRAILER, and the bytes it emits
restore the grid in every decoder that follows the encoder (R68). -/

namespace Sys2Proof.Machine

/-! ### Bytes that restore the grid -/

/-- The whole grid of `e` is produced, under its descriptor, and the decoder is about to leave its body phase. -/
def Restored (e : Enc) (t : State) : Prop :=
  t.agenda = [] ∧ t.active = .dec ∧ t.dec.regs.st = .body ∧ t.dec.regs.cfg = e.regs.cfg
    ∧ t.dec.descOut = e.regs.cfg ∧ t.dec.regs.pxi = e.regs.cfg.n ∧ t.dec.shows e.pixIn.mem

/-- With `bs` left of its body, any decoder that follows `e` with the encoder's open run still to read produces the
rest of the grid, a step for each cell. -/
def Enc.restoredBy (e : Enc) (bs : List Byte) : Prop :=
  ∀ s : State, Follows e bs s → s.dec.regs.run = 0 →
    s.dec.regs.pxi.toNat + e.regs.run.toNat = e.regs.pxi.toNat →
    ∃ t, core.run (e.regs.cfg.n.toNat - s.dec.regs.pxi.toNat) s = .next t ∧ Restored e t

/-- Encoders of the same call restore the same grid. -/
theorem Restored.of_effect {s t u : State} {p : Pixel} {bs : List Byte} {run : BitVec 6} {updates : Bool}
    (h : Restored t.enc u) (heff : encEffect s t p bs run updates) : Restored s.enc u := by
  obtain ⟨_, _, _, _, _, _, _, ⟨hcfg, _, _⟩, hpixIn, _⟩ := heff
  unfold Restored at *
  rwa [hcfg, hpixIn] at h

/-- At the end of the scan the record of the open run is all that is missing (R58 (c), R65). -/
theorem Enc.restoredBy_flush {e : Enc} (hscan : e.scanning) (hn : e.regs.pxi = e.regs.cfg.n) :
    e.restoredBy (flushBytes e.regs.run) := by
  obtain ⟨hlegal, _, _, hmax, _, _, hlock, _⟩ := hscan
  intro s h hrun hpxi
  rw [← List.append_nil (flushBytes e.regs.run)] at h
  obtain ⟨t, ht, hfollows, _, hplace⟩ := h.flush hlegal hlock (by rw [hn]) hmax hrun hpxi
  obtain ⟨hag, hd, hs, hcfg, hdesc, _, _, _, hshows, _⟩ := hfollows
  have hsteps : e.regs.cfg.n.toNat - s.dec.regs.pxi.toNat = e.regs.run.toNat := by
    rw [← hn]
    omega
  exact ⟨t, hsteps ▸ ht, hag, hd, hs, hcfg, hdesc, hplace.trans hn, hshows⟩

/-- A pixel that joins the run emits nothing, and the bytes after it restore it too (R57). -/
theorem Enc.restoredBy_of_absorbed {s t : State} {bs : List Byte} (hscan : s.enc.scanning)
    (hpix : s.enc.pixel = some s.enc.regs.prev)
    (heff : encEffect s t s.enc.regs.prev [] (s.enc.regs.run + 1) false) (h : t.enc.restoredBy bs) :
    s.enc.restoredBy bs := by
  intro u hu hrun hpxi
  have hu' := hu.join hscan hpix heff
  have hnext := encEffect_pxi heff (Enc.pxi_lt_n hscan hpix)
  obtain ⟨_, _, _, hmax, _⟩ := hscan
  obtain ⟨_, _, _, _, _, hrun', _, ⟨hcfg, _, _⟩, _⟩ := id heff
  have hrunNat : t.enc.regs.run.toNat = s.enc.regs.run.toNat + 1 := by
    rw [hrun']
    bv_omega
  obtain ⟨v, hv, hrestored⟩ := h u hu' hrun (by omega)
  exact ⟨v, hcfg ▸ hv, hrestored.of_effect heff⟩

/-- A pixel that restarts a full run emits the record of that run, which is read first (R57, R58 (b)). -/
theorem Enc.restoredBy_of_restarted {s t : State} {bs : List Byte} (hscan : s.enc.scanning)
    (hpix : s.enc.pixel = some s.enc.regs.prev) (hr : s.enc.regs.run = 62)
    (heff : encEffect s t s.enc.regs.prev [0xFD] 1 false) (h : t.enc.restoredBy bs) :
    s.enc.restoredBy ([0xFD] ++ bs) := by
  intro u hu hrun hpxi
  have hlt := Enc.pxi_lt_n hscan hpix
  have hnext := encEffect_pxi heff hlt
  obtain ⟨hlegal, _, _, hmax, _, _, hlock, _⟩ := id hscan
  have hbytes : [0xFD] = flushBytes s.enc.regs.run := by rw [hr]; rfl
  obtain ⟨v, hv, hfollows, hrun', hplace⟩ := (hbytes ▸ hu).flush hlegal hlock hlt.le hmax hrun hpxi
  obtain ⟨_, _, _, _, _, hone, _, ⟨hcfg, _, _⟩, _⟩ := id heff
  obtain ⟨w, hw, hrestored⟩ := h v (hfollows.join hscan hpix heff) hrun' (by rw [hplace, hone, hnext]; rfl)
  refine ⟨w, ?_, hrestored.of_effect heff⟩
  rw [hplace, hcfg] at hw
  rw [← hw, ← run_add _ _ hv]
  congr 1
  omega

/-- The flush and the record of a pixel are read one after the other (R56, R58 (a)). -/
theorem Enc.restoredBy_of_record {s t : State} {p : Pixel} {bs cs : List Byte} {updates : Bool}
    (hscan : s.enc.scanning) (hpix : s.enc.pixel = some p) (heff : encEffect s t p cs 0 updates)
    (hit : updates = false ↔ s.enc.regs.cache[pixelHash p] = p) (h : t.enc.restoredBy bs) :
    s.enc.restoredBy (flushBytes s.enc.regs.run ++ encode (selectRecord p s.enc.regs) ++ bs) := by
  intro u hu hrun hpxi
  have hlt := Enc.pxi_lt_n hscan hpix
  have hnext := encEffect_pxi heff hlt
  obtain ⟨hlegal, _, _, hmax, _, _, hlock, _⟩ := id hscan
  rw [List.append_assoc] at hu
  obtain ⟨v, hv, hfollows, hrun', hplace⟩ := hu.flush hlegal hlock hlt.le hmax hrun hpxi
  obtain ⟨w, hw, hfollows', hrun'', hplace'⟩ := hfollows.record hrun' hplace hscan hpix heff hit
  obtain ⟨_, _, _, _, _, hzero, _, ⟨hcfg, _, _⟩, _⟩ := id heff
  obtain ⟨x, hx, hrestored⟩ := h w hfollows' hrun'' (by rw [hplace', hzero]; rfl)
  refine ⟨x, ?_, hrestored.of_effect heff⟩
  rw [hplace', hnext, hcfg] at hx
  rw [← hx, ← run_succ _ hw, ← run_add _ _ hv]
  congr 1
  omega

/-! ### The scan -/

/-- The scan from `s` ended in `t`: it emitted `bs`, in the encoder alone, and the trailer is next. -/
def Scanned (s t : State) (bs : List Byte) : Prop :=
  t.agenda = [] ∧ t.active = .enc ∧ t.dec = s.dec ∧ t.enc.regs.st = .trailer ∧ t.enc.inv
    ∧ t.enc.regs.cfg = s.enc.regs.cfg
    ∧ t.enc.outLen = s.enc.outLen + bs.length ∧ stores s.enc.byteOut t.enc.byteOut s.enc.outLen bs

/-- A scan begins with the bytes of its first pixel. -/
theorem Scanned.of_effect {s t u : State} {p : Pixel} {bs cs : List Byte} {run : BitVec 6} {updates : Bool}
    (heff : encEffect s t p bs run updates) (h : Scanned t u cs) : Scanned s u (bs ++ cs) := by
  obtain ⟨hdec, _, _, _, _, _, _, ⟨hcfg, _, _⟩, _, _, hlen, hout⟩ := heff
  obtain ⟨hag, hact, hdec', hst, hinv, hcfg', hlen', hout'⟩ := h
  refine ⟨hag, hact, hdec'.trans hdec, hst, hinv, hcfg'.trans hcfg, ?_, stores_append hout (hlen ▸ hout')⟩
  rw [hlen', hlen, List.length_append, Nat.add_assoc]

/-- The encoder's step keeps its invariant, on the machine. -/
theorem step_enc_inv {s t : State} (hag : s.agenda = []) (ha : s.active = .enc) (hs : s.enc.regs.st = .body)
    (hinv : s.enc.inv) (h : step s = .next t) : t.enc.inv := by
  rw [step_enc s hag ha (by rw [hs]; rfl)] at h
  exact encStep_inv ha h hinv

theorem Enc.exists_pixel {e : Enc} (h : e.regs.pxi.toNat < e.pixIn.chans.length) : ∃ p, e.pixel = some p :=
  ⟨_, if_pos h⟩

/-- One pixel of the scan: its bytes, and that with the bytes after them they restore the grid. -/
theorem step_scans {s : State} {p : Pixel} (h : encReady s p) (hinv : s.enc.inv) :
    ∃ t bs run updates, step s = .next t ∧ encEffect s t p bs run updates
      ∧ ∀ cs, t.enc.restoredBy cs → s.enc.restoredBy (bs ++ cs) := by
  obtain ⟨_, _, hs, _, hpix⟩ := id h
  obtain ⟨_, _, _, _, hbody, _⟩ := hinv
  obtain ⟨hscan, _⟩ := hbody hs
  obtain ⟨_, _, _, hmax, _⟩ := id hscan
  by_cases hp : p = s.enc.regs.prev
  · obtain ⟨habsorb, hrestart⟩ := equalPixelJoinsTheRun s p h hp hmax
    subst hp
    by_cases hr : s.enc.regs.run = 62
    · obtain ⟨t, hstep, heff⟩ := hrestart hr
      exact ⟨t, _, _, _, hstep, heff, fun cs hcs => Enc.restoredBy_of_restarted hscan hpix hr heff hcs⟩
    · obtain ⟨t, hstep, heff⟩ := habsorb hr
      exact ⟨t, _, _, _, hstep, heff, fun cs hcs => Enc.restoredBy_of_absorbed hscan hpix heff hcs⟩
  · obtain ⟨t, updates, hstep, heff, hit⟩ := step_selects h hp
    exact ⟨t, _, _, _, hstep, heff, fun cs hcs => Enc.restoredBy_of_record hscan hpix heff hit hcs⟩

/-- With all pixels handed over, the scan takes a step for each remaining one and one for its end, and emits what
restores the grid. -/
theorem run_scans (k : Nat) {s : State} (hag : s.agenda = []) (ha : s.active = .enc)
    (hs : s.enc.regs.st = .body) (hinv : s.enc.inv) (hall : s.enc.pixIn.chans.length = s.enc.regs.cfg.n.toNat)
    (hk : s.enc.regs.pxi.toNat + k = s.enc.regs.cfg.n.toNat) :
    ∃ t bs, core.run (k + 1) s = .next t ∧ Scanned s t bs ∧ s.enc.restoredBy bs := by
  induction k generalizing s with
  | zero =>
    have hn : s.enc.regs.pxi = s.enc.regs.cfg.n := BitVec.eq_of_toNat_eq hk
    obtain ⟨t, hstep, hwrites⟩ := endOfScanFlushesTheRun s hag ha hs hn
    have hinv' := step_enc_inv hag ha hs hinv hstep
    obtain ⟨hdec, hact, hagenda, hregs, _, _, hlen, hout⟩ := hwrites
    obtain ⟨_, _, _, _, hbody, _⟩ := hinv
    obtain ⟨hscan, _⟩ := hbody hs
    exact ⟨t, _, run_succ 0 hstep, ⟨hagenda.trans hag, hact.trans ha, hdec, by rw [hregs], hinv', by rw [hregs],
      hlen, hout⟩, Enc.restoredBy_flush hscan hn⟩
  | succ k ih =>
    obtain ⟨p, hpix⟩ := Enc.exists_pixel (e := s.enc) (by omega)
    have hlt : s.enc.regs.pxi.toNat < s.enc.regs.cfg.n.toNat := by omega
    obtain ⟨t, bs, run, updates, hstep, heff, hrestore⟩ := step_scans ⟨hag, ha, hs, ne_of_toNat_lt hlt, hpix⟩ hinv
    have hpxi := encEffect_pxi heff hlt
    obtain ⟨_, hact, hagenda, _, _, _, _, ⟨hcfg, hst, _⟩, hpixIn, _⟩ := id heff
    obtain ⟨u, cs, hrun, hscanned, hcs⟩ := ih (hagenda.trans hag) (hact.trans ha) (hst.trans hs)
      (step_enc_inv hag ha hs hinv hstep) (by rw [hpixIn, hcfg, hall]) (by rw [hpxi, hcfg]; omega)
    exact ⟨u, bs ++ cs, (run_succ (k + 1) hstep).trans hrun, hscanned.of_effect heff, hrestore cs hcs⟩

end Sys2Proof.Machine
end

section
/-! SUPPORT. The encode call whole, from the host's moves to the file (R88 to R90, R113, R117). -/

namespace Sys2Proof.Machine

/-! ### Which engine moves when one call is in progress -/

theorem step_enc_alone {s : State} (hag : s.agenda = []) (hc : s.enc.regs.st.inCall = true)
    (hd : s.dec.regs.st.inCall = false) : step s = encStep { s with active := .enc } := by
  have hnext : s.nextEngine = .enc := by cases ha : s.active <;> simp [State.nextEngine, ha, hc, hd]
  simp only [step, hag, hnext, engineStep]

theorem step_dec_alone {s : State} (hag : s.agenda = []) (hc : s.dec.regs.st.inCall = true)
    (he : s.enc.regs.st.inCall = false) : step s = decStep { s with active := .dec } := by
  have hnext : s.nextEngine = .dec := by cases ha : s.active <;> simp [State.nextEngine, ha, hc, he]
  simp only [step, hag, hnext, engineStep]

/-! ### The host's moves of an encode call -/

theorem step_writeCfg_enc {s : State} {d : Cfg} {later : List Event}
    (hag : s.agenda = .host (.writeCfg .enc d) :: later) (hc : s.enc.regs.st.inCall = false) :
    step s = .next { s with enc := { s.enc with regs := s.enc.regs.setCfg d }, agenda := later } := by
  rw [step_host s _ _ hag]
  simp [hostMove, hc]

theorem step_startEnc {s : State} {ps : List (List Byte)} {later : List Event}
    (hag : s.agenda = .host (.startEnc ps) :: later) (hc : s.enc.regs.st.inCall = false) :
    step s = .next { s with enc := s.enc.start false (Grid.ofPixels ps), agenda := later } := by
  rw [step_host s _ _ hag]
  simp [hostMove, hc]

theorem step_startStream {s : State} {later : List Event} (hag : s.agenda = .host .startStream :: later)
    (hc : s.enc.regs.st.inCall = false) :
    step s = .next { s with enc := s.enc.start true ⟨[], []⟩, agenda := later } := by
  rw [step_host s _ _ hag]
  simp [hostMove, hc]

/-- Each pixel of a streamed call is appended to those handed over before it (R117). -/
theorem run_pixels (qs done : List Pixel) {s : State} (hag : s.agenda = (qs.map HostMove.pixel).map .host)
    (hc : s.enc.regs.st.inCall = true) (hs : s.enc.streamed = true)
    (hpix : s.enc.pixIn = Grid.ofPixels (done.map (channelBytes s.enc.regs.cfg.c)))
    (hn : done.length + qs.length = s.enc.regs.cfg.n.toNat) :
    ∃ t, core.run qs.length s = .next t ∧ t.agenda = [] ∧ t.dec = s.dec
      ∧ t.enc = { s.enc with pixIn := Grid.ofPixels ((done ++ qs).map (channelBytes s.enc.regs.cfg.c)) } := by
  induction qs generalizing done s with
  | nil =>
    rw [List.append_nil, ← hpix]
    exact ⟨s, rfl, hag, rfl, rfl⟩
  | cons q qs ih =>
    rw [List.length_cons] at hn
    have hroom : s.enc.pixIn.chans.length < s.enc.regs.cfg.n.toNat := by
      rw [hpix]
      simp only [Grid.ofPixels, List.length_map]
      omega
    have hstep := step_host s (.pixel q) _ hag
    rw [hostMove, Enc.deliver_of _ _ hc hs hroom, hpix, Grid.ofPixels_append, ← List.map_singleton,
      ← List.map_append] at hstep
    have hn' : (done ++ [q]).length + qs.length = s.enc.regs.cfg.n.toNat := by
      rw [List.length_append, List.length_singleton]
      omega
    obtain ⟨t, ht, hag', hdec, henc⟩ := ih (done ++ [q])
      (s := { s with
        enc := { s.enc with pixIn := Grid.ofPixels ((done ++ [q]).map (channelBytes s.enc.regs.cfg.c)) }
        agenda := (qs.map HostMove.pixel).map .host }) rfl hc hs rfl hn'
    refine ⟨t, (run_succ _ hstep).trans ht, hag', hdec, ?_⟩
    rw [henc, List.append_assoc, List.singleton_append]

/-- Handed over in either way, the encoder has started its call on the grid (R113, R117; log 10). -/
theorem run_starts {s : State} {ps : List (List Byte)} {moves : List HostMove} (hag : s.agenda = moves.map .host)
    (hc : s.enc.regs.st.inCall = false) (hlen : ps.length = s.enc.regs.cfg.n.toNat)
    (hmoves : moves = [.startEnc ps]
      ∨ ∃ qs : List Pixel, ps = qs.map (channelBytes s.enc.regs.cfg.c) ∧ moves = .startStream :: qs.map .pixel) :
    ∃ t streamed, core.run moves.length s = .next t ∧ t.agenda = [] ∧ t.dec = s.dec
      ∧ t.enc = s.enc.start streamed (Grid.ofPixels ps) := by
  rcases hmoves with rfl | ⟨qs, rfl, rfl⟩
  · exact ⟨_, false, run_succ 0 (step_startEnc hag hc), rfl, rfl, rfl⟩
  · rw [List.length_map, ← Nat.zero_add qs.length] at hlen
    obtain ⟨t, ht, hag', hdec, henc⟩ := run_pixels qs []
      (s := { s with enc := s.enc.start true ⟨[], []⟩, agenda := (qs.map HostMove.pixel).map .host })
      rfl rfl rfl rfl hlen
    refine ⟨t, true, ?_, hag', hdec, henc⟩
    rw [List.length_cons, List.length_map]
    exact (run_succ _ (step_startStream hag hc)).trans ht

/-! ### The encode call -/

/-- A grid of `N` pixels of `C` channels passes the checks of R90. -/
theorem Enc.gridFits_ofPixels {e : Enc} {ps : List (List Byte)} (hpix : e.pixIn = Grid.ofPixels ps)
    (hlen : ps.length = e.regs.cfg.n.toNat) (hchans : ∀ p ∈ ps, p.length = e.regs.cfg.c.toNat) :
    e.gridFits = true := by
  simpa [Enc.gridFits, hpix, Grid.ofPixels, hlen] using hchans

theorem Enc.check_of_legal {e : Enc} (hlegal : e.regs.cfg.legal) (hgrid : e.gridFits = true) : e.check = none := by
  obtain ⟨hc, hw, hh⟩ := hlegal
  have hchannels := (channelsLegal_iff _).2 hc
  rw [Enc.check, if_neg (by simp [hchannels]), if_neg (not_or.2 ⟨hw, hh⟩), if_neg (by simp [hgrid])]

/-- The file of an encode call: the header, the body, the trailer (R32, R43). -/
def fileOf (d : Cfg) (bs : List Byte) : List Byte :=
  encode (.header d.w d.h d.c d.cs) ++ bs ++ trailerImage

/-- The encoder with its header written, at the start of its body phase (R88). -/
def Enc.headerWritten (e : Enc) : Enc :=
  ({ e with regs := { e.regs with st := .body } }).emit
    (encode (.header e.regs.cfg.w e.regs.cfg.h e.regs.cfg.c e.regs.cfg.cs))

/-- The checks passed, the step writes the header (R88, R90). -/
theorem step_writes_header {s : State} (hag : s.agenda = []) (hd : s.dec.regs.st.inCall = false)
    (hs : s.enc.regs.st = .header) (hcheck : s.enc.check = none) :
    step s = .next { s with enc := s.enc.headerWritten, active := .enc } := by
  rw [step_enc_alone hag (by rw [hs]; rfl) hd]
  simp only [encStep, hs, hcheck]
  exact exec_header_enc _ _ _ _ _ rfl

/-- The bytes of a whole scan are at most `C + 1` for each pixel (R70). -/
theorem Scanned.length_le {s t : State} {bs : List Byte} (h : Scanned s t bs) (hlen : s.enc.outLen = 14) :
    bs.length ≤ s.enc.regs.cfg.n.toNat * (s.enc.regs.cfg.c.toNat + 1) := by
  obtain ⟨_, _, _, hst, ⟨_, _, _, _, _, htrailer⟩, hcfg, hout, _⟩ := h
  obtain ⟨_, ⟨_, hmost, _⟩, _, hpxi⟩ := htrailer hst
  rw [hpxi, hcfg, hout, hlen, Nat.add_sub_cancel_left] at hmost
  exact le_of_add_le_left hmost

/-- The trailer ends the call, and the file is all that was emitted (R89, R115). -/
theorem Scanned.step_ends {s t : State} {bs front : List Byte} (h : Scanned s t bs)
    (hfront : stores [] s.enc.byteOut 0 front) (hlen : s.enc.outLen = front.length) :
    ∃ u, step t = .next u ∧ u.agenda = [] ∧ u.dec = s.dec ∧ u.enc.regs.st = .done
      ∧ u.enc.result = .ok (front ++ bs ++ trailerImage) := by
  obtain ⟨hag, hact, hdec, hst, _, _, hout, hstores⟩ := h
  refine ⟨_, step_enc_trailer hag hact hst, hag, hdec, rfl, ?_⟩
  have hbody : stores [] t.enc.byteOut 0 (front ++ bs) := stores_append hfront (by rwa [Nat.zero_add, ← hlen])
  have htotal : t.enc.outLen = 0 + (front ++ bs).length := by rw [hout, hlen, Nat.zero_add, List.length_append]
  have hfile := stores_append hbody (stores_writeBytes t.enc.byteOut _ trailerImage)
  have hread := readBytes_of_stores hfile
  rw [← htotal, List.length_append, ← Nat.zero_add (front ++ bs).length, ← htotal] at hread
  exact congrArg CallResult.ok hread

/-- A started encoder with a grid that fits meets its invariant (R90, R117). -/
theorem Enc.start_ofPixels_inv (e : Enc) (streamed : Bool) {ps : List (List Byte)}
    (hlen : ps.length = e.regs.cfg.n.toNat) (hchans : ∀ p ∈ ps, p.length = e.regs.cfg.c.toNat) :
    (e.start streamed (Grid.ofPixels ps)).inv := by
  have hcounted : (e.start streamed (Grid.ofPixels ps)).counted :=
    ⟨((List.length_map _).trans hlen).le, by simpa [Grid.ofPixels] using hchans⟩
  refine ⟨Grid.wf_ofPixels ps, Memory.wf_nil, iff_of_false nofun (· rfl),
    fun _ => ⟨Regs.fresh_start _, rfl, fun _ _ => hcounted⟩, nofun, nofun⟩

/-- A started encode call on a grid that fits is done after a step for the header, one for each pixel, the end of scan
and the trailer; between the container items its file holds what restores the grid (R88, R89, R90). -/
theorem run_encodes {s : State} {e : Enc} {streamed : Bool} {ps : List (List Byte)} (hag : s.agenda = [])
    (hd : s.dec.regs.st.inCall = false) (henc : s.enc = e.start streamed (Grid.ofPixels ps))
    (hlegal : e.regs.cfg.legal) (hlen : ps.length = e.regs.cfg.n.toNat)
    (hchans : ∀ p ∈ ps, p.length = e.regs.cfg.c.toNat) :
    ∃ t bs, core.run (e.regs.cfg.n.toNat + 3) s = .next t
      ∧ t.agenda = [] ∧ t.dec = s.dec ∧ t.enc.regs.st = .done ∧ t.enc.result = .ok (fileOf e.regs.cfg bs)
      ∧ bs.length ≤ e.regs.cfg.n.toNat * (e.regs.cfg.c.toNat + 1)
      ∧ (e.start streamed (Grid.ofPixels ps)).headerWritten.restoredBy bs := by
  have hgrid : (e.start streamed (Grid.ofPixels ps)).gridFits = true := Enc.gridFits_ofPixels rfl hlen hchans
  have hheader := step_writes_header hag hd (by rw [henc]; rfl) (by rw [henc]; exact Enc.check_of_legal hlegal hgrid)
  rw [henc] at hheader
  have hinv : (e.start streamed (Grid.ofPixels ps)).headerWritten.inv := Enc.inv_of_header_written
    (Enc.start_ofPixels_inv e streamed hlen hchans) rfl hlegal (fun _ => hgrid) _ _ _ _
  obtain ⟨t, bs, hrun, hscanned, hrestore⟩ := run_scans e.regs.cfg.n.toNat
    (s := { s with enc := (e.start streamed (Grid.ofPixels ps)).headerWritten, active := .enc })
    hag rfl rfl hinv ((List.length_map _).trans hlen) (Nat.zero_add _)
  obtain ⟨u, hend, hag', hdec, hst, hresult⟩ := hscanned.step_ends (stores_writeBytes [] 0 _) (Nat.zero_add _)
  refine ⟨u, bs, ?_, hag', hdec, hst, hresult, hscanned.length_le rfl, hrestore⟩
  exact (run_succ _ hheader).trans ((run_add _ 1 hrun).trans (run_succ 0 hend))

end Sys2Proof.Machine
end

section
/-! SUPPORT. The decode call on the file of an encode call, from the host's start to the descriptor and the grid (R68,
R91, R96). With it DecodeOfEncodeReturnsGridAndDescriptor is settled. -/

namespace Sys2Proof.Machine

/-! ### The container -/

theorem step_startDec {s : State} {file : List Byte} {later : List Event}
    (hag : s.agenda = .host (.startDec file) :: later) (hc : s.dec.regs.st.inCall = false)
    (hfits : fitsLen file = true) :
    step s = .next { s with dec := s.dec.start false file, agenda := later } := by
  rw [step_host s _ _ hag]
  simp [hostMove, hc, hfits]

/-- A file that begins with a legal header: the step loads its descriptor (R91 to R93). -/
theorem step_reads_header {s : State} {d : Cfg} {rest : List Byte} (hag : s.agenda = [])
    (he : s.enc.regs.st.inCall = false) (hs : s.dec.regs.st = .header) (ho : s.dec.bodyOnly = false)
    (hr : s.dec.headerRead = false) (hlegal : headerLegal d.w d.h d.c d.cs = true)
    (hfile : s.dec.fileIn = Memory.ofBytes (encode (.header d.w d.h d.c d.cs) ++ rest))
    (hlen : 14 ≤ s.dec.len.toNat) :
    step s = .next { s with active := .dec, dec := { s.dec with
      regs := { s.dec.regs with cfg := d }, headerRead := true, descOut := d } } := by
  have hfetch : s.dec.fetchHeader = encode (.header d.w d.h d.c d.cs) := by
    have hread := Memory.readBytes_ofBytes_part [] (encode (.header d.w d.h d.c d.cs)) rest
    have hbytes : min Config.headerBytes s.dec.len.toNat = 14 := Nat.min_eq_left hlen
    unfold Dec.fetchHeader
    rw [hfile, hbytes]
    exact hread
  have hdecode := decodeHeader_encode d.w d.h d.c d.cs []
  rw [List.append_nil] at hdecode
  have hstep : decStep { s with active := .dec } = exec (.header d.w d.h d.c d.cs) { s with active := .dec } := by
    simp only [decStep, hs, decHeaderStep, ho, hr, Bool.false_eq_true, if_false, hfetch, hdecode, execOrRaise]
  rw [step_dec_alone hag (by rw [hs]; rfl) he, hstep]
  exact exec_header_dec _ _ _ _ { s with active := .dec } rfl hlegal

/-- A file that ends with the trailer: once its header is read, the step begins the body (R91, R94). -/
theorem step_reads_trailer {s : State} {front : List Byte} (hag : s.agenda = []) (hd : s.active = .dec)
    (hs : s.dec.regs.st = .header) (ho : s.dec.bodyOnly = false) (hr : s.dec.headerRead = true)
    (hfile : s.dec.fileIn = Memory.ofBytes (front ++ trailerImage)) (hfront : 14 ≤ front.length)
    (hlen : s.dec.len.toNat = front.length + 8) :
    step s = .next { s with dec := { s.dec with regs := { s.dec.regs with st := .body } } } := by
  have hfetch : s.dec.fetchTrailer = trailerImage := by
    have hread := Memory.readBytes_ofBytes_part front trailerImage []
    have haddr : s.dec.len.toNat - Config.trailerBytes = front.length := by rw [hlen]; rfl
    rw [List.append_nil] at hread
    unfold Dec.fetchTrailer
    rw [hfile, haddr]
    exact hread
  have hroom : ¬ s.dec.len.toNat < Config.headerBytes + Config.trailerBytes := by
    have : Config.headerBytes + Config.trailerBytes = 22 := rfl
    omega
  have hdecode : decodeTrailer trailerImage = .ok .trailer := rfl
  have hstep : decStep s = exec .trailer s := by
    simp only [decStep, hs, decHeaderStep, ho, hr, Bool.false_eq_true, if_false, if_true, Dec.nextTrailer,
      if_neg hroom, hfetch, hdecode, execOrRaise]
  rw [step_dec s hag hd (by rw [hs]; rfl), hstep]
  exact exec_trailer_dec s hd

/-- The decoder once it has checked the container of a file with descriptor `d`, at the start of its body phase. -/
def Dec.containerRead (x : Dec) (d : Cfg) (file : List Byte) : Dec :=
  { x.start false file with
    regs := { x.regs.start with cfg := d, st := .body }
    headerRead := true
    descOut := d }

theorem length_fileOf (d : Cfg) (bs : List Byte) : (fileOf d bs).length = 22 + bs.length := by
  have hheader : (encode (.header d.w d.h d.c d.cs)).length = 14 := rfl
  have htrailer : trailerImage.length = 8 := rfl
  rw [fileOf, List.length_append, List.length_append, hheader, htrailer]
  omega

theorem Dec.start_len_toNat (x : Dec) {file : List Byte} (h : file.length < 2 ^ 64) :
    (x.start false file).len.toNat = file.length := by
  rw [Dec.start_len, BitVec.toNat_ofNat, Nat.mod_eq_of_lt h]

/-- Three steps take the host's start to the body of the file (R91; log 6). -/
theorem run_reads_container {s : State} {d : Cfg} {bs file : List Byte} (hfile : file = fileOf d bs)
    (hag : s.agenda = [.host (.startDec file)]) (he : s.enc.regs.st.inCall = false)
    (hc : s.dec.regs.st.inCall = false) (hlegal : headerLegal d.w d.h d.c d.cs = true)
    (hfits : 22 + bs.length < 2 ^ 64) :
    core.run 3 s = .next { s with agenda := [], active := .dec, dec := s.dec.containerRead d file } := by
  have hlength : file.length = 22 + bs.length := hfile ▸ length_fileOf d bs
  have hlen : (s.dec.start false file).len.toNat = 22 + bs.length :=
    (s.dec.start_len_toNat (by omega)).trans hlength
  have hfront : (encode (.header d.w d.h d.c d.cs) ++ bs).length = 14 + bs.length := List.length_append
  have hstart := step_startDec hag hc (decide_eq_true (hlength.trans_lt hfits))
  have hheader := step_reads_header (d := d) (rest := bs ++ trailerImage)
    (s := { s with dec := s.dec.start false file, agenda := [] })
    rfl he rfl rfl rfl hlegal (congrArg Memory.ofBytes (hfile.trans (List.append_assoc _ _ _))) (by rw [hlen]; omega)
  have htrailer := step_reads_trailer (front := encode (.header d.w d.h d.c d.cs) ++ bs)
    (s := { s with
      agenda := []
      active := .dec
      dec := { s.dec.start false file with
        regs := { s.dec.regs.start with cfg := d }, headerRead := true, descOut := d } })
    rfl rfl rfl rfl rfl (congrArg Memory.ofBytes hfile) (by omega) (hlen.trans (by omega))
  exact (run_succ 2 hstart).trans ((run_succ 1 hheader).trans (run_succ 0 htrailer))

/-- Of the body nothing is read yet. -/
theorem Dec.bodyLeft_containerRead (x : Dec) {d : Cfg} {bs file : List Byte} (hfile : file = fileOf d bs)
    (hfits : 22 + bs.length < 2 ^ 64) : (x.containerRead d file).bodyLeft bs := by
  have hlength : file.length = 22 + bs.length := hfile ▸ length_fileOf d bs
  have hbodyLen : (x.containerRead d file).bodyLen = (x.start false file).len.toNat - 22 := rfl
  have haddr : (x.containerRead d file).fetchAddr = 14 := rfl
  have hin : (x.containerRead d file).fileIn = Memory.ofBytes file := rfl
  unfold Dec.bodyLeft
  rw [hbodyLen, x.start_len_toNat (by omega), hlength, Nat.add_sub_cancel_left, haddr, hin, hfile]
  exact ⟨Nat.zero_add _, Memory.readBytes_ofBytes_part (encode (.header d.w d.h d.c d.cs)) bs trailerImage⟩

/-! ### The body and the end -/

/-- The last two steps of a decode call (R83, R115; log 6, log 7). -/
theorem run_ends {s : State} (hag : s.agenda = []) (hd : s.active = .dec) (hs : s.dec.regs.st = .body)
    (hn : s.dec.regs.pxi = s.dec.regs.cfg.n) :
    core.run 2 s = .next { s with dec := { s.dec with regs := s.dec.regs.setSt .done } } := by
  have hbody : step s = .next { s with dec := { s.dec with regs := s.dec.regs.setSt .trailer } } := by
    rw [step_dec s hag hd (by rw [hs]; rfl)]
    simp only [decStep, hs, decBodyStep, if_pos hn, decNext_eq]
  exact (run_succ 1 hbody).trans (run_succ 0 (step_dec _ hag hd rfl))

/-- With the container of the file read, the decoder follows the encoder that began to write it. -/
theorem follows_of_fresh {s : State} {e : Enc} {bs : List Byte} (hfresh : e.regs.fresh) (hag : s.agenda = [])
    (hd : s.active = .dec) {x : Dec} (hdec : s.dec = x.containerRead e.regs.cfg (fileOf e.regs.cfg bs))
    (hfits : 22 + bs.length < 2 ^ 64) : Follows e bs s := by
  obtain ⟨hprev, hcache, _, hpxi⟩ := hfresh
  unfold Follows
  rw [hdec, hprev, hcache, hpxi]
  exact ⟨hag, hd, rfl, rfl, rfl, rfl, rfl, x.bodyLeft_containerRead rfl hfits,
    fun j hj => absurd hj (Nat.not_lt_zero j), fun j _ hj => absurd hj (Nat.not_lt_zero j)⟩

/-- A decode call on the file of an encode call is done after the start, two steps for the container, one for each
cell and two for its end; it gives the encoder's descriptor and grid (R68, R91, R96). -/
theorem run_decodes {s : State} {e : Enc} {bs : List Byte} (hfresh : e.regs.fresh) (hrestore : e.restoredBy bs)
    (hag : s.agenda = [.host (.startDec (fileOf e.regs.cfg bs))]) (he : s.enc.regs.st.inCall = false)
    (hc : s.dec.regs.st.inCall = false) (hlegal : e.regs.cfg.legal) (hcs : e.regs.cfg.cs = 0 ∨ e.regs.cfg.cs = 1)
    (hfits : 22 + bs.length < 2 ^ 64) :
    ∃ t, core.run (e.regs.cfg.n.toNat + 5) s = .next t ∧ t.dec.regs.st = .done ∧ t.dec.descOut = e.regs.cfg
      ∧ ∀ j < e.regs.cfg.n.toNat, t.dec.pixOut.cell e.regs.cfg.c j = e.pixIn.mem.cell e.regs.cfg.c j := by
  obtain ⟨hcc, hw, hh⟩ := hlegal
  have hread := run_reads_container rfl hag he hc ((headerLegal_iff _ _ _ _).2 ⟨hw, hh, hcc, hcs⟩) hfits
  have hfollows := follows_of_fresh (s := { s with
    agenda := [], active := .dec, dec := s.dec.containerRead e.regs.cfg (fileOf e.regs.cfg bs) })
    hfresh rfl rfl rfl hfits
  obtain ⟨_, _, hrun, hpxi⟩ := hfresh
  obtain ⟨t, ht, hag', hd', hst, hcfg, hdesc, hn, hshows⟩ := hrestore _ hfollows rfl (by rw [hrun, hpxi]; rfl)
  have hend := run_ends hag' hd' hst (hcfg ▸ hn)
  have hsteps : e.regs.cfg.n.toNat + 5 = 3 + (e.regs.cfg.n.toNat + 2) := by omega
  rw [hsteps]
  refine ⟨_, (run_add 3 _ hread).trans ((run_add _ 2 ht).trans hend), rfl, hdesc, fun j hj => ?_⟩
  rw [← hcfg]
  exact hshows j (by rwa [hn])

/-! ### The round trip -/

/-- The encode call whole, from the descriptor's write on. -/
theorem run_encode_call {s : State} {d : Cfg} {ps : List (List Byte)} {moves : List HostMove}
    (henc : s.enc.regs.st.inCall = false) (hdec : s.dec.regs.st.inCall = false) (hlegal : d.legal)
    (hlen : ps.length = d.n.toNat) (hchans : ∀ p ∈ ps, p.length = d.c.toNat)
    (hmoves : moves = [.startEnc ps]
      ∨ ∃ qs : List Pixel, ps = qs.map (channelBytes d.c) ∧ moves = .startStream :: qs.map .pixel) :
    ∃ (t : State) (e : Enc) (bs : List Byte), core.run (moves.length + d.n.toNat + 4)
        { s with agenda := .host (.writeCfg .enc d) :: moves.map .host } = .next t
      ∧ t.dec = s.dec ∧ t.enc.regs.st = .done ∧ t.enc.result = .ok (fileOf d bs)
      ∧ bs.length ≤ d.n.toNat * (d.c.toNat + 1)
      ∧ e.regs.fresh ∧ e.regs.cfg = d ∧ e.pixIn = Grid.ofPixels ps ∧ e.restoredBy bs := by
  have hwrite := step_writeCfg_enc (d := d)
    (s := { s with agenda := .host (.writeCfg .enc d) :: moves.map .host }) rfl henc
  obtain ⟨r, streamed, hr, hag, hrdec, hrenc⟩ := run_starts (ps := ps) (moves := moves)
    (s := { s with enc := { s.enc with regs := s.enc.regs.setCfg d }, agenda := moves.map .host })
    rfl henc hlen hmoves
  obtain ⟨t, bs, ht, _, htdec, hst, hresult, hbody, hrestore⟩ :=
    run_encodes hag (hrdec ▸ hdec) hrenc hlegal hlen hchans
  have hsteps : moves.length + d.n.toNat + 4 = moves.length + (d.n.toNat + 3) + 1 := by omega
  rw [hsteps]
  exact ⟨t, _, bs, (run_succ _ hwrite).trans ((run_add _ _ hr).trans ht), htdec.trans hrdec, hst, hresult, hbody,
    Regs.fresh_start (s.enc.regs.setCfg d), rfl, rfl, hrestore⟩

/-- Settles O60: the encode call's file holds what restores its grid, the decode call follows from its first byte, and
the cells it shows are the pixels handed over. -/
theorem decodeOfEncodeReturnsGridAndDescriptor : Obligations.DecodeOfEncodeReturnsGridAndDescriptor := by
  unfold Obligations.DecodeOfEncodeReturnsGridAndDescriptor
  intro s d ps moves henc hdec hlegal hcs hlen hchans hsize hmoves
  obtain ⟨t, e, bs, ht, htdec, htst, hresult, hbody, hfresh, rfl, hpix, hrestore⟩ :=
    run_encode_call henc hdec hlegal hlen hchans hmoves
  have hfits : 22 + bs.length < 2 ^ 64 := (Nat.add_le_add_left hbody 22).trans_lt hsize
  obtain ⟨u, hu, hust, hudesc, hcells⟩ := run_decodes
    (s := { t with agenda := [.host (.startDec (fileOf e.regs.cfg bs))] }) hfresh hrestore rfl
    (by rw [htst]; rfl) (by rw [htdec]; exact hdec) hlegal hcs hfits
  refine ⟨t, u, _, ht, hresult, hu, ?_⟩
  have hgrid : u.dec.pixOut.readPixels e.regs.cfg.c.toNat 0 e.regs.cfg.n.toNat = ps := by
    rw [← hlen]
    refine readPixels_eq_of_cells fun j hj => ?_
    rw [Nat.zero_add, hcells j (hlen ▸ hj), hpix, cell_ofPixels hlegal.channels_le hchans hj]
  simp only [Dec.result, hust, hudesc, hgrid]

end Sys2Proof.Machine
end

section
/-! SUPPORT. The six records executed in the decoder, each as one effect with its frame (R76 to R81). With these the
three statements on the decoder's records are settled. -/

namespace Sys2Proof.Machine

/-- INDEX produces the pixel of its slot and leaves the cache (R49, R78). -/
theorem exec_index_dec_effect (i : Slot) {s : State} (h : s.active = .dec) :
    ∃ t, exec (.index i) s = .next t ∧ decEffect s t s.dec.regs.cache[i] 1 s.dec.regs.run false :=
  ⟨_, exec_index_dec i s h, rfl, rfl, rfl, rfl, cacheAfter_of_eq _ rfl, rfl, rfl, sameControl_refl _, rfl, rfl, rfl,
    rfl, rfl, rfl, stores_writeBytes _ _ _⟩

theorem exec_diff_dec_effect (dr dg db : Int) {s : State} (h : s.active = .dec) :
    ∃ t, exec (.diff dr dg db) s = .next t
      ∧ decEffect s t (diffPixel s.dec.regs.prev dr dg db) 1 s.dec.regs.run true :=
  ⟨_, exec_diff_dec dr dg db s h, newPixel_effect s 1 _⟩

theorem exec_luma_dec_effect (dg drDg dbDg : Int) {s : State} (h : s.active = .dec) :
    ∃ t, exec (.luma dg drDg dbDg) s = .next t
      ∧ decEffect s t (lumaPixel s.dec.regs.prev dg drDg dbDg) 2 s.dec.regs.run true :=
  ⟨_, exec_luma_dec dg drDg dbDg s h, newPixel_effect s 2 _⟩

theorem exec_rgb_dec_effect (r g b : Byte) {s : State} (h : s.active = .dec) (hc : s.dec.regs.cfg.c = 3) :
    ∃ t, exec (.rgb r g b) s = .next t ∧ decEffect s t ⟨r, g, b, 255⟩ 4 s.dec.regs.run true :=
  ⟨_, exec_rgb_dec r g b s h hc, newPixel_effect s 4 _⟩

theorem exec_rgba_dec_effect (r g b a : Byte) {s : State} (h : s.active = .dec) (hc : s.dec.regs.cfg.c = 4) :
    ∃ t, exec (.rgba r g b a) s = .next t ∧ decEffect s t ⟨r, g, b, a⟩ 5 s.dec.regs.run true :=
  ⟨_, exec_rgba_dec r g b a s h hc, newPixel_effect s 5 _⟩

/-- Settles O10: both literals are new pixels, of 4 and of 5 bytes. -/
theorem decoderLiteralsComplete : Obligations.DecoderLiteralsComplete := by
  unfold Obligations.DecoderLiteralsComplete
  exact ⟨fun _ r g b => exec_rgb_dec_effect r g b, fun _ r g b a => exec_rgba_dec_effect r g b a⟩

/-- Settles O11: both are new pixels, whose channels are the sums modulo 256. -/
theorem decoderDeltasComplete : Obligations.DecoderDeltasComplete := by
  unfold Obligations.DecoderDeltasComplete
  exact ⟨fun _ dr dg db => exec_diff_dec_effect dr dg db, fun _ dg drDg dbDg => exec_luma_dec_effect dg drDg dbDg⟩

/-- Settles O12: neither record writes the cache, and `n - 1` fits the 6 bits of `RUN`. -/
theorem decoderIndexAndRunComplete : Obligations.DecoderIndexAndRunComplete := by
  unfold Obligations.DecoderIndexAndRunComplete
  refine ⟨fun _ i => exec_index_dec_effect i, fun s n hd hn hn' => ?_⟩
  obtain ⟨t, ht, heff⟩ := exec_run_dec_effect n hd
  refine ⟨t, ht, heff, ?_⟩
  obtain ⟨_, _, _, _, _, hrun, _⟩ := heff
  rw [hrun, BitVec.toNat_ofNat]
  omega

end Sys2Proof.Machine
end

section
/-! SUPPORT. The decoder's body step by the tag at `POS`: the record of that tag (R76 to R81), `MalformedStream` for a
literal of the other channel count (R82), `TruncatedStream` for a record that the body cuts short (R74). With these the
statements on the decoder's body steps are settled. -/

namespace Sys2Proof.Machine

theorem decReady.active {s : State} (h : decReady s) : s.active = .dec := by
  obtain ⟨_, hd, _⟩ := h
  exact hd

theorem decReady.run_eq {s : State} (h : decReady s) : s.dec.regs.run = 0 := by
  obtain ⟨_, _, _, _, hr⟩ := h
  exact hr

/-! ### A record cut short -/

/-- With a tag there, only the rest of its record can be missing. -/
theorem decodeRecord_cons_error {t : Byte} {bs : List Byte} {e : DecodeError}
    (h : decodeRecord (t :: bs) = .error e) : e = .shortRecord t := by
  simp only [decodeRecord] at h
  repeat' split at h
  all_goals cases h
  all_goals rfl

/-- Fewer bytes than the tag asks for are no record. -/
theorem decodeRecord_of_short {t : Byte} {bs : List Byte} (h : (t :: bs).length < tagLength t) :
    decodeRecord (t :: bs) = .error (.shortRecord t) := by
  cases hd : decodeRecord (t :: bs) with
  | error e => rw [decodeRecord_cons_error hd]
  | ok x =>
    have hlen := (decodeRecord_ok hd).2
    have hsize := size_eq_tagLength hd
    omega

theorem tagLength_le (t : Byte) : tagLength t ≤ 5 := by
  rw [tagLength_eq]
  split_ifs <;> decide

theorem literalMismatch_iff (t c : Byte) :
    literalMismatch t c = true ↔ (t = 0xFE ∧ c ≠ 3) ∨ (t = 0xFF ∧ c ≠ 4) := by
  simp [literalMismatch]

/-- With no byte left there is no tag (R74). -/
theorem step_noTag {s : State} (h : decReady s) (hnone : ¬ s.dec.has 1) :
    step s = .next (s.raise .truncatedStream) :=
  step_raises (e := .noTag) h (by rw [fetchRecord_nil hnone]; rfl)

/-- The tag decides which error a record cut short raises (R74, R82). -/
theorem step_short {s : State} (h : decReady s) (htag : s.dec.has 1)
    (hshort : ¬ s.dec.has (tagLength (s.dec.fetch 0))) :
    step s = .next (s.raise (errorOf s.dec.regs.cfg.c (.shortRecord (s.dec.fetch 0)))) := by
  obtain ⟨rest, hfetch, hlen⟩ := fetchRecord_cons htag
  have hlong := tagLength_le (s.dec.fetch 0)
  refine step_raises h ?_
  rw [hfetch]
  refine decodeRecord_of_short ?_
  unfold Dec.has at htag hshort
  rw [List.length_cons]
  omega

/-- A body without the whole record of its tag, or without a tag, is truncated (R74). -/
theorem step_truncated {s : State} (h : decReady s) (hm : literalMismatch (s.dec.fetch 0) s.dec.regs.cfg.c = false)
    (hshort : ¬ s.dec.has (tagLength (s.dec.fetch 0))) : step s = .next (s.raise .truncatedStream) := by
  by_cases htag : s.dec.has 1
  · rw [step_short h htag hshort, errorOf, hm]
    rfl
  · exact step_noTag h htag

/-- The bytes of a whole RGB are executed, whatever the channel count (R76). -/
theorem step_rgb {s : State} (h : decReady s) (htag : s.dec.fetch 0 = 0xFE) (hwhole : s.dec.has 4) :
    step s = exec (.rgb (s.dec.fetch 1) (s.dec.fetch 2) (s.dec.fetch 3)) s := by
  obtain ⟨rest, hfetch⟩ := fetchRecord_cons4 hwhole
  rw [htag] at hfetch
  exact step_runs h (hfetch ▸ decodeRecord_rgbTag _ _ _ rest)

/-- The same of RGBA (R77). -/
theorem step_rgba {s : State} (h : decReady s) (htag : s.dec.fetch 0 = 0xFF) (hwhole : s.dec.has 5) :
    step s = exec (.rgba (s.dec.fetch 1) (s.dec.fetch 2) (s.dec.fetch 3) (s.dec.fetch 4)) s := by
  obtain ⟨rest, hfetch⟩ := fetchRecord_cons5 hwhole
  rw [htag] at hfetch
  exact step_runs h (hfetch ▸ decodeRecord_rgbaTag _ _ _ _ rest)

/-- The error of a literal of the other channel count comes before the length of its record (R82). -/
theorem step_malformed {s : State} (h : decReady s) (htag : s.dec.has 1)
    (hm : literalMismatch (s.dec.fetch 0) s.dec.regs.cfg.c = true) :
    step s = .next (s.raise .malformedStream) := by
  by_cases hwhole : s.dec.has (tagLength (s.dec.fetch 0))
  · obtain ⟨hFE, hc⟩ | ⟨hFF, hc⟩ := (literalMismatch_iff _ _).1 hm
    · rw [hFE] at hwhole
      rw [step_rgb h hFE hwhole, exec_rgb_dec_mismatch _ _ _ s h.active hc]
    · rw [hFF] at hwhole
      rw [step_rgba h hFF hwhole, exec_rgba_dec_mismatch _ _ _ _ s h.active hc]
  · rw [step_short h htag hwhole, errorOf, hm]
    rfl

theorem step_rgb_truncated {s : State} (h : decReady s) (htag : s.dec.fetch 0 = 0xFE) (hc : s.dec.regs.cfg.c = 3)
    (hshort : ¬ s.dec.has 4) : step s = .next (s.raise .truncatedStream) :=
  step_truncated h (by rw [htag, hc]; rfl) (by rw [htag]; exact hshort)

theorem step_rgba_truncated {s : State} (h : decReady s) (htag : s.dec.fetch 0 = 0xFF) (hc : s.dec.regs.cfg.c = 4)
    (hshort : ¬ s.dec.has 5) : step s = .next (s.raise .truncatedStream) :=
  step_truncated h (by rw [htag, hc]; rfl) (by rw [htag]; exact hshort)

theorem step_luma_truncated {s : State} (h : decReady s)
    (htag : 0x80 ≤ (s.dec.fetch 0).toNat ∧ (s.dec.fetch 0).toNat ≤ 0xBF) (hshort : ¬ s.dec.has 2) :
    step s = .next (s.raise .truncatedStream) := by
  have hle : (s.dec.fetch 0).toNat ≤ 0xFD := by omega
  obtain ⟨hFF, hFE⟩ := ne_literal_of_le hle
  refine step_truncated h (literalMismatch_other _ _ hFE hFF) ?_
  rw [tagLength_of_le hle, if_pos htag]
  exact hshort

/-- Settles O27: without a tag nothing is fetched, and each longer record is cut short. -/
theorem shortBodyIsTruncated : Obligations.ShortBodyIsTruncated := by
  unfold Obligations.ShortBodyIsTruncated
  intro s h
  exact ⟨step_noTag h, fun _ htag hc => step_rgb_truncated h htag hc,
    fun _ htag hc => step_rgba_truncated h htag hc, fun _ hlo hhi => step_luma_truncated h ⟨hlo, hhi⟩⟩

/-! ### A whole record -/

/-- Settles O20: the whole record, the record cut short, and the literal of the other channel count. -/
theorem rgbRecordStep : Obligations.RgbRecordStep := by
  unfold Obligations.RgbRecordStep
  intro s h htag
  refine ⟨fun hc hwhole => ?_, step_rgb_truncated h htag, fun hc hone => step_malformed h hone (by rw [htag, hc]; rfl)⟩
  rw [step_rgb h htag hwhole]
  rw [← h.run_eq]
  exact exec_rgb_dec_effect _ _ _ h.active hc

/-- Settles O21: the whole record, the record cut short, and the literal of the other channel count. -/
theorem rgbaRecordStep : Obligations.RgbaRecordStep := by
  unfold Obligations.RgbaRecordStep
  intro s h htag
  refine ⟨fun hc hwhole => ?_, step_rgba_truncated h htag,
    fun hc hone => step_malformed h hone (by rw [htag, hc]; rfl)⟩
  rw [step_rgba h htag hwhole]
  rw [← h.run_eq]
  exact exec_rgba_dec_effect _ _ _ _ h.active hc

/-- Settles O22: a tag below 40 is the slot number itself. -/
theorem indexRecordStep : Obligations.IndexRecordStep := by
  unfold Obligations.IndexRecordStep
  intro s i h hone htag
  have hlt := i.isLt
  obtain ⟨rest, hfetch, _⟩ := fetchRecord_cons hone
  have hdec : decodeRecord s.dec.fetchRecord = .ok (.index i, rest) := by
    rw [hfetch, decodeRecord_indexTag (by omega), htag, Fin.ofNat_val_eq_self]
  rw [step_runs h hdec]
  rw [← h.run_eq]
  exact exec_index_dec_effect i h.active

/-- Settles O23: the operands read are the three fields, each less its bias. -/
theorem diffRecordStep : Obligations.DiffRecordStep := by
  unfold Obligations.DiffRecordStep
  intro s h hone hlo hhi
  obtain ⟨rest, hfetch, _⟩ := fetchRecord_cons hone
  rw [step_runs h (hfetch ▸ decodeRecord_diffTag ⟨hlo, hhi⟩ rest), diffOf, bits_54, bits_32, bits_10]
  rw [← h.run_eq, add_sub_assoc, add_sub_assoc, add_sub_assoc]
  exact exec_diff_dec_effect _ _ _ h.active

/-- The LUMA that two bytes spell, by its deltas of R80. -/
theorem lumaOf_eq {t b : Byte} (ht : 0x80 ≤ t.toNat ∧ t.toNat ≤ 0xBF) :
    lumaOf t b = .luma ((t.toNat : Int) - 0x80 - 32) (((b.toNat / 16 : Nat) : Int) - 8)
      (((b.toNat % 16 : Nat) : Int) - 8) := by
  have hfield : ((t.toNat % 64 : Nat) : Int) - 32 = (t.toNat : Int) - 0x80 - 32 := by omega
  rw [lumaOf, bits_50, bits_74, bits_30, hfield]

/-- Settles O24: the operands read are the fields less their biases, and the record needs its second byte. -/
theorem lumaRecordStep : Obligations.LumaRecordStep := by
  unfold Obligations.LumaRecordStep
  intro s h _ hlo hhi
  refine ⟨fun hwhole dg dr db hdg hdr hdb => ?_, step_luma_truncated h ⟨hlo, hhi⟩⟩
  obtain ⟨rest, hfetch⟩ := fetchRecord_cons2 hwhole
  rw [step_runs h (hfetch ▸ decodeRecord_lumaTag ⟨hlo, hhi⟩ _ rest), lumaOf_eq ⟨hlo, hhi⟩, ← hdg]
  rw [← h.run_eq, hdr, hdb]
  exact exec_luma_dec_effect _ _ _ h.active

/-- Settles O25: the record read stands for one cell more than its field. -/
theorem runRecordStep : Obligations.RunRecordStep := by
  unfold Obligations.RunRecordStep
  intro s h hone hlo hhi
  obtain ⟨rest, hfetch, _⟩ := fetchRecord_cons hone
  obtain ⟨t, ht, heff⟩ := exec_run_dec_effect ((s.dec.fetch 0).toNat - 0xC0 + 1) h.active
  rw [Nat.add_sub_cancel] at heff
  exact ⟨t, by rw [step_runs h (hfetch ▸ decodeRecord_runTag ⟨hlo, hhi⟩ rest), ht], heff⟩

/-! ### Every body step -/

/-- Settles O26: the step is a cell of the open run. -/
theorem runContinuationStep : Obligations.RunContinuationStep := by
  unfold Obligations.RunContinuationStep
  intro s hag hd hb hn hr
  exact ⟨_, step_continues hag hd hb hn hr, continueRun_effect s, rfl⟩

/-- Settles O42: an open run is continued; else the bytes at `POS` are no record, or one that is executed. -/
theorem decoderBodyStepIsTotal : Obligations.DecoderBodyStepIsTotal := by
  unfold Obligations.DecoderBodyStepIsTotal
  intro s hag hd hb hn
  by_cases hr : s.dec.regs.run = 0
  · cases hx : decodeRecord s.dec.fetchRecord with
    | error e =>
      rw [step_raises ⟨hag, hd, hb, hn, hr⟩ hx]
      rcases decodeRecord_error s.dec.regs.cfg.c hx with he | he
      · exact .inl (by rw [he])
      · exact .inr (.inl (by rw [he]))
    | ok x =>
      rw [step_runs ⟨hag, hd, hb, hn, hr⟩ hx]
      rcases exec_record_dec x.1 s hd (decodeRecord_ok hx).1 with hm | ⟨t, p, run, updates, ht, heff, _⟩
      · exact .inr (.inl hm)
      · exact .inr (.inr ⟨t, p, _, run, updates, ht, heff⟩)
  · exact .inr (.inr ⟨_, _, _, _, _, step_continues hag hd hb hn hr, continueRun_effect s⟩)

/-- A decoder in its body, with cells left and no run open, executes the record at `POS`. -/
theorem decStep_runs {s : State} {i : Instr} {rest : List Byte} (hb : s.dec.regs.st = .body)
    (hn : s.dec.regs.pxi ≠ s.dec.regs.cfg.n) (hr : s.dec.regs.run = 0)
    (hi : decodeRecord s.dec.fetchRecord = .ok (i, rest)) : decStep s = exec i s := by
  simp only [decStep, hb, decBodyStep, if_neg hn, hr, ne_eq, not_true, if_false, Dec.nextRecord, hi, execOrRaise]

/-- Settles O18: whoever says that the decoder moves, its step is the record's. -/
theorem stepRunsTheDecodedRecord : Obligations.StepRunsTheDecodedRecord := by
  unfold Obligations.StepRunsTheDecodedRecord
  intro s i rest hb hn hr hi
  refine ⟨fun hag hd => step_runs ⟨hag, hd, hb, hn, hr⟩ hi, fun later hag => ?_⟩
  rw [step_run s .dec later hag]
  exact decStep_runs (s := { s with active := .dec, agenda := later }) hb hn hr hi

/-- Settles O29: the two steps that end a decode call look at `ST` and `PXI` alone. -/
theorem fullGridEndsTheDecode : Obligations.FullGridEndsTheDecode := by
  unfold Obligations.FullGridEndsTheDecode
  exact fun s hag hd hb hn => run_ends hag hd hb hn

end Sys2Proof.Machine
end

section
/-! SUPPORT. The entry of a body-only decode (R86), and that every step has a next state (R84, R106). With these the last
two statements on the decoder are settled. -/

namespace Sys2Proof.Machine

/-! ### The body-only entry -/

theorem Dec.checkBodyOnly_of_channels {d : Dec} (h : ¬ (d.regs.cfg.c = 3 ∨ d.regs.cfg.c = 4)) :
    d.checkBodyOnly = some .unsupportedChannelLayout :=
  if_pos ((channelsLegal_false_iff _).2 h)

theorem Dec.checkBodyOnly_of_dimension {d : Dec} (hc : d.regs.cfg.c = 3 ∨ d.regs.cfg.c = 4)
    (h : d.regs.cfg.w = 0 ∨ d.regs.cfg.h = 0) : d.checkBodyOnly = some .consistencyError := by
  rw [Dec.checkBodyOnly, if_neg ((channelsLegal_false_iff _).not_left.2 hc), if_pos h]

theorem Dec.checkBodyOnly_of_legal {d : Dec} (h : d.regs.cfg.legal) : d.checkBodyOnly = none := by
  obtain ⟨hc, hw, hh⟩ := h
  rw [Dec.checkBodyOnly, if_neg ((channelsLegal_false_iff _).not_left.2 hc), if_neg (not_or.2 ⟨hw, hh⟩)]

section
variable {s : State} (hag : s.agenda = []) (hd : s.active = .dec) (hs : s.dec.regs.st = .header)
  (ho : s.dec.bodyOnly = true)
include hag hd hs ho

theorem step_bodyOnly_raises {k : ErrKind} (hk : s.dec.checkBodyOnly = some k) :
    step s = .next (s.raise k) := by
  rw [step_header hag hd hs, decHeaderStep, if_pos ho, hk]

theorem step_bodyOnly_begins (hk : s.dec.checkBodyOnly = none) :
    step s = .next { s with dec := { s.dec with
      regs := { s.dec.regs with st := .body }, descOut := s.dec.regs.cfg } } := by
  rw [step_header hag hd hs, decHeaderStep, if_pos ho, hk]
  rfl

end

/-- Settles O32: the first check that fails raises its error; the body of this entry is the whole sequence. -/
theorem bodyOnlyEntryChecksTheDescriptor : Obligations.BodyOnlyEntryChecksTheDescriptor := by
  unfold Obligations.BodyOnlyEntryChecksTheDescriptor
  intro s hag hd hs ho
  refine ⟨fun hc => ?_, fun hc hdim => ?_, fun hc hw hh => ⟨?_, if_pos ho, if_pos ho⟩⟩
  · exact step_bodyOnly_raises hag hd hs ho (Dec.checkBodyOnly_of_channels hc)
  · exact step_bodyOnly_raises hag hd hs ho (Dec.checkBodyOnly_of_dimension hc hdim)
  · exact step_bodyOnly_begins hag hd hs ho (Dec.checkBodyOnly_of_legal ⟨hc, hw, hh⟩)

/-! ### Every step -/

/-- A step of either engine has a next state, in every state (R84, R106). -/
theorem exists_engineStep (s : State) : ∃ t, engineStep s = .next t := by
  cases ha : s.active with
  | enc =>
    obtain ⟨e', hacts⟩ := encStep_encActs s.enc
    exact ⟨_, by rw [engineStep, ha]; exact hacts s ha rfl⟩
  | dec =>
    obtain ⟨d', hacts⟩ := decStep_decActs s.dec
    exact ⟨_, by rw [engineStep, ha]; exact hacts s ha rfl⟩

/-- Settles O43: the step is an engine's, which always has a next state, or a move of the host, which is one. -/
theorem everyStepHasANextState : Obligations.EveryStepHasANextState := by
  unfold Obligations.EveryStepHasANextState
  intro s
  unfold step
  split
  · exact exists_engineStep _
  · exact exists_engineStep _
  · exact ⟨_, rfl⟩

end Sys2Proof.Machine
end

section
/-! SUPPORT. The two container items on both engines: what `exec` of each does, the bytes that the decoder's checks of
R91 look at, and the encoder's checks of R90. With these the statements on the container are settled. -/

namespace Sys2Proof

/-! ### Big-endian words and the container decoders -/

/-- The bytes of a word as its bit fields, the highest first (R10, R28). -/
theorem be32_eq_extractLsb' (w : Word) :
    be32 w = [w.extractLsb' 24 8, w.extractLsb' 16 8, w.extractLsb' 8 8, w.extractLsb' 0 8] := by
  simp [be32, BitVec.extractLsb', Nat.shiftRight_eq_div_pow]

/-- The 14 bytes of a HEADER, each field at its place (R43). -/
theorem encode_header (w h : Word) (c cs : Byte) :
    encode (.header w h c cs) = [0x71, 0x6F, 0x69, 0x66,
      w.extractLsb' 24 8, w.extractLsb' 16 8, w.extractLsb' 8 8, w.extractLsb' 0 8,
      h.extractLsb' 24 8, h.extractLsb' 16 8, h.extractLsb' 8 8, h.extractLsb' 0 8, c, cs] := by
  rw [encode, be32_eq_extractLsb', be32_eq_extractLsb']
  rfl

theorem decodeHeader_of_short {bs : List Byte} (h : bs.length < 14) : decodeHeader bs = .error .shortHeader :=
  if_pos h

theorem decodeHeader_of_ne_magic {bs : List Byte} (h : 14 ≤ bs.length) (hmagic : bs.take 4 ≠ magic) :
    decodeHeader bs = .error .notMagic := by
  have hlen : ¬ bs.length < Config.headerBytes := Nat.not_lt.2 h
  rw [decodeHeader, if_neg hlen, if_pos hmagic]

theorem decodeHeader_of_magic {bs : List Byte} (h : 14 ≤ bs.length) (hmagic : bs.take 4 = magic) :
    decodeHeader bs = .ok (.header (unbe32 (bs.drop 4)) (unbe32 (bs.drop 8)) (bs.getD 12 0) (bs.getD 13 0)) := by
  have hlen : ¬ bs.length < Config.headerBytes := Nat.not_lt.2 h
  rw [decodeHeader, if_neg hlen, if_neg (not_not.2 hmagic)]

theorem decodeTrailer_of_ne {bs : List Byte} (h : bs.length = 8) (hne : bs ≠ trailerImage) :
    decodeTrailer bs = .error .notTrailer := by
  have hlen : ¬ bs.length < Config.trailerBytes := Nat.not_lt.2 h.ge
  rw [decodeTrailer, if_neg hlen, List.take_of_length_le h.le, if_pos hne]

namespace Machine

/-! ### `exec` of the container items -/

/-- Settles O17: each item's bytes are its encoding, and `RUN` stays. -/
theorem encoderContainerItemsComplete : Obligations.EncoderContainerItemsComplete := by
  unfold Obligations.EncoderContainerItemsComplete
  refine ⟨fun s w h c cs ha => ⟨_, exec_header_enc w h c cs s ha, ?_⟩,
    fun s ha => ⟨_, exec_trailer_enc s ha, ?_⟩⟩
  · have hwrites := emit_writes s (encode (.header w h c cs)) s.enc.regs.run .body
    rw [encode_header] at hwrites ⊢
    exact hwrites
  · exact emit_writes s trailerImage s.enc.regs.run .done

/-- Settles O13: the fields are legal exactly as R93 lists them. -/
theorem decoderHeaderLoadsDescriptor : Obligations.DecoderHeaderLoadsDescriptor := by
  unfold Obligations.DecoderHeaderLoadsDescriptor
  intro s w h c cs hd
  have hlegal := headerLegal_iff w h c cs
  exact ⟨fun hf => exec_header_dec w h c cs s hd (hlegal.2 hf),
    fun hf => exec_header_dec_illegal w h c cs s hd (hlegal.not.2 hf)⟩

/-- Settles O14: it is what `exec` of TRAILER is in the decoder. -/
theorem decoderTrailerBeginsTheBody : Obligations.DecoderTrailerBeginsTheBody := by
  unfold Obligations.DecoderTrailerBeginsTheBody
  exact exec_trailer_dec

/-! ### The bytes the container reader looks at -/

theorem length_fetchHeader (d : Dec) : d.fetchHeader.length = min 14 d.len.toNat :=
  Memory.length_readBytes _ _ _

theorem fetchHeader_eq {d : Dec} (h : 14 ≤ d.len.toNat) : d.fetchHeader = d.fileIn.readBytes 0 14 :=
  congrArg (d.fileIn.readBytes 0) (Nat.min_eq_left h)

theorem length_fetchTrailer (d : Dec) : d.fetchTrailer.length = 8 :=
  Memory.length_readBytes _ _ _

/-- Four bytes of a space read as a big-endian word (R28). -/
theorem unbe32_readBytes (m : Memory) (a : Nat) :
    (unbe32 (m.readBytes a 4)).toNat = (m.read a).toNat * 2 ^ 24 + (m.read (a + 1)).toNat * 2 ^ 16
      + (m.read (a + 2)).toNat * 2 ^ 8 + (m.read (a + 3)).toNat :=
  unbe32_toNat _ _ _ _ []

/-- The HEADER of a space that begins with the magic, field by field (R43, R92). -/
theorem decodeHeader_readBytes {m : Memory} (hmagic : m.readBytes 0 4 = magic) :
    decodeHeader (m.readBytes 0 14)
      = .ok (.header (unbe32 (m.readBytes 4 4)) (unbe32 (m.readBytes 8 4)) (m.read 12) (m.read 13)) :=
  decodeHeader_of_magic (Memory.length_readBytes m 0 14).ge hmagic

theorem Dec.nextTrailer_of_short {d : Dec} (h : d.len.toNat < 22) : d.nextTrailer = .error .shortTrailer :=
  if_pos h

theorem Dec.nextTrailer_of_room {d : Dec} (h : 22 ≤ d.len.toNat) : d.nextTrailer = decodeTrailer d.fetchTrailer :=
  if_neg (Nat.not_lt.2 h)

/-! ### The steps of a decode call in HEADER -/

section
variable {s : State} (hag : s.agenda = []) (hd : s.active = .dec) (hs : s.dec.regs.st = .header)
  (ho : s.dec.bodyOnly = false)
include hag hd hs ho

/-- Before the header is read, the step is what the file's first bytes decode to (R91 checks 1 to 3). -/
theorem step_fileStart (hr : s.dec.headerRead = false) :
    step s = execOrRaise (decodeHeader s.dec.fetchHeader) s := by
  rw [step_header hag hd hs, decHeaderStep, ho, hr]
  rfl

/-- Once it is read, the step is what the file's last bytes decode to (R91 checks 4 and 5; log 6). -/
theorem step_fileEnd (hr : s.dec.headerRead = true) : step s = execOrRaise s.dec.nextTrailer s := by
  rw [step_header hag hd hs, decHeaderStep, ho, hr]
  rfl

end

/-- Settles O30: the length, the magic and the fields of the first 14 bytes, in the order `decodeHeader` asks for
them. -/
theorem headerChecksComeInOrder : Obligations.HeaderChecksComeInOrder := by
  unfold Obligations.HeaderChecksComeInOrder
  intro s w h hag hd hs ho hr hw hh
  rw [step_fileStart hag hd hs ho hr]
  refine ⟨fun hshort => ?_, fun hlen hne => ?_, fun hlen hmagic => ?_⟩
  · rw [decodeHeader_of_short (by rw [length_fetchHeader]; omega)]
    rfl
  · rw [fetchHeader_eq hlen, decodeHeader_of_ne_magic (Memory.length_readBytes _ 0 14).ge hne]
    rfl
  · have hw' : unbe32 (s.dec.fileIn.readBytes 4 4) = w :=
      BitVec.eq_of_toNat_eq ((unbe32_readBytes _ 4).trans hw.symm)
    have hh' : unbe32 (s.dec.fileIn.readBytes 8 4) = h :=
      BitVec.eq_of_toNat_eq ((unbe32_readBytes _ 8).trans hh.symm)
    rw [fetchHeader_eq hlen, decodeHeader_readBytes hmagic, hw', hh']
    rfl

/-- Settles O31: the room for a trailer is asked for before its bytes. -/
theorem trailerIsCheckedBeforeTheBody : Obligations.TrailerIsCheckedBeforeTheBody := by
  unfold Obligations.TrailerIsCheckedBeforeTheBody
  intro s hag hd hs ho hr
  rw [step_fileEnd hag hd hs ho hr]
  refine ⟨fun hshort => ?_, fun hroom hne => ?_, fun hroom himage => ?_⟩
  · rw [Dec.nextTrailer_of_short hshort]
    rfl
  · rw [Dec.nextTrailer_of_room hroom, decodeTrailer_of_ne (length_fetchTrailer s.dec) hne]
    rfl
  · have hfetch : s.dec.fetchTrailer = trailerImage := himage
    rw [Dec.nextTrailer_of_room hroom, hfetch]
    exact exec_trailer_dec s hd

/-! ### The checks of an encode call -/

theorem Enc.gridFits_iff (e : Enc) :
    e.gridFits = true ↔ e.pixIn.chans.length = e.regs.cfg.w.toNat * e.regs.cfg.h.toNat
      ∧ ∀ k ∈ e.pixIn.chans, k = e.regs.cfg.c.toNat := by
  simp [Enc.gridFits, n_toNat]

theorem Enc.gridFits_false_iff (e : Enc) :
    e.gridFits = false ↔ e.pixIn.chans.length ≠ e.regs.cfg.w.toNat * e.regs.cfg.h.toNat
      ∨ ∃ k ∈ e.pixIn.chans, k ≠ e.regs.cfg.c.toNat := by
  rw [← Bool.not_eq_true, e.gridFits_iff, not_and_or]
  push Not
  rfl

theorem Enc.check_of_channels {e : Enc} (h : ¬ (e.regs.cfg.c = 3 ∨ e.regs.cfg.c = 4)) :
    e.check = some .unsupportedChannelLayout :=
  if_pos ((channelsLegal_false_iff _).2 h)

/-- A zero dimension and a grid that does not fit are one kind of error (R100). -/
theorem Enc.check_of_inconsistent {e : Enc} (hc : e.regs.cfg.c = 3 ∨ e.regs.cfg.c = 4)
    (h : (e.regs.cfg.w = 0 ∨ e.regs.cfg.h = 0) ∨ (e.streamed = false ∧ e.gridFits = false)) :
    e.check = some .consistencyError := by
  rw [Enc.check, if_neg ((channelsLegal_false_iff _).not_left.2 hc)]
  by_cases hdim : e.regs.cfg.w = 0 ∨ e.regs.cfg.h = 0
  · rw [if_pos hdim]
  · rw [if_neg hdim, if_pos (h.resolve_left hdim)]

/-- The last check is of a grid handed over at once alone (R117; log 10). -/
theorem Enc.check_of_consistent {e : Enc} (hlegal : e.regs.cfg.legal)
    (hgrid : e.streamed = true ∨ e.gridFits = true) : e.check = none := by
  obtain ⟨hc, hw, hh⟩ := hlegal
  rw [Enc.check, if_neg ((channelsLegal_false_iff _).not_left.2 hc), if_neg (not_or.2 ⟨hw, hh⟩), if_neg]
  rintro ⟨hstream, hfits⟩
  simp [hstream, hfits] at hgrid

/-! ### The steps of an encode call in HEADER -/

section
variable {s : State} (hag : s.agenda = []) (ha : s.active = .enc) (hs : s.enc.regs.st = .header)
include hag ha hs

theorem step_enc_header_raises {k : ErrKind} (hk : s.enc.check = some k) : step s = .next (s.raise k) := by
  rw [step_enc s hag ha (by rw [hs]; rfl)]
  simp only [encStep, hs, hk]

/-- With no check failing the step writes the header (R90 step 4). -/
theorem step_enc_header (hk : s.enc.check = none) :
    step s = exec (.header s.enc.regs.cfg.w s.enc.regs.cfg.h s.enc.regs.cfg.c s.enc.regs.cfg.cs) s := by
  rw [step_enc s hag ha (by rw [hs]; rfl)]
  simp only [encStep, hs, hk]

end

/-- Settles O33: the first check of R90 that fails raises its error, and HEADER is written when none does. -/
theorem encodeChecksComeInOrder : Obligations.EncodeChecksComeInOrder := by
  unfold Obligations.EncodeChecksComeInOrder
  intro s hag ha hs
  refine ⟨fun hc => ?_, fun hc hbad => ?_, fun hc hw hh hgrid => ?_⟩
  · exact step_enc_header_raises hag ha hs (Enc.check_of_channels hc)
  · rw [← Enc.gridFits_false_iff] at hbad
    exact step_enc_header_raises hag ha hs (Enc.check_of_inconsistent hc hbad)
  · rw [← Enc.gridFits_iff] at hgrid
    exact step_enc_header hag ha hs (Enc.check_of_consistent ⟨hc, hw, hh⟩ hgrid)

/-! ### Both engines -/

/-- Settles O19: the step at each of the four positions, with the item found there. -/
theorem stepRunsTheContainerItem : Obligations.StepRunsTheContainerItem := by
  unfold Obligations.StepRunsTheContainerItem
  refine ⟨fun s i hag hd hs ho hr hi => ?_, fun s i hag hd hs ho hr hroom hi => ?_,
    fun s hag ha hs hk => step_enc_header hag ha hs hk, fun s hag ha hs => ?_⟩
  · rw [step_fileStart hag hd hs ho hr, hi]
    rfl
  · rw [step_fileEnd hag hd hs ho hr, Dec.nextTrailer_of_room hroom, hi]
    rfl
  · exact (step_enc_trailer hag ha hs).trans (exec_trailer_enc s ha).symm

end Machine

end Sys2Proof
end

section
/-! SUPPORT. What the encoder's chain selects, and for which pixels (R56, R69, R127); and what `exec` of a record
does to the control registers (R130). With these the two laws on records are settled. -/

namespace Sys2Proof.Machine

/-! ### The selected record -/

/-- Everything the chain can answer, with the guard that each answer rests on (R56). -/
theorem selectRecord_cases (p : Pixel) (r : Regs) :
    selectRecord p r = .index (pixelHash p)
      ∨ (p.a = r.prev.a
        ∧ selectRecord p r = .diff (delta p.r r.prev.r) (delta p.g r.prev.g) (delta p.b r.prev.b))
      ∨ (p.a = r.prev.a
        ∧ selectRecord p r = .luma (delta p.g r.prev.g) (delta p.r r.prev.r - delta p.g r.prev.g)
          (delta p.b r.prev.b - delta p.g r.prev.g))
      ∨ (r.cfg.c = 3 ∧ selectRecord p r = .rgb p.r p.g p.b)
      ∨ (r.cfg.c ≠ 3 ∧ selectRecord p r = .rgba p.r p.g p.b p.a) := by
  unfold selectRecord
  split
  next => exact .inl rfl
  next =>
    split
    next h => exact .inr (.inl ⟨h.1, rfl⟩)
    next =>
      split
      next h => exact .inr (.inr (.inl ⟨h.1, rfl⟩))
      next =>
        split
        next hc => exact .inr (.inr (.inr (.inl ⟨hc, rfl⟩)))
        next hc => exact .inr (.inr (.inr (.inr ⟨hc, rfl⟩)))

/-- An encoder delta is the integer that leads from the old channel to the new one, without wrap (R60). -/
theorem toNat_add_delta (new old : Byte) : (old.toNat : Int) + delta new old = new.toNat := by
  rw [delta_eq]
  omega

/-- A selected DIFF is exact (R69 (f)). -/
theorem selectRecord_diff_exact {p : Pixel} {r : Regs} {dr dg db : Int} (h : selectRecord p r = .diff dr dg db) :
    p.a = r.prev.a ∧ (r.prev.r.toNat : Int) + dr = p.r.toNat
      ∧ (r.prev.g.toNat : Int) + dg = p.g.toNat ∧ (r.prev.b.toNat : Int) + db = p.b.toNat := by
  rcases selectRecord_cases p r with hs | ⟨ha, hs⟩ | ⟨_, hs⟩ | ⟨_, hs⟩ | ⟨_, hs⟩ <;> cases hs.symm.trans h
  exact ⟨ha, toNat_add_delta _ _, toNat_add_delta _ _, toNat_add_delta _ _⟩

/-- A selected LUMA is exact: `dr = dr_dg + dg` and `db = db_dg + dg` (R69 (f)). -/
theorem selectRecord_luma_exact {p : Pixel} {r : Regs} {dg drDg dbDg : Int}
    (h : selectRecord p r = .luma dg drDg dbDg) :
    p.a = r.prev.a ∧ (r.prev.r.toNat : Int) + (drDg + dg) = p.r.toNat
      ∧ (r.prev.g.toNat : Int) + dg = p.g.toNat ∧ (r.prev.b.toNat : Int) + (dbDg + dg) = p.b.toNat := by
  rcases selectRecord_cases p r with hs | ⟨_, hs⟩ | ⟨ha, hs⟩ | ⟨_, hs⟩ | ⟨_, hs⟩ <;> cases hs.symm.trans h
  simp only [sub_add_cancel]
  exact ⟨ha, toNat_add_delta _ _, toNat_add_delta _ _, toNat_add_delta _ _⟩

/-- The chain answers no RUN, which is a flush (R58). -/
theorem selectRecord_ne_run (p : Pixel) (r : Regs) (n : Nat) : selectRecord p r ≠ .run n := by
  intro h
  rcases selectRecord_cases p r with hs | ⟨_, hs⟩ | ⟨_, hs⟩ | ⟨_, hs⟩ | ⟨_, hs⟩ <;> cases hs.symm.trans h

theorem channels_of_selectRecord_rgb {p : Pixel} {r : Regs} {x y z : Byte} (h : selectRecord p r = .rgb x y z) :
    r.cfg.c = 3 := by
  rcases selectRecord_cases p r with hs | ⟨_, hs⟩ | ⟨_, hs⟩ | ⟨hc, hs⟩ | ⟨_, hs⟩ <;> cases hs.symm.trans h
  exact hc

theorem channels_of_selectRecord_rgba {p : Pixel} {r : Regs} {x y z a : Byte}
    (h : selectRecord p r = .rgba x y z a) : r.cfg.c ≠ 3 := by
  rcases selectRecord_cases p r with hs | ⟨_, hs⟩ | ⟨_, hs⟩ | ⟨_, hs⟩ | ⟨hc, hs⟩ <;> cases hs.symm.trans h
  exact hc

theorem byte_eq_of_zero_delta {x y : Byte} (h : (y.toNat : Int) + 0 = x.toNat) : x = y :=
  BitVec.eq_of_toNat_eq (by omega)

/-- A pixel of another's alpha, at delta 0 from it in each channel, is that pixel. -/
theorem pixel_eq_of_zero_deltas {p q : Pixel} (ha : p.a = q.a) (hr : (q.r.toNat : Int) + 0 = p.r.toNat)
    (hg : (q.g.toNat : Int) + 0 = p.g.toNat) (hb : (q.b.toNat : Int) + 0 = p.b.toNat) : p = q := by
  cases p
  cases q
  rw [Pixel.mk.injEq]
  exact ⟨byte_eq_of_zero_delta hr, byte_eq_of_zero_delta hg, byte_eq_of_zero_delta hb, ha⟩

/-- Settles O40: the chain answers no RUN and the literal of the call's channel count alone; its deltas are exact,
so that deltas of 0 would make the pixel `PREV`. -/
theorem selectedRecordIsExact : Obligations.SelectedRecordIsExact := by
  unfold Obligations.SelectedRecordIsExact
  intro r p hp _
  obtain ⟨hrec, hwf⟩ := selectRecord_encodable p r
  refine ⟨hwf, hrec, fun h => ?_, fun h => ?_, selectRecord_ne_run p r, fun hc x y z a h => ?_,
    fun hc x y z h => ?_, fun _ _ _ => selectRecord_diff_exact, fun _ _ _ => selectRecord_luma_exact⟩
  · obtain ⟨ha, hr, hg, hb⟩ := selectRecord_diff_exact h
    exact hp (pixel_eq_of_zero_deltas ha hr hg hb)
  · obtain ⟨ha, hr, hg, hb⟩ := selectRecord_luma_exact h
    exact hp (pixel_eq_of_zero_deltas ha hr hg hb)
  · exact channels_of_selectRecord_rgba h hc
  · have hc3 := channels_of_selectRecord_rgb h
    rw [hc] at hc3
    exact absurd hc3 (by decide)

/-! ### The control registers -/

/-- Taking an error leaves both descriptors (R106). -/
theorem raise_cfg (k : ErrKind) (s : State) :
    (s.raise k).enc.regs.cfg = s.enc.regs.cfg ∧ (s.raise k).dec.regs.cfg = s.dec.regs.cfg := by
  cases h : s.active with
  | enc => rw [raise_enc k s h]; exact ⟨rfl, rfl⟩
  | dec => rw [raise_dec k s h]; exact ⟨rfl, rfl⟩

theorem recordPixel_sameControl (i : Instr) (updates : Bool) (e : Enc) :
    sameControl e.regs (e.recordPixel i updates).regs := by
  cases hp : e.pixel with
  | none =>
    rw [recordPixel_none i updates hp]
    exact sameControl_refl _
  | some p =>
    rw [recordPixel_some i updates hp]
    cases updates <;> exact ⟨rfl, rfl, rfl⟩

/-- What any record does in the encoder: it raises no error, and leaves the control registers. -/
theorem exec_record_enc_control {i : Instr} {s : State} (h : s.active = .enc) (hi : i.isRecord = true) :
    ∃ e, exec i s = .next { s with enc := e } ∧ sameControl s.enc.regs e.regs := by
  cases i with
  | index i => exact ⟨_, exec_index_enc i s h, recordPixel_sameControl _ _ _⟩
  | diff dr dg db => exact ⟨_, exec_diff_enc dr dg db s h, recordPixel_sameControl _ _ _⟩
  | luma dg drDg dbDg => exact ⟨_, exec_luma_enc dg drDg dbDg s h, recordPixel_sameControl _ _ _⟩
  | run n => exact ⟨_, exec_run_enc n s h, sameControl_refl _⟩
  | rgb r g b => exact ⟨_, exec_rgb_enc r g b s h, recordPixel_sameControl _ _ _⟩
  | rgba r g b a => exact ⟨_, exec_rgba_enc r g b a s h, recordPixel_sameControl _ _ _⟩
  | header w h c cs => cases hi
  | trailer => cases hi

/-- Settles O49: the encoder's records raise nothing; the decoder's have an effect that leaves the control
registers, or raise `MalformedStream`. -/
theorem recordsLeaveControlStateAlone : Obligations.RecordsLeaveControlStateAlone := by
  unfold Obligations.RecordsLeaveControlStateAlone
  intro i s hi
  cases h : s.active with
  | enc =>
    obtain ⟨e, hexec, hsame⟩ := exec_record_enc_control h hi
    exact ⟨_, hexec, hsame.1, rfl, .inl ⟨hsame, sameControl_refl _⟩⟩
  | dec =>
    rcases exec_record_dec i s h hi with hraise | ⟨t, p, run, updates, hexec, heff, _⟩
    · obtain ⟨henc, hdec⟩ := raise_cfg .malformedStream s
      exact ⟨_, hraise, henc, hdec, .inr rfl⟩
    · obtain ⟨henc, _, _, _, _, _, _, hsame, _⟩ := heff
      exact ⟨t, hexec, by rw [henc], hsame.1, .inl ⟨by rw [henc]; exact sameControl_refl _, hsame⟩⟩

end Sys2Proof.Machine
end

section
/-! SUPPORT. Error entry (R97, R106), and what a step can do to an engine whose call has ended (R107). With these
ErrorEntryWritesOnlyStatusAndCode and EndedCallsWaitForTheHost are settled. -/

namespace Sys2Proof.Machine

/-! ### Error entry -/

/-- Settles O41: taking an error writes the active engine's `ST` and `ERR`, and a call in ERROR answers `ERR`. -/
theorem errorEntryWritesOnlyStatusAndCode : Obligations.ErrorEntryWritesOnlyStatusAndCode := by
  unfold Obligations.ErrorEntryWritesOnlyStatusAndCode
  refine ⟨fun s k hd => ?_, fun s k he => ?_, rfl, rfl, rfl, rfl, rfl, rfl, rfl⟩
  · rw [raise_dec k s hd]
    exact ⟨rfl, rfl⟩
  · rw [raise_enc k s he]
    exact ⟨rfl, rfl⟩

/-! ### An engine outside a call -/

theorem Status.not_inCall_of_ended {a : Status} (h : a = .done ∨ a = .error) : a.inCall = false := by
  rcases h with rfl | rfl <;> rfl

/-- Outside a call the encoder's own step changes nothing (log 22). -/
theorem encStep_of_not_inCall {s : State} (h : s.enc.regs.st.inCall = false) : encStep s = .next s := by
  cases hs : s.enc.regs.st with
  | idle | done | error => rw [encStep, hs]
  | header | body | trailer =>
    rw [hs] at h
    cases h

/-- Outside a call the decoder's own step changes nothing (log 22). -/
theorem decStep_of_not_inCall {s : State} (h : s.dec.regs.st.inCall = false) : decStep s = .next s := by
  cases hs : s.dec.regs.st with
  | idle | done | error => rw [decStep, hs]
  | header | body | trailer =>
    rw [hs] at h
    cases h

/-- Outside a call, only a move of the host changes the encoder. -/
theorem step_enc_of_not_inCall {s t : State} (h : step s = .next t) (hc : s.enc.regs.st.inCall = false) :
    t.enc = s.enc ∨ ∃ m later, s.agenda = .host m :: later ∧ t = hostMove m { s with agenda := later } := by
  rcases step_cases h with ⟨s', he, _, _, hs, _⟩ | ⟨s', he, _, ha, hs, _⟩ | hhost
  · rw [encStep_of_not_inCall (by rw [he]; exact hc)] at hs
    cases hs
    exact .inl he
  · exact .inl ((decStep_frame ha hs).1.trans he)
  · exact .inr hhost

/-- Outside a call, only a move of the host changes the decoder. -/
theorem step_dec_of_not_inCall {s t : State} (h : step s = .next t) (hc : s.dec.regs.st.inCall = false) :
    t.dec = s.dec ∨ ∃ m later, s.agenda = .host m :: later ∧ t = hostMove m { s with agenda := later } := by
  rcases step_cases h with ⟨s', _, hd, ha, hs, _⟩ | ⟨s', _, hd, _, hs, _⟩ | hhost
  · exact .inl ((encStep_frame ha hs).1.trans hd)
  · rw [decStep_of_not_inCall (by rw [hd]; exact hc)] at hs
    cases hs
    exact .inl hd
  · exact .inr hhost

/-! ### The result of a call -/

/-- What an encode call answers does not depend on the descriptor of the next call. -/
@[simp] theorem Enc.result_setCfg (e : Enc) (d : Cfg) : ({ e with regs := e.regs.setCfg d } : Enc).result = e.result :=
  rfl

/-- What a decode call answers is read under `desc_out`, not under the descriptor of the next call (R114). -/
@[simp] theorem Dec.result_setCfg (x : Dec) (d : Cfg) : ({ x with regs := x.regs.setCfg d } : Dec).result = x.result :=
  rfl

/-- Settles O44: an ended engine's own steps change nothing, and of the host's moves only its descriptor, a start of
that engine and a reset reach it. -/
theorem endedCallsWaitForTheHost : Obligations.EndedCallsWaitForTheHost := by
  unfold Obligations.EndedCallsWaitForTheHost
  refine ⟨fun s t h hended => ?_, fun s t h hended => ?_⟩
  · rcases step_dec_of_not_inCall h (Status.not_inCall_of_ended hended) with hsame | ⟨m, later, hag, rfl⟩
    · exact .inl hsame
    rcases hostMove_dec_cases m { s with agenda := later } with hsame | ⟨rfl, _⟩ | ⟨d, rfl, _, hcfg⟩
      | ⟨bodyOnly, bs, rfl, _⟩
    · exact .inl hsame
    · exact .inr (.inr ⟨later, .inl hag⟩)
    · exact .inr (.inl ⟨d, later, hag, hcfg, by rw [hcfg, Dec.result_setCfg]⟩)
    · cases bodyOnly with
      | false => exact .inr (.inr ⟨later, .inr (.inl ⟨bs, hag⟩)⟩)
      | true => exact .inr (.inr ⟨later, .inr (.inr ⟨bs, hag⟩)⟩)
  · have hc := Status.not_inCall_of_ended hended
    rcases step_enc_of_not_inCall h hc with hsame | ⟨m, later, hag, rfl⟩
    · exact .inl hsame
    rcases hostMove_enc_cases m { s with agenda := later } with hsame | ⟨rfl, _⟩ | ⟨d, rfl, _, hcfg⟩
      | ⟨_, _, ⟨rfl, _⟩ | ⟨ps, rfl, _⟩, _⟩ | ⟨p, rfl, hpixel⟩
    · exact .inl hsame
    · exact .inr (.inr ⟨later, .inl hag⟩)
    · exact .inr (.inl ⟨d, later, hag, hcfg, by rw [hcfg, Enc.result_setCfg]⟩)
    · exact .inr (.inr ⟨later, .inr (.inl hag)⟩)
    · exact .inr (.inr ⟨later, .inr (.inr ⟨ps, hag⟩)⟩)
    · exact .inl (hpixel.trans (Enc.deliver_ignored _ p (.inl hc)))

end Sys2Proof.Machine
end

section
/-! SUPPORT. Reset, the starts and the hand-over of pixels as moves of the host (R112, R113, R117). With these the
three statements on the host's moves are settled. -/

namespace Sys2Proof.Machine

/-! ### Reset -/

/-- Settles O46: the reset move puts both engines in their reset state and leaves the rest of the agenda. -/
theorem resetIdlesBothEngines : Obligations.ResetIdlesBothEngines := by
  unfold Obligations.ResetIdlesBothEngines
  intro s later hag
  exact ⟨_, step_host s .reset later hag, rfl, rfl, rfl, rfl, rfl, rfl, rfl⟩

/-! ### Outside a call -/

/-- The three statuses in which a start is accepted (R113). -/
theorem Status.not_inCall_iff (a : Status) : a.inCall = false ↔ a = .idle ∨ a = .done ∨ a = .error := by
  cases a <;> decide

/-- Either start of the decoder, outside a call and on a sequence that fits `len`, begins its call (R86, R113). -/
theorem step_start_dec {s : State} {only : Bool} {bs : List Byte} {later : List Event}
    (hag : s.agenda = .host (if only then .startBody bs else .startDec bs) :: later)
    (hc : s.dec.regs.st.inCall = false) (hfits : fitsLen bs = true) :
    step s = .next { s with dec := s.dec.start only bs, agenda := later } := by
  cases only with
  | false => exact step_startDec hag hc hfits
  | true =>
    rw [step_host s (.startBody bs) later hag]
    simp [hostMove, hc, hfits]

/-- A pixel crosses the port in at most four bytes, under any channel count (R29). -/
theorem length_channelBytes_le (c : Byte) (p : Pixel) : (channelBytes c p).length ≤ 4 := by
  unfold channelBytes
  split <;> simp

/-- A pixel that a streamed call lacks is appended to `pix_in` (R117). -/
theorem step_pixel {s : State} {p : Pixel} {later : List Event} (hag : s.agenda = .host (.pixel p) :: later)
    (hc : s.enc.regs.st.inCall = true) (hs : s.enc.streamed = true)
    (hn : s.enc.pixIn.chans.length < s.enc.regs.cfg.n.toNat) :
    step s = .next { s with
      agenda := later
      enc := { s.enc with pixIn := s.enc.pixIn.append (channelBytes s.enc.regs.cfg.c p) } } := by
  rw [step_host s _ _ hag, hostMove, Enc.deliver_of s.enc p hc hs hn]

/-- Settles O47: each start is accepted outside a call, and what it latches reads back. -/
theorem startInitialisesTheEngine : Obligations.StartInitialisesTheEngine := by
  unfold Obligations.StartInitialisesTheEngine
  refine ⟨fun s later bs only hag hst hlen => ?_, fun s later ps hag hst => ?_, fun s later hag hst => ?_,
    fun s later p hag hc hs hn => ?_⟩
  · have hstep := step_start_dec hag ((Status.not_inCall_iff _).2 hst) (decide_eq_true hlen)
    exact ⟨_, hstep, rfl, rfl, Regs.fresh_start _, rfl, rfl, rfl, rfl, rfl, s.dec.start_len_toNat hlen,
      Memory.readBytes_writeBytes [] 0 bs⟩
  · have hstep := step_startEnc hag ((Status.not_inCall_iff _).2 hst)
    refine ⟨_, hstep, rfl, rfl, Regs.fresh_start _, rfl, rfl, rfl, rfl, rfl, rfl, fun k p hp h4 => ?_⟩
    have hread := Memory.readBytes_writePixels [] 0 k ps p hp h4
    rwa [Nat.zero_add] at hread
  · have hstep := step_startStream hag ((Status.not_inCall_iff _).2 hst)
    exact ⟨_, hstep, rfl, rfl, Regs.fresh_start _, rfl, rfl, rfl, rfl, rfl, rfl⟩
  · exact ⟨_, step_pixel hag hc hs hn, rfl, Grid.readBytes_append _ _ (length_channelBytes_le _ p),
      fun x hx => Grid.read_append_below _ _ x hx⟩

/-! ### During a call -/

/-- A move that leaves the state takes its entry from the agenda and does nothing else. -/
theorem step_host_ignored {s : State} {m : HostMove} {later : List Event} (hag : s.agenda = .host m :: later)
    (hm : hostMove m { s with agenda := later } = { s with agenda := later }) :
    step s = .next { s with agenda := later } := by
  rw [step_host s m later hag, hm]

/-- Settles O48: the starts and the descriptor's write ask for an engine outside a call, the pixel for a streamed
call that lacks one. -/
theorem callsInProgressIgnoreTheHost : Obligations.CallsInProgressIgnoreTheHost := by
  unfold Obligations.CallsInProgressIgnoreTheHost
  refine ⟨fun s later hc hmove => ?_, fun s later hc hmove => ?_⟩
  · rcases hmove with ⟨ps, hag⟩ | hag | ⟨p, hag, hfull⟩ | ⟨d, hag⟩
    · exact step_host_ignored hag (if_pos hc)
    · exact step_host_ignored hag (if_pos hc)
    · refine step_host_ignored hag ?_
      rw [hostMove, Enc.deliver_ignored s.enc p (.inr hfull)]
    · exact step_host_ignored hag (if_pos hc)
  · have hc' : ∀ bs, (s.dec.regs.st.inCall || fitsLen bs = false) = true := fun bs => by rw [hc, Bool.true_or]
    rcases hmove with ⟨bs, hag⟩ | ⟨bs, hag⟩ | ⟨d, hag⟩
    · exact step_host_ignored hag (if_pos (hc' bs))
    · exact step_host_ignored hag (if_pos (hc' bs))
    · exact step_host_ignored hag (if_pos hc)

end Sys2Proof.Machine
end

section
/-! SUPPORT. How a call comes to its end, and how an encode call waits for a pixel (R115, R117, R125). With these the
two statements on the ends of calls are settled. -/

namespace Sys2Proof.Machine

/-! ### The encode call -/

theorem Enc.pixel_eq_none {e : Enc} (h : e.pixIn.chans.length ≤ e.regs.pxi.toNat) : e.pixel = none :=
  if_neg h.not_gt

/-- An encoder that lacks its next pixel does nothing (R117, U5; log 10). -/
theorem step_waits {s : State} (hag : s.agenda = []) (ha : s.active = .enc) (hs : s.enc.regs.st = .body)
    (hn : s.enc.regs.pxi ≠ s.enc.regs.cfg.n) (hpix : s.enc.pixel = none) : step s = .next s := by
  rw [step_enc s hag ha (by rw [hs]; rfl)]
  simp only [encStep, hs, if_neg hn, hpix]

theorem run_of_step_self {s : State} (h : step s = .next s) (k : Nat) : core.run k s = .next s := by
  induction k with
  | zero => rfl
  | succ k ih => exact (run_succ k h).trans ih

/-- After the scan the trailer is left to write, and `PXI` stands at `N` (R67, R89). -/
theorem Scanned.step_done {s t : State} {bs : List Byte} (h : Scanned s t bs) :
    ∃ u, step t = .next u ∧ u.enc.regs.st = .done ∧ u.enc.regs.pxi = s.enc.regs.cfg.n ∧ u.dec = s.dec := by
  obtain ⟨hag, hact, hdec, hst, ⟨_, _, _, _, _, htrailer⟩, hcfg, _⟩ := h
  obtain ⟨_, _, _, hpxi⟩ := htrailer hst
  exact ⟨_, step_enc_trailer hag hact hst, rfl, hpxi.trans (by rw [hcfg]), hdec⟩

/-- Settles O57: the scan takes a step for each pixel left and one for its end, and the trailer one; without its next
pixel the encoder's step changes nothing. -/
theorem encodeCallEndsDone : Obligations.EncodeCallEndsDone := by
  unfold Obligations.EncodeCallEndsDone
  refine ⟨fun s hinv hag ha hs hall => ?_, fun s k hag ha hs hn hlacks => ?_⟩
  · obtain ⟨henc, _⟩ := hinv
    obtain ⟨_, _, _, _, hbody, _⟩ := id henc
    obtain ⟨⟨_, _, _, _, _, hpxi, _⟩, _⟩ := hbody hs
    obtain ⟨t, bs, ht, hscanned, _⟩ := run_scans _ hag ha hs henc hall (Nat.add_sub_of_le (hall ▸ hpxi))
    obtain ⟨u, hu, hend⟩ := hscanned.step_done
    exact ⟨u, (run_add _ 1 ht).trans (run_succ 0 hu), hend⟩
  · exact run_of_step_self (step_waits hag ha hs hn (Enc.pixel_eq_none hlacks)) k

/-! ### The decode call -/

/-- A decode call of descriptor `d` has ended: in DONE with all its cells, or in ERROR (R115). -/
def Dec.ended (x : Dec) (d : Cfg) : Prop :=
  (x.regs.st = .done ∧ x.regs.pxi = d.n) ∨ x.regs.st = .error

theorem ended_of_raise (k : ErrKind) {s : State} (d : Cfg) (hd : s.active = .dec) :
    (s.raise k).dec.ended d ∧ (s.raise k).enc = s.enc := by
  rw [raise_dec k s hd]
  exact ⟨.inr rfl, rfl⟩

/-- With `k` cells left the call ends within `k + 2` steps: each body step raises an error or produces a cell, and two
steps follow the last cell (R84, R115; log 6, log 7). -/
theorem run_ends_within (k : Nat) {s : State} (hag : s.agenda = []) (hd : s.active = .dec)
    (hs : s.dec.regs.st = .body) (hk : s.dec.regs.pxi.toNat + k = s.dec.regs.cfg.n.toNat) :
    ∃ j t, j ≤ k + 2 ∧ core.run j s = .next t ∧ t.dec.ended s.dec.regs.cfg ∧ t.enc = s.enc := by
  induction k generalizing s with
  | zero =>
    have hn : s.dec.regs.pxi = s.dec.regs.cfg.n := BitVec.eq_of_toNat_eq hk
    exact ⟨2, _, le_rfl, run_ends hag hd hs hn, .inl ⟨rfl, hn⟩, rfl⟩
  | succ k ih =>
    have hlt : s.dec.regs.pxi.toNat < s.dec.regs.cfg.n.toNat := by omega
    rcases decoderBodyStepIsTotal s hag hd hs (ne_of_toNat_lt hlt) with
      hraise | hraise | ⟨t, p, n, run, updates, hstep, heff⟩
    · exact ⟨1, _, by omega, run_succ 0 hraise, ended_of_raise _ _ hd⟩
    · exact ⟨1, _, by omega, run_succ 0 hraise, ended_of_raise _ _ hd⟩
    · obtain ⟨henc, hact, hagenda, _, _, _, hpxi, ⟨hcfg, hst, _⟩, _⟩ := heff
      have hpxi' : t.dec.regs.pxi.toNat = s.dec.regs.pxi.toNat + 1 := by rw [hpxi, toNat_add_one_of_lt hlt]
      obtain ⟨j, u, hj, hrun, hended, henc'⟩ :=
        ih (hagenda.trans hag) (hact.trans hd) (hst.trans hs) (by rw [hpxi', hcfg]; omega)
      exact ⟨j + 1, u, by omega, (run_succ j hstep).trans hrun, hcfg ▸ hended, henc'.trans henc⟩

/-- Settles O58: by the invariant `PXI` is at most `N`, and the cells left bound the steps. -/
theorem decodeCallEnds : Obligations.DecodeCallEnds := by
  unfold Obligations.DecodeCallEnds
  rintro s ⟨_, _, _, _, _, hbody, _⟩ hag hd hs
  obtain ⟨_, _, _, hle, _⟩ := hbody hs
  exact run_ends_within _ hag hd hs (Nat.add_sub_of_le (BitVec.le_def.1 hle))

end Sys2Proof.Machine
end
